-- ==== Sys2Proof/Word.lean ====
section
/-! DEFINITION. The byte and the pixel: the only data types the core's opcodes work on (spec/00_scope.md R8, R9). -/

namespace Sys2Proof

/-- A byte: 8 bits, bit 7 the most significant (R8). -/
abbrev Byte := BitVec 8

/-- A pixel: "an opaque 4-tuple (r,g,b,a) of uint8 components" (R9). How the four are packed into a register is
not observable (U8), so a pixel is a record of four bytes. -/
structure Pixel where
  r : Byte
  g : Byte
  b : Byte
  a : Byte
  deriving DecidableEq, Repr

end Sys2Proof
end

