-- ==== Sys2Proof/Syntax.lean ====
section
/-! DEFINITION. The six opcodes, written as the spec's notation writes them (spec/30_encoding.md R92, R109). -/

namespace Sys2Proof

/-- One chunk of the opcode stream, with its recovered operands (R100, R109): deltas are integers, `run n` carries the
total number of pixels. The five RUN rows of opcode_table.json are the one opcode RUN. The ranges the encoding admits
are `Instr.WellFormed`. -/
inductive Instr where
  /-- `INDEX s`: reuse cache slot `s` (R93). -/
  | index (slot : Fin 64)
  /-- `DIFF dr,dg,db`: small deltas of red, green and blue (R94). -/
  | diff (dr dg db : Int)
  /-- `LUMA dg,dr_dg,db_dg`: green's delta, and red's and blue's relative to it (R95). -/
  | luma (dg drDg dbDg : Int)
  /-- `RUN n`: `n` pixels equal to the previous pixel (R96). -/
  | run (n : Nat)
  /-- `RGB r,g,b`: literal components, alpha unchanged (R97). -/
  | rgb (r g b : Byte)
  /-- `RGBA r,g,b,a`: literal components (R98). -/
  | rgba (r g b a : Byte)
  deriving DecidableEq, Repr

end Sys2Proof
end

