-- ==== Sys2Proof/WellFormed.lean ====
section
/-! DEFINITION. Which instructions an encoding exists for: the operand ranges of spec/30_encoding.md R100 and R109. -/

namespace Sys2Proof

/-- The operand ranges of R109: DIFF deltas in -2..1, LUMA green in -32..31, red and blue relative to green in -8..7,
RUN 1..62. INDEX slots are 0..63 and RGB, RGBA components are bytes by their types. -/
def Instr.wellFormed : Instr → Bool
  | .index _ => true
  | .diff dr dg db => decide (-2 ≤ dr ∧ dr ≤ 1) && decide (-2 ≤ dg ∧ dg ≤ 1) && decide (-2 ≤ db ∧ db ≤ 1)
  | .luma dg drDg dbDg =>
      decide (-32 ≤ dg ∧ dg ≤ 31) && decide (-8 ≤ drDg ∧ drDg ≤ 7) && decide (-8 ≤ dbDg ∧ dbDg ≤ 7)
  | .run n => decide (1 ≤ n ∧ n ≤ 62)
  | .rgb _ _ _ => true
  | .rgba _ _ _ _ => true

/-- An encoding exists for `i` (R109). -/
abbrev Instr.WellFormed (i : Instr) : Prop := i.wellFormed = true

end Sys2Proof
end

