-- ==== Sys2Proof/Decode.lean ====
section
/-! DEFINITION. From bytes to opcodes and back (spec/30_encoding.md). The decoder is total on any bytes: all 256 first
bytes name an opcode (R102, R104), so the one thing it can reject, by name, is a chunk that is cut short. -/

namespace Sys2Proof

/-- Why no opcode can be read: the bytes end before the chunk does. There is no illegal encoding (R104). -/
inductive DecodeError where
  | truncatedChunk
  deriving DecidableEq, Repr

/-- `b[hi:lo]` of R8, as a number: `width` bits from bit `lo` up. -/
def bitField (b : Byte) (lo width : Nat) : Nat := (b.extractLsb' lo width).toNat

/-- The number of payload bytes after first byte `b`: a function of `b` alone (R106). -/
def payloadLength (b : Byte) : Nat :=
  if b = 0xFE then 3 else if b = 0xFF then 4 else if bitField b 6 2 = 2 then 1 else 0

/-- The total length of a chunk in bytes (R92). -/
def Instr.length : Instr → Nat
  | .index _ => 1
  | .diff _ _ _ => 1
  | .luma _ _ _ => 2
  | .run _ => 1
  | .rgb _ _ _ => 4
  | .rgba _ _ _ _ => 5

/-- Operands of INDEX from its byte (R93). -/
def decodeIndex (b : Byte) : Instr := .index (Fin.ofNat 64 (bitField b 0 6))

/-- Operands of DIFF from its byte: bias 2 subtracted from each 2-bit field (R94, R100). -/
def decodeDiff (b : Byte) : Instr :=
  .diff ((bitField b 4 2 : Int) - 2) ((bitField b 2 2 : Int) - 2) ((bitField b 0 2 : Int) - 2)

/-- Operands of LUMA from its two bytes: biases 32 and 8 (R95, R100). -/
def decodeLuma (b b2 : Byte) : Instr :=
  .luma ((bitField b 0 6 : Int) - 32) ((bitField b2 4 4 : Int) - 8) ((bitField b2 0 4 : Int) - 8)

/-- Operand of RUN from its byte: a stored field `n` means `n + 1` pixels (R96, R100). -/
def decodeRun (b : Byte) : Instr := .run (bitField b 0 6 + 1)

/-- Read one chunk from the front of a list of bytes: the opcode and the bytes after it. The whole first byte is
tested for `0xFE` and `0xFF` before its top two bits (R101, R226). -/
def decode : List Byte → Except DecodeError (Instr × List Byte)
  | [] => .error .truncatedChunk
  | b :: rest =>
    if b = 0xFE then
      match rest with
      | r :: g :: bl :: rest' => .ok (.rgb r g bl, rest')
      | _ => .error .truncatedChunk
    else if b = 0xFF then
      match rest with
      | r :: g :: bl :: a :: rest' => .ok (.rgba r g bl a, rest')
      | _ => .error .truncatedChunk
    else if bitField b 6 2 = 0 then .ok (decodeIndex b, rest)
    else if bitField b 6 2 = 1 then .ok (decodeDiff b, rest)
    else if bitField b 6 2 = 2 then
      match rest with
      | b2 :: rest' => .ok (decodeLuma b b2, rest')
      | [] => .error .truncatedChunk
    else .ok (decodeRun b, rest)

/-- A biased operand as a byte: `v + bias`, its low 8 bits. -/
def biased (v : Int) (bias : Int) : Byte := BitVec.ofInt 8 (v + bias)

/-- The bytes of a chunk, by the encoding expressions of R93 to R98. -/
def encode : Instr → List Byte
  | .index s => [0x00 ||| BitVec.ofNat 8 s.val]
  | .diff dr dg db => [0x40 ||| (biased dr 2 <<< 4) ||| (biased dg 2 <<< 2) ||| biased db 2]
  | .luma dg drDg dbDg => [0x80 ||| biased dg 32, (biased drDg 8 <<< 4) ||| biased dbDg 8]
  | .run n => [0xC0 ||| biased (n : Int) (-1)]
  | .rgb r g b => [0xFE, r, g, b]
  | .rgba r g b a => [0xFF, r, g, b, a]

/-- The longest chunk, in bytes (R92). -/
def maxChunk : Nat := 5

/-- The bytes of an opcode-table word: byte `j` is bits `8 j + 7 .. 8 j` of `w`, bits from `nbits` up read as 0. -/
def tableBytes (nbits w : Nat) : List Byte :=
  (List.range maxChunk).map fun j => BitVec.ofNat 8 ((w % 2 ^ nbits) / 2 ^ (8 * j))

/-- The opcode the decoder reads from an opcode-table word. -/
def decodeTableWord (nbits w : Nat) : Option Instr :=
  match decode (tableBytes nbits w) with
  | .ok (i, _) => some i
  | .error _ => none

end Sys2Proof
end

