-- ==== Sys2Proof/Config.lean ====
section
/-! DEFINITION. The constants of the format (spec/00_scope.md R6) and the one open parameter of an instance that
changes what the model does, MAX_PIXELS (R7, D8). -/

namespace Sys2Proof.Config

/-- `MAGIC`, the characters `q`, `o`, `i`, `f` (R6). PRESUMED (log 2): the byte values are ASCII, supplied by the spec
"from general knowledge, not in source" (G1). -/
def magic : List Byte := [0x71, 0x6F, 0x69, 0x66]

/-- `HEADER_LEN` (R6). -/
def headerLen : Nat := 14

/-- `END_MARKER`: "seven 0x00 bytes then one 0x01 byte" (R6, R99). -/
def endMarker : List Byte := [0x00, 0x00, 0x00, 0x00, 0x00, 0x00, 0x00, 0x01]

/-- `RUN_MAX`: the longest run one RUN opcode carries (R6). -/
def runMax : Nat := 62

/-- `PREV_INIT`: opaque black, the previous pixel before the first pixel (R6). -/
def prevInit : Pixel := ⟨0, 0, 0, 255⟩

/-- `CACHE_INIT`: the content of every cache slot before the first pixel (R6). Not the same pixel as `prevInit` (R143). -/
def cacheInit : Pixel := ⟨0, 0, 0, 0⟩

/-- What an instance's capacity exceeds 130 pixels by: an implementation's own number, left without a value. -/
opaque extraPixels : Nat

/-- `MAX_PIXELS`: the largest `width * height` an instance accepts (R7, D8), an unknown number. DEDUCED (log 3): at least
130, the largest image of the spec's own vectors (V25), which every instance runs. -/
def maxPixels : Nat := extraPixels + 130

end Sys2Proof.Config
end

