-- ==== Sys2Proof/Machine/State.lean ====
section
/-! DEFINITION. The state of the core: one encoder engine, one decoder engine, their four buffers (spec/10_state.md,
spec/20_memory.md), and, as the model's own plain data, what HOST will do and who moves next. -/

namespace Sys2Proof.Machine

/-- `STATUS`, a 2-bit register with four values (R23). -/
inductive Status where
  | idle
  | busy
  | done
  | fault
  deriving DecidableEq, Repr

/-- `ERR.kind` (R33, R260). -/
inductive ErrKind where
  | none
  | validation
  | format
  deriving DecidableEq, Repr

/-- `ERR.cause`, by the names of R261; the 8-bit codes are `Cause.code`. -/
inductive Cause where
  | none
  | dimensionRange
  | badChannelsArg
  | badColorspaceArg
  | lengthMismatch
  | badOutputChannels
  | headerTooShort
  | badMagic
  | badChannels
  | badColorspace
  | truncatedStream
  deriving DecidableEq, Repr

/-- `ERR`, a record of two fields (R33). -/
structure Err where
  kind : ErrKind
  cause : Cause
  deriving DecidableEq, Repr

/-- The status and error registers, which both engines have (spec/10_state.md section 2). -/
structure Ctl where
  status : Status
  err : Err
  deriving DecidableEq, Repr

/-- A buffer: bytes by offset (R60), as the list of the cells that differ from what an unwritten byte reads as. -/
structure Memory where
  cells : List Host.Cell
  deriving DecidableEq, Repr

/-- The pixel cache: "an ordered-by-index array of 64 pixel slots" (R140). -/
abbrev Cache := Vector Pixel 64

/-- `ENC.REQ` (R24). -/
structure EncReq where
  width : BitVec 64
  height : BitVec 64
  channels : BitVec 8
  colorspace : BitVec 8
  pixlen : BitVec 72
  deriving DecidableEq, Repr

/-- `ENC.CFG` (R25). -/
structure EncCfg where
  w : BitVec 32
  h : BitVec 32
  c : BitVec 8
  s : BitVec 8
  deriving DecidableEq, Repr

/-- The encoder engine (R23 to R33) and its two buffers (R61, R62). -/
structure Enc where
  ctl : Ctl
  req : EncReq
  cfg : EncCfg
  n : BitVec 64
  prev : Pixel
  run : BitVec 6
  cache : Cache
  outlen : BitVec 67
  pos : BitVec 64
  pix : Memory
  out : Memory
  deriving DecidableEq, Repr

/-- `DEC.REQ` (R34). -/
structure DecReq where
  inlen : BitVec 64
  outChannels : BitVec 8
  deriving DecidableEq, Repr

/-- The header's fields (R91); `DEC.HDR` (R35). -/
structure Header where
  width : BitVec 32
  height : BitVec 32
  channels : BitVec 8
  colorspace : BitVec 8
  deriving DecidableEq, Repr

/-- The decoder engine (R23, R31 to R41) and its two buffers (R63, R64). `inlen` is `DEC.INLEN` of R11, the input length
latched at START. DEDUCED (log 6). -/
structure Dec where
  ctl : Ctl
  req : DecReq
  inlen : BitVec 64
  hdr : Header
  oc : BitVec 8
  n : BitVec 64
  k : BitVec 64
  wc : BitVec 66
  rp : BitVec 64
  cur : Pixel
  run : BitVec 6
  cache : Cache
  input : Memory
  out : Memory
  deriving DecidableEq, Repr

/-- The three agents (R20). -/
inductive Agent where
  | host
  | enc
  | dec
  deriving DecidableEq, Repr

/-- The four buffers (R60). -/
inductive Buffer where
  | encPix
  | encOut
  | decIn
  | decOut
  deriving DecidableEq, Repr

/-- One move of HOST (R20): a write to one request field (R24, R34), a write of one byte of a buffer (R303, R304), START
for an engine, or hardware reset (R300). DESIGN CHOICE (log 8). -/
inductive HostCmd where
  | encWidth (v : BitVec 64)
  | encHeight (v : BitVec 64)
  | encChannels (v : BitVec 8)
  | encColorspace (v : BitVec 8)
  | encPixlen (v : BitVec 72)
  | decInlen (v : BitVec 64)
  | decOutChannels (v : BitVec 8)
  | store (buf : Buffer) (offset : Nat) (v : Byte)
  | startEnc
  | startDec
  | hardReset
  deriving DecidableEq, Repr

/-- Why the model stops although an instruction or a command was given. The spec's own errors are not here: they are
next states with STATUS = FAULT (R270). -/
inductive Fault where
  /-- Raised by HOST's command `store` into a buffer whose engine is BUSY: a race, whose effect the spec calls undefined
  (R78, U4). Safe: the model stops where the hardware goes on with some interleaving. -/
  | hostWriteRace
  deriving DecidableEq, Repr

/-- What the model gives no meaning to. -/
inductive Refusal where
  /-- Raised by an arm of `exec` whose instruction has no meaning yet; no arm does. Safe: the run stops. -/
  | notModelled (mnemonic : String)
  /-- Raised by START of a transaction of more than MAX_PIXELS pixels, which is "outside what the instance accepts, and a
  model refuses it" (R80, D8, U6). Safe: nothing is claimed of such a transaction. -/
  | beyondMaxPixels
  deriving DecidableEq, Repr

/-- The whole machine. `cmds` (HOST's pending moves, oldest first) and `sched` (who moves in the next steps) are the model's
own plain data (log 7, log 8). -/
structure State where
  enc : Enc
  dec : Dec
  cmds : List HostCmd
  sched : List Agent
  deriving DecidableEq, Repr

/-- No error: `kind = 0`, `cause = 0` (R33). -/
def Err.clear : Err := ⟨.none, .none⟩

/-- Every slot `(0,0,0,0)` (R143). -/
def Cache.init : Cache := Vector.replicate 64 Config.cacheInit

/-- A buffer that nothing has been written to. -/
def Memory.empty : Memory := ⟨[]⟩

/-- The encoder after power-on reset (R44, R300). The request fields, `cfg`, `n` and the buffers are unspecified by the spec:
DESIGN CHOICE zero and empty (log 4, log 5). -/
def Enc.reset : Enc where
  ctl := ⟨.idle, Err.clear⟩
  req := ⟨0, 0, 0, 0, 0⟩
  cfg := ⟨0, 0, 0, 0⟩
  n := 0
  prev := Config.prevInit
  run := 0
  cache := Cache.init
  outlen := 0
  pos := 0
  pix := Memory.empty
  out := Memory.empty

/-- The decoder after power-on reset (R44, R300). The request fields, `inlen`, `hdr`, `oc`, `n` and the buffers are
unspecified by the spec: DESIGN CHOICE zero and empty (log 4, log 5). -/
def Dec.reset : Dec where
  ctl := ⟨.idle, Err.clear⟩
  req := ⟨0, 0⟩
  inlen := 0
  hdr := ⟨0, 0, 0, 0⟩
  oc := 0
  n := 0
  k := 0
  wc := 0
  rp := 0
  cur := Config.prevInit
  run := 0
  cache := Cache.init
  input := Memory.empty
  out := Memory.empty

/-- The machine right after reset (R300), with no command of HOST pending and no schedule fixed. -/
def State.reset : State where
  enc := Enc.reset
  dec := Dec.reset
  cmds := []
  sched := []

end Sys2Proof.Machine
end

