-- ==== Sys2Proof/Machine/Ops.lean ====
section
/-! DEFINITION. The named operations over buffers, cache and registers that the steps and the opcodes share
(spec/00_scope.md R11, spec/20_memory.md, spec/41_pixel_hash_cache.md, spec/60_exceptions.md R270). -/

namespace Sys2Proof.Machine

/-! ### Buffers (R60, R68 to R71) -/

/-- What a byte that nothing has written reads as. The spec leaves the buffers' power-on content unspecified (R300,
U3). DESIGN CHOICE 0 (log 5). -/
def unlistedByte : Byte := 0

/-- The first listed byte at offset `a`, or what an unlisted offset reads as. -/
def readCells : List Host.Cell → Nat → Byte
  | [], _ => unlistedByte
  | c :: rest, a => if c.1 = a then c.2 else readCells rest a

/-- Put a cell in front of the first cell with a higher offset. -/
def insertCell (c : Host.Cell) : List Host.Cell → List Host.Cell
  | [] => [c]
  | d :: rest => if c.1 < d.1 then c :: d :: rest else d :: insertCell c rest

/-- The byte at offset `a`; reading changes nothing (R70). -/
def Memory.read (m : Memory) (a : Nat) : Byte := readCells m.cells a

/-- Replace the byte at offset `a`, keeping the list in canonical form. -/
def Memory.write (m : Memory) (a : Nat) (v : Byte) : Memory :=
  let others := m.cells.filter fun c => decide (c.1 ≠ a)
  if v = unlistedByte then ⟨others⟩ else ⟨insertCell (a, v) others⟩

/-- `MemRead(space, a, n)`: the `n` bytes at offsets `a .. a+n-1`, ascending (R11). -/
def Memory.readBytes (m : Memory) (a : Nat) : Nat → List Byte
  | 0 => []
  | n + 1 => m.read a :: m.readBytes (a + 1) n

/-- `MemWrite(space, a, n, bytes)`: the bytes at offsets `a ..`, ascending (R11). -/
def Memory.writeBytes (m : Memory) (a : Nat) : List Byte → Memory
  | [] => m
  | v :: rest => (m.write a v).writeBytes (a + 1) rest

/-- Offsets strictly rising, every one of them at least `lo`, and no cell equal to what an unlisted offset reads as. -/
def canonicalFrom (lo : Nat) : List Host.Cell → Bool
  | [] => true
  | c :: rest => decide (lo ≤ c.1) && decide (c.2 ≠ unlistedByte) && canonicalFrom (c.1 + 1) rest

/-- The buffer's list is in its one canonical form, so that equal contents are equal data. -/
def Memory.wf (m : Memory) : Bool := canonicalFrom 0 m.cells

/-! ### Big-endian numbers (R65, R66) -/

/-- `be32(v)`: most significant byte first (R66). -/
def be32 (v : BitVec 32) : List Byte :=
  [v.extractLsb' 24 8, v.extractLsb' 16 8, v.extractLsb' 8 8, v.extractLsb' 0 8]

/-- `unbe32(b0,b1,b2,b3)` (R66). -/
def unbe32 (b0 b1 b2 b3 : Byte) : BitVec 32 :=
  BitVec.ofNat 32 (b0.toNat * 2 ^ 24 + b1.toNat * 2 ^ 16 + b2.toNat * 2 ^ 8 + b3.toNat)

/-! ### The pixel cache (spec/41_pixel_hash_cache.md) -/

/-- `hash(r,g,b,a) = (r*3 + g*5 + b*7 + a*11) mod 64`, over the integers (R141). -/
def pixelHash (p : Pixel) : Fin 64 :=
  Fin.ofNat 64 (p.r.toNat * 3 + p.g.toNat * 5 + p.b.toNat * 7 + p.a.toNat * 11)

/-- Lookup of a slot: the whole pixel, no change to the cache (R144). -/
def Cache.lookup (cache : Cache) (s : Fin 64) : Pixel := cache.get s

/-- Write of a pixel, always into its own slot, overwriting the occupant (R145). -/
def Cache.store (cache : Cache) (p : Pixel) : Cache := cache.set (pixelHash p).val p

/-! ### Errors (spec/60_exceptions.md) -/

/-- The kind each cause belongs to (R261, R262). -/
def Cause.kind : Cause → ErrKind
  | .none => .none
  | .dimensionRange => .validation
  | .badChannelsArg => .validation
  | .badColorspaceArg => .validation
  | .lengthMismatch => .validation
  | .badOutputChannels => .validation
  | .headerTooShort => .format
  | .badMagic => .format
  | .badChannels => .format
  | .badColorspace => .format
  | .truncatedStream => .format

/-- The 8-bit code of a cause (R262). -/
def Cause.code : Cause → BitVec 8
  | .none => 0x00
  | .dimensionRange => 0x01
  | .badChannelsArg => 0x02
  | .badColorspaceArg => 0x03
  | .lengthMismatch => 0x04
  | .badOutputChannels => 0x05
  | .headerTooShort => 0x11
  | .badMagic => 0x12
  | .badChannels => 0x13
  | .badColorspace => 0x14
  | .truncatedStream => 0x15

/-- The 2-bit code of a kind (R33). -/
def ErrKind.code : ErrKind → BitVec 2
  | .none => 0
  | .validation => 1
  | .format => 2

/-- The 2-bit code of a status (R23). -/
def Status.code : Status → BitVec 2
  | .idle => 0
  | .busy => 1
  | .done => 2
  | .fault => 3

/-- Taking an error, `raise E(cause)`: `ERR <- {kind of E, code of cause}`, `STATUS <- FAULT` (R270). The caller applies it
to the engine as it stood before the step, so that none of the step's other writes takes effect. There is no handler,
no vector and no saved program counter. -/
def raised (c : Cause) : Ctl := ⟨.fault, ⟨c.kind, c⟩⟩

/-- The one way back from an error: a new START clears `ERR` (R272) before any check is made (R33). -/
def Ctl.clearErr (c : Ctl) : Ctl := { c with err := Err.clear }

/-! ### Capacity (R80) -/

/-- The transaction is within what the instance accepts (R7, D8). -/
abbrev withinCapacity (pixels : Nat) : Prop := pixels ≤ Config.maxPixels

/-! ### Encoder primitives -/

/-- `Emit(b0, ...)`: append at `OUTLEN`, then advance it by the number of bytes (R183). -/
def Enc.emit (e : Enc) (bytes : List Byte) : Enc :=
  { e with
    out := e.out.writeBytes e.outlen.toNat bytes
    outlen := e.outlen + BitVec.ofNat 67 bytes.length }

/-! ### Decoder primitives -/

/-- `Fetch()`: the byte at `RP`, and the decoder with `RP` one further; none where `RP >= INLEN`, where the caller raises
FormatError(TRUNCATED_STREAM) (R224, R11). -/
def Dec.fetch (d : Dec) : Option (Byte × Dec) :=
  if d.inlen ≤ d.rp then none else some (d.input.read d.rp.toNat, { d with rp := d.rp + 1 })

/-- `n` fetches in a row, and the decoder after them; none as soon as one of them fails. -/
def Dec.fetchMany (d : Dec) : Nat → Option (List Byte × Dec)
  | 0 => some ([], d)
  | n + 1 =>
    match d.fetch with
    | none => none
    | some (v, d') =>
      match d'.fetchMany n with
      | none => none
      | some (vs, d'') => some (v :: vs, d'')

/-- The bytes of the chunk at `RP`: its first byte, then the payload that byte asks for (R225 to R231), each by `Fetch`.
`RP` itself is advanced by the opcode's meaning; the two agree (DEDUCED, log 15). -/
def Dec.fetchChunk (d : Dec) : Option (List Byte) :=
  match d.fetch with
  | none => none
  | some (b, d') =>
    match d'.fetchMany (payloadLength b) with
    | none => none
    | some (payload, _) => some (b :: payload)

/-- `RP` past a chunk of `len` bytes: one per fetch (R31). -/
def Dec.advance (d : Dec) (len : Nat) : Dec := { d with rp := d.rp + BitVec.ofNat 64 len }

/-- The new current pixel of INDEX: no cache write (R147, R229). -/
def Dec.setCur (d : Dec) (p : Pixel) : Dec := { d with cur := p }

/-- The new current pixel of DIFF, LUMA, RGB and RGBA, written back into its own hash slot (R233). -/
def Dec.resolve (d : Dec) (p : Pixel) : Dec := { d with cur := p, cache := d.cache.store p }

/-- The bytes `output_pixel` writes: alpha dropped, tracked, or forced to 255 (R234). -/
def outputBytes (oc headerChannels : BitVec 8) (p : Pixel) : List Byte :=
  if oc = 3 then [p.r, p.g, p.b]
  else if headerChannels = 4 then [p.r, p.g, p.b, p.a]
  else [p.r, p.g, p.b, 255]

/-- `output_pixel(DEC.CUR)`: write at `WC`, then advance `WC` by the output channel count (R234). -/
def Dec.outputPixel (d : Dec) : Dec :=
  { d with
    out := d.out.writeBytes d.wc.toNat (outputBytes d.oc d.hdr.channels d.cur)
    wc := d.wc + d.oc.setWidth 66 }

/-- The end of every `dec_pixel` step: output the current pixel and count it (R225). -/
def Dec.producePixel (d : Dec) : Dec := { d.outputPixel with k := d.k + 1 }

end Sys2Proof.Machine
end

