-- ==== Sys2Proof/Machine/Operands.lean ====
section
/-! DEFINITION. Operand arithmetic: wrapping, signed deltas, and the pixel an opcode's deltas lead to (spec/00_scope.md
R10, spec/30_encoding.md R100). -/

namespace Sys2Proof.Machine

/-- `wrap8(v) = v mod 256` (R10). -/
def wrap8 (v : Int) : Byte := BitVec.ofInt 8 v

/-- `s8(v)`: the signed 8-bit reading, in -128..127 (R10). -/
def s8 (v : Int) : Int := if (wrap8 v).toNat ≤ 127 then (wrap8 v).toNat else ((wrap8 v).toNat : Int) - 256

/-- `sdelta(cur, prev) = s8(cur - prev)` (R10). -/
def sdelta (cur prev : Byte) : Int := s8 ((cur.toNat : Int) - (prev.toNat : Int))

/-- A component plus a delta, modulo 256 (R230, R231). -/
def addDelta (c : Byte) (d : Int) : Byte := wrap8 ((c.toNat : Int) + d)

/-- The signed deltas of red, green and blue (R186). -/
structure Deltas where
  dr : Int
  dg : Int
  db : Int
  deriving DecidableEq, Repr

/-- The deltas of a pixel against the previous one (R186). -/
def deltas (px prev : Pixel) : Deltas := ⟨sdelta px.r prev.r, sdelta px.g prev.g, sdelta px.b prev.b⟩

/-- The pixel DIFF leads to: deltas added to red, green and blue, alpha unchanged (R230). -/
def diffPixel (p : Pixel) (dr dg db : Int) : Pixel := ⟨addDelta p.r dr, addDelta p.g dg, addDelta p.b db, p.a⟩

/-- The pixel LUMA leads to: red's and blue's deltas are relative to green's, alpha unchanged (R231). -/
def lumaPixel (p : Pixel) (dg drDg dbDg : Int) : Pixel :=
  ⟨addDelta p.r (dg + drDg), addDelta p.g dg, addDelta p.b (dg + dbDg), p.a⟩

/-- The pixel RGB leads to: alpha unchanged (R227). -/
def rgbPixel (p : Pixel) (r g b : Byte) : Pixel := ⟨r, g, b, p.a⟩

/-- The replays a RUN of `n` pixels in all still owes after the step that fetches it (R167, R169). -/
def replaysOwed (n : Nat) : BitVec 6 := BitVec.ofNat 6 (n - 1)

/-- The pixel at index `i` of a buffer of `c` bytes per pixel; alpha 255 implied where `c` is 3 (R61, R185). -/
def pixelAt (m : Memory) (c : BitVec 8) (i : Nat) : Pixel :=
  let base := i * c.toNat
  ⟨m.read base, m.read (base + 1), m.read (base + 2), if c = 4 then m.read (base + 3) else 255⟩

end Sys2Proof.Machine
end

