-- ==== Sys2Proof/Machine/Flags.lean ====
section
/-! DEFINITION. The core has no flags (spec/10_state.md R42). What takes their place are the predicates of the
encoder's mux, functions of the current pixel and the engine's registers that nothing stores (R187). -/

namespace Sys2Proof.Machine

/-- `match_prev`: all four components equal the previous pixel's (R187). -/
abbrev Enc.matchPrev (e : Enc) (px : Pixel) : Prop := px = e.prev

/-- `last_pixel`: `ENC.POS = ENC.N - 1` (R187). -/
abbrev Enc.lastPixel (e : Enc) : Prop := e.pos = e.n - 1

/-- `run_full`: the incremented run counter is 62 (R187, R162). -/
abbrev Enc.runFull (e : Enc) : Prop := e.run + 1 = BitVec.ofNat 6 Config.runMax

/-- `run_pending`: `ENC.RUN > 0` (R187). -/
abbrev Enc.runPending (e : Enc) : Prop := 0 < e.run

/-- `cache_hit`: the pixel's slot holds the pixel (R187). -/
abbrev Enc.cacheHit (e : Enc) (px : Pixel) : Prop := e.cache.lookup (pixelHash px) = px

/-- `alpha_same` (R187). -/
abbrev alphaSame (px prev : Pixel) : Prop := px.a = prev.a

/-- A delta DIFF can carry (R94, R187). -/
abbrev inDiffRange (d : Int) : Prop := -2 ≤ d ∧ d ≤ 1

/-- The three deltas are in DIFF's range (R187; the mux tests alpha before). -/
abbrev Deltas.fitDiff (d : Deltas) : Prop := inDiffRange d.dr ∧ inDiffRange d.dg ∧ inDiffRange d.db

/-- A red or blue delta relative to green's that LUMA can carry (R95, R187). -/
abbrev inLumaRange (d : Int) : Prop := -8 ≤ d ∧ d ≤ 7

/-- The deltas are in LUMA's range; the differences are integer subtractions (R187, R191). -/
abbrev Deltas.fitLuma (d : Deltas) : Prop :=
  (-32 ≤ d.dg ∧ d.dg ≤ 31) ∧ inLumaRange (d.dr - d.dg) ∧ inLumaRange (d.db - d.dg)

/-- `diff_ok` (R187). -/
abbrev diffOk (px prev : Pixel) : Prop := alphaSame px prev ∧ (deltas px prev).fitDiff

/-- `luma_ok` (R187). -/
abbrev lumaOk (px prev : Pixel) : Prop := alphaSame px prev ∧ (deltas px prev).fitLuma

/-- `DEC.RUN > 0`: a run is being replayed (R168). -/
abbrev Dec.replaying (d : Dec) : Prop := 0 < d.run

end Sys2Proof.Machine
end

