-- ==== Sys2Proof/Machine/Delta.lean ====
section
/-! DEFINITION. DIFF and LUMA on both sides: X-DIFF, X-LUMA (spec/44_decoder_opcode_parse_and_dispatch.md R230, R231)
and E-DIFF, E-LUMA (spec/43_encoder_opcode_mux_and_emit.md R190, R191). -/

namespace Sys2Proof.Machine

/-- X-DIFF: add the three deltas modulo 256, keep alpha, write the cache, output one pixel (R230, R233). -/
def execDiff (dr dg db : Int) (s : State) : Host.Outcome State Fault Refusal :=
  .next { s with dec := ((s.dec.advance 1).resolve (diffPixel s.dec.cur dr dg db)).producePixel }

/-- X-LUMA: green's delta, and red's and blue's relative to it, modulo 256; keep alpha, write the cache, output one pixel
(R231, R233). -/
def execLuma (dg drDg dbDg : Int) (s : State) : Host.Outcome State Fault Refusal :=
  .next { s with dec := ((s.dec.advance 2).resolve (lumaPixel s.dec.cur dg drDg dbDg)).producePixel }

/-- E-DIFF: one byte with the three biased deltas (R190). -/
def emitDiff (d : Deltas) (e : Enc) : Enc := e.emit (encode (.diff d.dr d.dg d.db))

/-- E-LUMA: two bytes with green's biased delta and the biased differences (R191). -/
def emitLuma (d : Deltas) (e : Enc) : Enc := e.emit (encode (.luma d.dg (d.dr - d.dg) (d.db - d.dg)))

end Sys2Proof.Machine
end

