-- ==== Sys2Proof/Machine/Index.lean ====
section
/-! DEFINITION. INDEX on both sides: X-INDEX (spec/44_decoder_opcode_parse_and_dispatch.md R229) and E-INDEX
(spec/43_encoder_opcode_mux_and_emit.md R188). -/

namespace Sys2Proof.Machine

/-- X-INDEX: the current pixel becomes the slot's pixel, alpha included, with no check and no cache write; one pixel is
output (R229, R148). -/
def execIndex (slot : Fin 64) (s : State) : Host.Outcome State Fault Refusal :=
  .next { s with dec := ((s.dec.advance 1).setCur (s.dec.cache.lookup slot)).producePixel }

/-- E-INDEX: one byte, the pixel's slot; the cache is not written (R188). -/
def emitIndex (px : Pixel) (e : Enc) : Enc := e.emit (encode (.index (pixelHash px)))

end Sys2Proof.Machine
end

