-- ==== Sys2Proof/Machine/Literal.lean ====
section
/-! DEFINITION. RGB and RGBA on both sides: X-RGB, X-RGBA (spec/44_decoder_opcode_parse_and_dispatch.md R227, R228) and
E-RGB, E-RGBA (spec/43_encoder_opcode_mux_and_emit.md R192, R193). -/

namespace Sys2Proof.Machine

/-- X-RGB: literal red, green and blue, alpha unchanged; write the cache, output one pixel (R227, R233). -/
def execRgb (r g b : Byte) (s : State) : Host.Outcome State Fault Refusal :=
  .next { s with dec := ((s.dec.advance 4).resolve (rgbPixel s.dec.cur r g b)).producePixel }

/-- X-RGBA: all four components literal; write the cache, output one pixel. The header's channel count does not matter
(R228, R233, R242). -/
def execRgba (r g b a : Byte) (s : State) : Host.Outcome State Fault Refusal :=
  .next { s with dec := ((s.dec.advance 5).resolve ⟨r, g, b, a⟩).producePixel }

/-- E-RGB: the tag and three literal bytes (R192). -/
def emitRgb (px : Pixel) (e : Enc) : Enc := e.emit (encode (.rgb px.r px.g px.b))

/-- E-RGBA: the tag and four literal bytes (R193). -/
def emitRgba (px : Pixel) (e : Enc) : Enc := e.emit (encode (.rgba px.r px.g px.b px.a))

end Sys2Proof.Machine
end

