-- ==== Sys2Proof/Machine/Run.lean ====
section
/-! DEFINITION. The run-length accumulator and RUN on both sides (spec/42_run_length_accumulator.md). -/

namespace Sys2Proof.Machine

/-- X-RUN: the run counter takes the replays still owed; the current pixel and the cache are untouched; the first of the
run's pixels is output in this step (R167, R232). -/
def execRun (n : Nat) (s : State) : Host.Outcome State Fault Refusal :=
  .next { s with dec := { s.dec.advance 1 with run := replaysOwed n }.producePixel }

/-- The replay step: one fewer owed, no fetch, the current pixel output again (R168). -/
def Dec.replay (d : Dec) : Dec := { d with run := d.run - 1 }.producePixel

/-- E-RUN, `flush_run`: one byte for the pending run, and the counter back to 0 (R165). -/
def flushRun (e : Enc) : Enc := { e.emit (encode (.run e.run.toNat)) with run := 0 }

/-- A pixel equal to the previous one: count it, and flush when the run is full or the pixel is the last (R161 to R163). -/
def Enc.accumulate (e : Enc) : Enc :=
  let counted := { e with run := e.run + 1 }
  if e.runFull ∨ e.lastPixel then flushRun counted else counted

/-- Flush a pending run before a differing pixel is encoded (R164). -/
def Enc.flushPending (e : Enc) : Enc := if e.runPending then flushRun e else e

end Sys2Proof.Machine
end

