-- ==== Sys2Proof/Machine/HeaderCodec.lean ====
section
/-! DEFINITION. The header codec, two combinational functions both engines share (spec/40_header_codec.md). -/

namespace Sys2Proof.Machine

/-- `writeHeader(w, h, c, s)`: the 14 bytes of the header (R120, R121). It checks nothing (R128). -/
def writeHeader (w h : BitVec 32) (c s : BitVec 8) : List Byte :=
  Config.magic ++ be32 w ++ be32 h ++ [c, s]

/-- The checks and fields of 14 header bytes, in the order of R125: magic, channels, colorspace. Width and height are
not checked (R126). -/
def parseHeader (hb : List Byte) : Except Cause Header :=
  let byte (i : Nat) : Byte := hb.getD i 0
  if hb.take 4 ≠ Config.magic then .error .badMagic
  else if byte 12 ≠ 3 ∧ byte 12 ≠ 4 then .error .badChannels
  else if 1 < byte 13 then .error .badColorspace
  else .ok ⟨unbe32 (byte 4) (byte 5) (byte 6) (byte 7), unbe32 (byte 8) (byte 9) (byte 10) (byte 11), byte 12, byte 13⟩

/-- `readHeader(IN, INLEN)`: a buffer shorter than 14 bytes is refused without reading it; offsets 0..13 only (R125,
R127). -/
def readHeader (input : Memory) (inlen : BitVec 64) : Except Cause Header :=
  if inlen.toNat < Config.headerLen then .error .headerTooShort
  else parseHeader (input.readBytes 0 Config.headerLen)

end Sys2Proof.Machine
end

