-- ==== Sys2Proof/Machine/Decoder.lean ====
section
/-! DEFINITION. The decoder's steps that execute no opcode: `dec_start`, `dec_finish`, and taking TRUNCATED_STREAM
(spec/44_decoder_opcode_parse_and_dispatch.md). `dec_pixel` is Machine/Engines.lean, over exec. -/

namespace Sys2Proof.Machine

/-- The checks of `dec_start`, in their order: the header's, then the output channel argument's (R220 to R222, R268). -/
def Dec.checkRequest (d : Dec) : Except Cause Header :=
  match readHeader d.input d.req.inlen with
  | .error c => .error c
  | .ok hdr =>
    if d.req.outChannels ≠ 0 ∧ d.req.outChannels ≠ 3 ∧ d.req.outChannels ≠ 4 then .error .badOutputChannels
    else .ok hdr

/-- `dec_start` after its checks: latch the header, the input length and the output channel count, initialise the working
registers whatever they held, go BUSY (R220, R223). -/
def Dec.accept (d : Dec) (hdr : Header) : Dec :=
  { d with
    ctl := { d.ctl.clearErr with status := .busy }
    inlen := d.req.inlen
    hdr := hdr
    oc := if d.req.outChannels = 0 then hdr.channels else d.req.outChannels
    n := BitVec.ofNat 64 (hdr.width.toNat * hdr.height.toNat)
    cur := Config.prevInit
    run := 0
    cache := Cache.init
    k := 0
    wc := 0
    rp := BitVec.ofNat 64 Config.headerLen }

/-- `dec_start`: a failing check leaves everything but `ERR` and `STATUS` as it was (R220, R271). A good header of more than
MAX_PIXELS pixels is refused (R80). -/
def decStart (s : State) : Host.Outcome State Fault Refusal :=
  match s.dec.checkRequest with
  | .error c => .next { s with dec := { s.dec with ctl := raised c } }
  | .ok hdr =>
    if withinCapacity (hdr.width.toNat * hdr.height.toNat) then .next { s with dec := s.dec.accept hdr }
    else .refused .beyondMaxPixels

/-- `dec_finish`: to DONE, nothing else (R235). -/
def Dec.finish (d : Dec) : Dec := { d with ctl := { d.ctl with status := .done } }

/-- A `dec_pixel` step that needs a byte the input does not have: abandoned, FormatError(TRUNCATED_STREAM) (R224, R237,
R270). -/
def Dec.truncated (d : Dec) : Dec := { d with ctl := raised .truncatedStream }

/-- `dec_pixel` is enabled (R225). -/
abbrev Dec.pixelEnabled (d : Dec) : Prop := d.ctl.status = .busy ∧ d.k < d.n

/-- `dec_finish` is enabled (R235). -/
abbrev Dec.finishEnabled (d : Dec) : Prop := d.ctl.status = .busy ∧ d.k = d.n

end Sys2Proof.Machine
end

