-- ==== Sys2Proof/Machine/Encoder.lean ====
section
/-! DEFINITION. The encoder's steps: `enc_start`, `enc_pixel` (the mux) and `enc_finish`
(spec/43_encoder_opcode_mux_and_emit.md). -/

namespace Sys2Proof.Machine

/-- The request checks, in their order: the first that fails (R181, R263, R268). -/
def EncReq.failure (r : EncReq) : Option Cause :=
  if 2 ^ 32 ≤ r.width.toNat ∨ 2 ^ 32 ≤ r.height.toNat then some .dimensionRange
  else if r.channels ≠ 3 ∧ r.channels ≠ 4 then some .badChannelsArg
  else if 1 < r.colorspace then some .badColorspaceArg
  else if r.pixlen.toNat ≠ r.width.toNat * r.height.toNat * r.channels.toNat then some .lengthMismatch
  else none

/-- `enc_start` after its checks: latch the configuration, initialise the working registers whatever they held, emit the
header, go BUSY (R180, R182, R184). -/
def Enc.accept (e : Enc) : Enc :=
  let cfg : EncCfg := ⟨e.req.width.setWidth 32, e.req.height.setWidth 32, e.req.channels, e.req.colorspace⟩
  let fresh : Enc :=
    { e with
      ctl := { e.ctl.clearErr with status := .busy }
      cfg := cfg
      n := BitVec.ofNat 64 (cfg.w.toNat * cfg.h.toNat)
      prev := Config.prevInit
      run := 0
      cache := Cache.init
      pos := 0
      outlen := 0 }
  fresh.emit (writeHeader cfg.w cfg.h cfg.c cfg.s)

/-- `enc_start`: a failing check leaves everything but `ERR` and `STATUS` as it was (R180, R271). A good request of more
than MAX_PIXELS pixels is refused (R80). -/
def encStart (s : State) : Host.Outcome State Fault Refusal :=
  match s.enc.req.failure with
  | some c => .next { s with enc := { s.enc with ctl := raised c } }
  | none =>
    if withinCapacity (s.enc.req.width.toNat * s.enc.req.height.toNat) then .next { s with enc := s.enc.accept }
    else .refused .beyondMaxPixels

/-- The pixel at `POS` (R185). -/
def Enc.fetchPixel (e : Enc) : Pixel := pixelAt e.pix e.cfg.c e.pos.toNat

/-- A pixel that misses the cache: stored into its slot first, then encoded by the first of DIFF, LUMA and RGB that
applies where alpha is unchanged, by RGBA where it changed (R186, R189 to R193). -/
def Enc.encodeMiss (e : Enc) (px : Pixel) : Enc :=
  let stored := { e with cache := e.cache.store px }
  let d := deltas px e.prev
  if alphaSame px e.prev then
    if d.fitDiff then emitDiff d stored
    else if d.fitLuma then emitLuma d stored
    else emitRgb px stored
  else emitRgba px stored

/-- A pixel that differs from the previous one: flush a pending run, then INDEX on a hit or the miss path; the previous
pixel is updated on every path, INDEX included (R186, R194). -/
def Enc.encodeChange (e : Enc) (px : Pixel) : Enc :=
  let flushed := e.flushPending
  let emitted := if flushed.cacheHit px then emitIndex px flushed else flushed.encodeMiss px
  { emitted with prev := px }

/-- `enc_pixel`, the mux (R186). -/
def Enc.encodePixel (e : Enc) : Enc :=
  let px := e.fetchPixel
  let done := if e.matchPrev px then e.accumulate else e.encodeChange px
  { done with pos := e.pos + 1 }

/-- `enc_finish`, E-END: append the end marker and go to DONE (R195). -/
def Enc.finish (e : Enc) : Enc :=
  let marked := e.emit Config.endMarker
  { marked with ctl := { e.ctl with status := .done } }

/-- `enc_pixel` is enabled (R186). -/
abbrev Enc.pixelEnabled (e : Enc) : Prop := e.ctl.status = .busy ∧ e.pos < e.n

/-- `enc_finish` is enabled (R195). -/
abbrev Enc.finishEnabled (e : Enc) : Prop := e.ctl.status = .busy ∧ e.pos = e.n

/-- The encoder's next step; where none is enabled nothing changes. -/
def Enc.step (e : Enc) : Enc :=
  if e.pixelEnabled then e.encodePixel else if e.finishEnabled then e.finish else e

end Sys2Proof.Machine
end

