-- ==== Sys2Proof/Machine/HostPort.lean ====
section
/-! DEFINITION. HOST's side: what each of its commands does, and what it can read when (spec/10_state.md R20, R45;
spec/70_reset_and_hazards.md R300 to R308). -/

namespace Sys2Proof.Machine

/-- The engine that owns the buffer during a transaction is BUSY (R60, R75). -/
def State.isOwnerBusy (s : State) : Buffer → Bool
  | .encPix => decide (s.enc.ctl.status = .busy)
  | .encOut => decide (s.enc.ctl.status = .busy)
  | .decIn => decide (s.dec.ctl.status = .busy)
  | .decOut => decide (s.dec.ctl.status = .busy)

/-- One byte of a buffer replaced. -/
def State.storeByte (s : State) (buf : Buffer) (offset : Nat) (v : Byte) : State :=
  match buf with
  | .encPix => { s with enc := { s.enc with pix := s.enc.pix.write offset v } }
  | .encOut => { s with enc := { s.enc with out := s.enc.out.write offset v } }
  | .decIn => { s with dec := { s.dec with input := s.dec.input.write offset v } }
  | .decOut => { s with dec := { s.dec with out := s.dec.out.write offset v } }

/-- What a command of HOST does. Request fields may be written at any time (R25, R305). A write to a buffer of a BUSY
engine is a race (U4, log 9). START is ignored while BUSY (R307). Hardware reset puts both engines into their reset
state (R300, R313; log 11). -/
def State.command (s : State) : HostCmd → Host.Outcome State Fault Refusal
  | .encWidth v => .next { s with enc := { s.enc with req := { s.enc.req with width := v } } }
  | .encHeight v => .next { s with enc := { s.enc with req := { s.enc.req with height := v } } }
  | .encChannels v => .next { s with enc := { s.enc with req := { s.enc.req with channels := v } } }
  | .encColorspace v => .next { s with enc := { s.enc with req := { s.enc.req with colorspace := v } } }
  | .encPixlen v => .next { s with enc := { s.enc with req := { s.enc.req with pixlen := v } } }
  | .decInlen v => .next { s with dec := { s.dec with req := { s.dec.req with inlen := v } } }
  | .decOutChannels v => .next { s with dec := { s.dec with req := { s.dec.req with outChannels := v } } }
  | .store buf offset v => if s.isOwnerBusy buf then .fault .hostWriteRace else .next (s.storeByte buf offset v)
  | .startEnc => if s.enc.ctl.status = .busy then .next s else encStart s
  | .startDec => if s.dec.ctl.status = .busy then .next s else decStart s
  | .hardReset => .next { s with enc := Enc.reset, dec := Dec.reset }

/-- HOST's next move: its oldest pending command, if it has one. -/
def hostStep (s : State) : Host.Outcome State Fault Refusal :=
  match s.cmds with
  | [] => .next s
  | c :: rest => State.command { s with cmds := rest } c

/-- What HOST can read of the encoder: STATUS always, ERR in FAULT, the stream in DONE, nothing else (R45). -/
structure EncView where
  status : Status
  err : Option Err
  out : Option (List Byte)
  deriving DecidableEq, Repr

/-- What HOST can read of the decoder: STATUS always, ERR in FAULT, the header, the output channel count, the read pointer
and the pixels in DONE, nothing else (R45). -/
structure DecView where
  status : Status
  err : Option Err
  hdr : Option Header
  oc : Option (BitVec 8)
  rp : Option (BitVec 64)
  out : Option (List Byte)
  deriving DecidableEq, Repr

/-- A value HOST may read while the status is `st`. -/
def visibleIn {α : Type} (st : Status) (c : Ctl) (v : α) : Option α := if c.status = st then some v else none

/-- HOST's view of the encoder (R45); the length of the stream is `OUTLEN` (R30). -/
def Enc.view (e : Enc) : EncView where
  status := e.ctl.status
  err := visibleIn .fault e.ctl e.ctl.err
  out := visibleIn .done e.ctl (e.out.readBytes 0 e.outlen.toNat)

/-- HOST's view of the decoder (R45). -/
def Dec.view (d : Dec) : DecView where
  status := d.ctl.status
  err := visibleIn .fault d.ctl d.ctl.err
  hdr := visibleIn .done d.ctl d.hdr
  oc := visibleIn .done d.ctl d.oc
  rp := visibleIn .done d.ctl d.rp
  out := visibleIn .done d.ctl (d.out.readBytes 0 (d.n.toNat * d.oc.toNat))

end Sys2Proof.Machine
end

