-- ==== Sys2Proof/Machine/Engines.lean ====
section
/-! DEFINITION. `dec_pixel` over exec, each agent's next step, and whose step is next (spec/10_state.md R22,
spec/44_decoder_opcode_parse_and_dispatch.md R225). -/

namespace Sys2Proof.Machine

/-- The part of `dec_pixel` that fetches: the chunk at `RP` is decoded and executed; a missing byte abandons the step
(R225, R226, R237). -/
def decFetchPixel (s : State) : Host.Outcome State Fault Refusal :=
  match s.dec.fetchChunk with
  | none => .next { s with dec := s.dec.truncated }
  | some bytes =>
    match decode bytes with
    | .error .truncatedChunk => .next { s with dec := s.dec.truncated }
    | .ok (i, _) => exec i s

/-- `dec_pixel`: replay the run if one is active, else fetch and execute one opcode (R225). -/
def decPixel (s : State) : Host.Outcome State Fault Refusal :=
  if s.dec.replaying then .next { s with dec := s.dec.replay } else decFetchPixel s

/-- The decoder's next step; where none is enabled nothing changes (R225, R235). -/
def decStep (s : State) : Host.Outcome State Fault Refusal :=
  if s.dec.pixelEnabled then decPixel s
  else if s.dec.finishEnabled then .next { s with dec := s.dec.finish }
  else .next s

/-- The encoder's next step (R186, R195). -/
def encStep (s : State) : Host.Outcome State Fault Refusal := .next { s with enc := s.enc.step }

/-- The step of one agent. -/
def agentStep : Agent → State → Host.Outcome State Fault Refusal
  | .host, s => hostStep s
  | .enc, s => encStep s
  | .dec, s => decStep s

/-- Who moves next: the head of the schedule. DESIGN CHOICE (log 7): where the schedule is empty, the busy decoder, else
the busy encoder, else HOST. -/
def State.mover (s : State) : Agent :=
  match s.sched with
  | a :: _ => a
  | [] =>
    if s.dec.pixelEnabled ∨ s.dec.finishEnabled then .dec
    else if s.enc.pixelEnabled ∨ s.enc.finishEnabled then .enc
    else .host

/-- The state the mover acts on: its turn is taken off the schedule. -/
def State.takeTurn (s : State) : State := { s with sched := s.sched.tail }

/-- One step of the machine: the mover's. -/
def machineStep (s : State) : Host.Outcome State Fault Refusal := agentStep s.mover s.takeTurn

/-! ### Placing an opcode where the next step fetches it -/

/-- The bytes of the 14-byte header HOST loads in front of a chunk: one pixel, 4 channels, colorspace 0. -/
def loadedHeader : Header := ⟨1, 1, 4, 0⟩

/-- The decoder as a load by HOST and `dec_start` leave it (R304, R220): the header and the chunk's bytes in `DEC.IN`,
`INLEN` as long as they are, no output channel argument, BUSY at offset 14. -/
def Dec.loaded (d : Dec) (bytes : List Byte) : Dec :=
  let stream := writeHeader loadedHeader.width loadedHeader.height loadedHeader.channels loadedHeader.colorspace ++ bytes
  Dec.accept { d with input := d.input.writeBytes 0 stream, req := ⟨BitVec.ofNat 64 stream.length, 0⟩ } loadedHeader

/-- The running decoder with the chunk's bytes at `RP`, long enough an input, and no run to replay. -/
def Dec.withChunk (d : Dec) (bytes : List Byte) : Dec :=
  let stop := d.rp + BitVec.ofNat 64 bytes.length
  { d with
    input := d.input.writeBytes d.rp.toNat bytes
    inlen := if stop ≤ d.inlen then d.inlen else stop
    run := 0 }

/-- The decoder that fetches the chunk next: in place where a transaction runs that still owes a pixel and `RP` has room
above it, else loaded (log 13). -/
def Dec.withFetchBytes (d : Dec) (bytes : List Byte) : Dec :=
  if d.pixelEnabled ∧ d.rp.toNat + bytes.length < 2 ^ 64 then d.withChunk bytes else d.loaded bytes

end Sys2Proof.Machine
end

