-- ==== Sys2Proof/Machine/Step.lean ====
section
/-! DEFINITION. One step of the machine, and the state whose next step runs a given opcode-table word. Both are defined in
Machine/Engines.lean. -/

namespace Sys2Proof.Machine

/-- One step: the step of the agent whose turn it is (R22). -/
def step (s : State) : Host.Outcome State Fault Refusal := machineStep s

/-- `s` with the opcode-table word stored where the next step fetches its opcode, and the turn left to the decoder
(log 13). -/
def State.withFetchWord (s : State) (nbits w : Nat) : State :=
  { s with dec := s.dec.withFetchBytes (tableBytes nbits w), sched := [] }

end Sys2Proof.Machine
end

