-- ==== Sys2Proof/Machine/BigStep.lean ====
section
/-! DEFINITION. The big-step forms of the two engines, functions from an image to a stream and back
(spec/43_encoder_opcode_mux_and_emit.md R201, spec/44_decoder_opcode_parse_and_dispatch.md R240). The step forms are the
machine; that the two agree is stated, not assumed. -/

namespace Sys2Proof.Machine

/-- The rolling state both engines keep: previous (current) pixel, run counter, cache. -/
structure Rolling where
  prev : Pixel
  run : Nat
  cache : Cache
  deriving DecidableEq, Repr

/-- The rolling state at the start of every transaction: PREV_INIT, 0, CACHE_INIT. -/
def Rolling.init : Rolling := ⟨Config.prevInit, 0, Cache.init⟩

/-! ### Encoder (R201) -/

/-- The RUN chunk of a pending run of `n` pixels; no chunk for none. -/
def runChunk (n : Nat) : List Instr := if n = 0 then [] else [.run n]

/-- The chunk of a pixel that differs from the previous one (R186, steps 4 and 5). -/
def changeChunk (r : Rolling) (px : Pixel) : Instr :=
  let d := deltas px r.prev
  if r.cache.lookup (pixelHash px) = px then .index (pixelHash px)
  else if diffOk px r.prev then .diff d.dr d.dg d.db
  else if lumaOk px r.prev then .luma d.dg (d.dr - d.dg) (d.db - d.dg)
  else if alphaSame px r.prev then .rgb px.r px.g px.b
  else .rgba px.r px.g px.b px.a

/-- The cache after a pixel that differs from the previous one: written on a miss only (R146). -/
def changeCache (cache : Cache) (px : Pixel) : Cache :=
  if cache.lookup (pixelHash px) = px then cache else cache.store px

/-- The effect of R186 on one pixel: the chunks it emits, and the rolling state after it. -/
def Rolling.encodeStep (r : Rolling) (px : Pixel) (isLast : Bool) : List Instr × Rolling :=
  if px = r.prev then
    if r.run + 1 = Config.runMax ∨ isLast = true then (runChunk (r.run + 1), { r with run := 0 })
    else ([], { r with run := r.run + 1 })
  else (runChunk r.run ++ [changeChunk r px], ⟨px, 0, changeCache r.cache px⟩)

/-- `scan`: the chunks of the pixels from here to the last (R201). -/
def scan (r : Rolling) : List Pixel → List Instr
  | [] => []
  | px :: rest => (r.encodeStep px rest.isEmpty).1 ++ scan (r.encodeStep px rest.isEmpty).2 rest

/-- The bytes of a sequence of chunks. -/
def chunkBytes (chunks : List Instr) : List Byte := chunks.flatMap encode

/-- `encode(pix, w, h, c, s)` of R201, for a request that passes the checks. -/
def encodeImage (w h : BitVec 32) (c s : BitVec 8) (pixels : List Pixel) : List Byte :=
  writeHeader w h c s ++ chunkBytes (scan Rolling.init pixels) ++ Config.endMarker

/-- The pixels of a buffer of `c` bytes per pixel, from index `i` on (R61, R185). -/
def pixelsFrom (m : Memory) (c : BitVec 8) (i : Nat) : Nat → List Pixel
  | 0 => []
  | n + 1 => pixelAt m c i :: pixelsFrom m c (i + 1) n

/-! ### Decoder (R240) -/

/-- A new current pixel, written back into its slot (R233). -/
def Rolling.become (r : Rolling) (p : Pixel) : Rolling := { r with prev := p, cache := r.cache.store p }

/-- The rolling state after an opcode (R227 to R232); `run` counts the replays still owed. -/
def Rolling.decodeStep (r : Rolling) : Instr → Rolling
  | .index s => { r with prev := r.cache.lookup s }
  | .diff dr dg db => r.become (diffPixel r.prev dr dg db)
  | .luma dg drDg dbDg => r.become (lumaPixel r.prev dg drDg dbDg)
  | .run n => { r with run := n - 1 }
  | .rgb x y z => r.become (rgbPixel r.prev x y z)
  | .rgba x y z a => r.become ⟨x, y, z, a⟩

/-- The pixels a stream yields while `n` are owed: replay, else one opcode, until none is owed (R240). -/
def decodePixels (r : Rolling) (bytes : List Byte) : Nat → Except Cause (List Pixel)
  | 0 => .ok []
  | n + 1 =>
    if 0 < r.run then (decodePixels { r with run := r.run - 1 } bytes n).map (r.prev :: ·)
    else
      match decode bytes with
      | .error .truncatedChunk => .error .truncatedStream
      | .ok (i, rest) => (decodePixels (r.decodeStep i) rest n).map ((r.decodeStep i).prev :: ·)

/-- The output bytes of a sequence of pixels (R234). -/
def pixelBytes (oc headerChannels : BitVec 8) (pixels : List Pixel) : List Byte :=
  pixels.flatMap (outputBytes oc headerChannels)

end Sys2Proof.Machine
end

