-- ==== Sys2Proof/Safety.lean ====
section
/-! DEFINITION. What holds of every state a run can reach, and the situations statements speak of. Each invariant is a
predicate on plain data; that every step keeps it is stated under Certificates/. -/

namespace Sys2Proof.Machine

/-! ### Invariants -/

/-- Every slot holds `(0,0,0,0)` or a pixel whose own slot it is (R149). -/
def Cache.Canonical (cache : Cache) : Prop :=
  ∀ s : Fin 64, cache.lookup s = Config.cacheInit ∨ pixelHash (cache.lookup s) = s

/-- The four buffers are in canonical form. -/
def State.BuffersCanonical (s : State) : Prop :=
  s.enc.pix.wf = true ∧ s.enc.out.wf = true ∧ s.dec.input.wf = true ∧ s.dec.out.wf = true

/-- Both caches are canonical (R149). -/
def State.CachesCanonical (s : State) : Prop := s.enc.cache.Canonical ∧ s.dec.cache.Canonical

/-- `ERR` is set exactly in FAULT, and its kind is its cause's kind (R33, R262, R270, R272). -/
def Ctl.Consistent (c : Ctl) : Prop :=
  c.err.kind = c.err.cause.kind ∧ (c.status = .fault ↔ c.err.cause ≠ .none)

/-- With 3 channels every alpha the encoder keeps is 255, but for slots never written (R199). -/
def Enc.OpaqueAlpha (e : Enc) : Prop :=
  e.prev.a = 255 ∧ ∀ s : Fin 64, e.cache.lookup s = Config.cacheInit ∨ (e.cache.lookup s).a = 255

/-- The latched configuration passed the request checks, and `N` is its pixel count (R25, R26). -/
def Enc.Configured (e : Enc) : Prop :=
  (e.cfg.c = 3 ∨ e.cfg.c = 4) ∧ e.cfg.s.toNat ≤ 1 ∧ e.n.toNat = e.cfg.w.toNat * e.cfg.h.toNat

/-- A running encoder: no more than `N` pixels processed, no run pending after the last (R163), and the output within
`14 + (C+1) * POS` bytes, a pending run's byte included (R198). -/
def Enc.Running (e : Enc) : Prop :=
  e.Configured ∧ e.pos.toNat ≤ e.n.toNat ∧ (e.pos = e.n → e.run = 0) ∧
  14 ≤ e.outlen.toNat ∧
  e.outlen.toNat + (if e.run = 0 then 0 else 1) ≤ 14 + (e.cfg.c.toNat + 1) * e.pos.toNat ∧
  (e.cfg.c = 3 → e.OpaqueAlpha)

/-- A finished encoder: all pixels processed, no run pending (R202), the output between 22 and `22 + (C+1) * N` bytes
(R198). -/
def Enc.Finished (e : Enc) : Prop :=
  e.Configured ∧ e.pos = e.n ∧ e.run = 0 ∧
  22 ≤ e.outlen.toNat ∧ e.outlen.toNat ≤ 22 + (e.cfg.c.toNat + 1) * e.n.toNat

/-- The encoder's invariant: the run counter at most 61 between steps (R28), and what running and finished mean. -/
def Enc.Inv (e : Enc) : Prop :=
  e.ctl.Consistent ∧ e.run.toNat ≤ 61 ∧
  (e.ctl.status = .busy → e.Running) ∧ (e.ctl.status = .done → e.Finished)

/-- The latched header and output channel count passed the checks, and `N` is the header's pixel count (R35 to R37). -/
def Dec.Configured (d : Dec) : Prop :=
  (d.hdr.channels = 3 ∨ d.hdr.channels = 4) ∧ d.hdr.colorspace.toNat ≤ 1 ∧ (d.oc = 3 ∨ d.oc = 4) ∧
  d.n.toNat = d.hdr.width.toNat * d.hdr.height.toNat

/-- A running decoder: the read pointer between the header's end and the input's (R31), no more than `N` pixels produced,
the write cursor at the next pixel's place (R38). -/
def Dec.Running (d : Dec) : Prop :=
  d.Configured ∧ 14 ≤ d.rp.toNat ∧ d.rp.toNat ≤ d.inlen.toNat ∧ d.k.toNat ≤ d.n.toNat ∧
  d.wc.toNat = d.k.toNat * d.oc.toNat

/-- A finished decoder: exactly `N` pixels produced (R235). -/
def Dec.Finished (d : Dec) : Prop :=
  d.Configured ∧ d.k = d.n ∧ d.wc.toNat = d.n.toNat * d.oc.toNat ∧ 14 ≤ d.rp.toNat ∧ d.rp.toNat ≤ d.inlen.toNat

/-- The decoder's invariant: the run counter at most 61 (R40), and what running and finished mean. -/
def Dec.Inv (d : Dec) : Prop :=
  d.ctl.Consistent ∧ d.run.toNat ≤ 61 ∧
  (d.ctl.status = .busy → d.Running) ∧ (d.ctl.status = .done → d.Finished)

/-! ### Situations -/

/-- The encoder is about to process a pixel. -/
def State.EncPixelNext (s : State) : Prop := s.mover = .enc ∧ s.enc.pixelEnabled

/-- The decoder is about to fetch an opcode: its turn, BUSY, a pixel owed, no run to replay (R225). -/
def State.DecFetchNext (s : State) : Prop := s.mover = .dec ∧ s.dec.pixelEnabled ∧ s.dec.run = 0

/-- HOST is about to issue command `c`. -/
def State.HostNext (s : State) (c : HostCmd) : Prop := s.mover = .host ∧ s.cmds.head? = some c

/-- The state a command of HOST acts on: the turn and the command are taken. -/
def State.afterCommand (s : State) : State := { s with sched := s.sched.tail, cmds := s.cmds.tail }

/-- Only the decoder has a move and no schedule interferes: nothing is left to HOST or to the encoder. -/
def State.DecAlone (s : State) : Prop :=
  s.sched = [] ∧ s.cmds = [] ∧ s.enc.ctl.status ≠ .busy

/-- Only the encoder has a move. -/
def State.EncAlone (s : State) : Prop :=
  s.sched = [] ∧ s.cmds = [] ∧ s.dec.ctl.status ≠ .busy

/-- The bytes of `bytes` stand in `m` from offset `a` on. -/
def Memory.Holds (m : Memory) (a : Nat) (bytes : List Byte) : Prop :=
  ∀ j (h : j < bytes.length), m.read (a + j) = bytes[j]

/-- `m'` is `m` but for the `len` bytes from offset `a` on. -/
def Memory.SameOutside (m m' : Memory) (a len : Nat) : Prop :=
  ∀ x, (x < a ∨ a + len ≤ x) → m'.read x = m.read x

/-- `e'` is `e` after appending exactly `bytes` to `ENC.OUT` (R183): they stand at `OUTLEN`, every other byte of the buffer
is as before, and `OUTLEN` is past them. -/
def Enc.Appended (e e' : Enc) (bytes : List Byte) : Prop :=
  e'.out.Holds e.outlen.toNat bytes ∧ e.out.SameOutside e'.out e.outlen.toNat bytes.length ∧
  e'.outlen = e.outlen + BitVec.ofNat 67 bytes.length

/-- The RUN byte a pending run is flushed with, or nothing (R164, R165): `0xC0 | (run - 1)`, written as a sum. -/
def pendingRunBytes (run : BitVec 6) : List Byte :=
  if run.toNat = 0 then [] else [BitVec.ofNat 8 (0xC0 + (run.toNat - 1))]

/-- What no encoder step touches: the request, the configuration and the input buffer, and STATUS and ERR. -/
def Enc.SameSetup (e e' : Enc) : Prop :=
  e'.req = e.req ∧ e'.cfg = e.cfg ∧ e'.n = e.n ∧ e'.pix = e.pix ∧ e'.ctl = e.ctl

/-- What no opcode touches in the decoder: STATUS and ERR, the request, the latched header and counts, the input. -/
def Dec.SameSetup (d d' : Dec) : Prop :=
  d'.ctl = d.ctl ∧ d'.req = d.req ∧ d'.inlen = d.inlen ∧ d'.hdr = d.hdr ∧ d'.oc = d.oc ∧ d'.n = d.n ∧
  d'.input = d.input

/-- `d` is the signed delta of a channel: in -128..127 and congruent to `cur - prev` modulo 256 (R10). -/
def IsDelta (d : Int) (cur prev : Byte) : Prop :=
  -128 ≤ d ∧ d ≤ 127 ∧ ((prev.toNat : Int) + d) % 256 = cur.toNat

/-- The decoder has put out pixel `p` (R234, R225): red, green and blue at `WC`; where `OC` is not 3 a fourth byte, the
tracked alpha where the header says 4 channels (where it says 3 the byte is decision D11's and stated on its own). Every other
byte is as before, `WC` is past the pixel by `OC`, and one more pixel is counted. -/
def Dec.Produced (d d' : Dec) (p : Pixel) : Prop :=
  d'.out.Holds d.wc.toNat [p.r, p.g, p.b] ∧
  (d.oc ≠ 3 → d.hdr.channels = 4 → d'.out.read (d.wc.toNat + 3) = p.a) ∧
  d.out.SameOutside d'.out d.wc.toNat (if d.oc = 3 then 3 else 4) ∧
  d'.wc = d.wc + d.oc.setWidth 66 ∧ d'.k = d.k + 1

/-- Pixel `p` is in its slot, every other slot is as before (R145, R233). -/
def Cache.StoredIn (cache cache' : Cache) (p : Pixel) : Prop :=
  ∀ x : Fin 64, cache'.lookup x = if x = pixelHash p then p else cache.lookup x

/-- The decoder is about to fetch, and a chunk's bytes stand at `RP`, all below `INLEN`. -/
def State.FetchesChunk (s : State) (bytes : List Byte) : Prop :=
  s.DecFetchNext ∧ s.dec.rp.toNat + bytes.length ≤ s.dec.inlen.toNat ∧ s.dec.input.Holds s.dec.rp.toNat bytes

/-- The same, where HOST has not written the input length since START, so that the `INLEN` of `Fetch()` is one number, whether
the latched or the requested one is meant (log 6). -/
def State.FetchesRequested (s : State) (bytes : List Byte) : Prop :=
  s.FetchesChunk bytes ∧ s.dec.req.inlen = s.dec.inlen

/-- The step ends in FormatError(TRUNCATED_STREAM), and nothing else of it takes effect but the turn taken (R237, R270).
What HOST may not read in FAULT (`HDR`, `OC`, `RP`, `DEC.OUT`; R271) is left out. -/
def State.TruncatesTo (s t : State) : Prop :=
  t.dec.ctl.status = .fault ∧ t.dec.ctl.err.kind = .format ∧ t.dec.ctl.err.cause = .truncatedStream ∧
  t.dec.cur = s.dec.cur ∧ t.dec.run = s.dec.run ∧ t.dec.cache = s.dec.cache ∧ t.dec.k = s.dec.k ∧
  t.dec.input = s.dec.input ∧ t.enc = s.enc ∧ t.cmds = s.cmds

/-- What an opcode leaves alone outside the decoder. -/
def State.SameElsewhere (s t : State) : Prop := t.enc = s.enc ∧ t.cmds = s.cmds ∧ t.sched = s.sched

/-- A good request of HOST for the encoder, alone: START is HOST's last command, both engines are at rest, the request passes
the checks and is within MAX_PIXELS. -/
def State.GoodEncodeRequest (s : State) : Prop :=
  s.sched = [] ∧ s.cmds = [.startEnc] ∧ s.enc.ctl.status ≠ .busy ∧ s.dec.ctl.status ≠ .busy ∧
  s.enc.req.width.toNat < 2 ^ 32 ∧ s.enc.req.height.toNat < 2 ^ 32 ∧
  (s.enc.req.channels = 3 ∨ s.enc.req.channels = 4) ∧ s.enc.req.colorspace.toNat ≤ 1 ∧
  s.enc.req.pixlen.toNat = s.enc.req.width.toNat * s.enc.req.height.toNat * s.enc.req.channels.toNat ∧
  s.enc.req.width.toNat * s.enc.req.height.toNat ≤ Config.maxPixels

/-- A good request of HOST for the decoder, alone: START is HOST's last command, both engines are at rest, the header passes
the checks and is within MAX_PIXELS, the output channel argument is absent, 3 or 4. -/
def State.GoodDecodeRequest (s : State) (hdr : Header) : Prop :=
  s.sched = [] ∧ s.cmds = [.startDec] ∧ s.enc.ctl.status ≠ .busy ∧ s.dec.ctl.status ≠ .busy ∧
  readHeader s.dec.input s.dec.req.inlen = .ok hdr ∧
  (s.dec.req.outChannels = 0 ∨ s.dec.req.outChannels = 3 ∨ s.dec.req.outChannels = 4) ∧
  hdr.width.toNat * hdr.height.toNat ≤ Config.maxPixels

end Sys2Proof.Machine
end

