-- ==== Sys2Proof/Certificates/Slice0/Obligations.lean ====
section
/-! DEFINITION. The statements for the provers. Words used in them (`Produced`, `Appended`, `Holds`, ...) are in Safety.lean. -/

open Sys2Proof Sys2Proof.Machine

/-! ### Reset -/

/-- Power-on reset gives every register the spec gives a value to that value (10_state.md, the power-on column of its
reset table; decision D13). The registers it leaves unspecified are not spoken of. -/
def Obligations.ResetGivesTheSpecValues : Prop :=
  State.reset.enc.ctl.status.code = 0 ∧ State.reset.dec.ctl.status.code = 0 ∧
  State.reset.enc.ctl.err.kind.code = 0 ∧ State.reset.enc.ctl.err.cause.code = 0 ∧
  State.reset.dec.ctl.err.kind.code = 0 ∧ State.reset.dec.ctl.err.cause.code = 0 ∧
  State.reset.enc.prev = ⟨0, 0, 0, 255⟩ ∧ State.reset.dec.cur = ⟨0, 0, 0, 255⟩ ∧
  State.reset.enc.run = 0 ∧ State.reset.dec.run = 0 ∧
  (∀ x : Fin 64, State.reset.enc.cache.lookup x = ⟨0, 0, 0, 0⟩ ∧ State.reset.dec.cache.lookup x = ⟨0, 0, 0, 0⟩) ∧
  State.reset.enc.pos = 0 ∧ State.reset.enc.outlen = 0 ∧
  State.reset.dec.k = 0 ∧ State.reset.dec.wc = 0 ∧ State.reset.dec.rp = 0

/-- Hardware reset, HOST's only way to stop a BUSY engine (70_reset_and_hazards.md sections 1 and 5, decisions D13, D18), works in every
state, and leaves both engines with the values of power-on. -/
def Obligations.HardResetStopsBothEngines : Prop :=
  ∀ s : State, s.HostNext .hardReset →
    ∃ t, step s = .next t ∧ t.enc.ctl.status = .idle ∧ t.dec.ctl.status = .idle ∧
      t.enc.ctl.err = ⟨.none, .none⟩ ∧ t.dec.ctl.err = ⟨.none, .none⟩ ∧
      t.enc.prev = ⟨0, 0, 0, 255⟩ ∧ t.dec.cur = ⟨0, 0, 0, 255⟩ ∧ t.enc.run = 0 ∧ t.dec.run = 0 ∧
      (∀ x : Fin 64, t.enc.cache.lookup x = ⟨0, 0, 0, 0⟩ ∧ t.dec.cache.lookup x = ⟨0, 0, 0, 0⟩) ∧
      t.enc.pos = 0 ∧ t.enc.outlen = 0 ∧ t.dec.k = 0 ∧ t.dec.wc = 0 ∧ t.dec.rp = 0 ∧ t.cmds = s.cmds.tail

/-! ### Encodings -/

/-- Decoding the encoding of a well-formed instruction gives it back, with whatever follows left over. -/
def Obligations.DecodeOfEncodeIsTheInstruction : Prop :=
  ∀ (i : Instr) (rest : List Byte), i.WellFormed → decode (encode i ++ rest) = .ok (i, rest)

/-- What the decoder reads is well formed, and encoding it gives back exactly the bytes read: no word is read as another's. -/
def Obligations.EncodeOfDecodeIsTheBytes : Prop :=
  ∀ (bytes rest : List Byte) (i : Instr), decode bytes = .ok (i, rest) → i.WellFormed ∧ encode i ++ rest = bytes

/-- R102, the complete map of the first byte: each of the 256 values selects one opcode, with these fields. -/
def Obligations.FirstByteSelectsTheOpcode : Prop :=
  ∀ (b b1 b2 b3 b4 : Byte) (rest : List Byte),
    (b.toNat ≤ 0x3F → ∃ x : Fin 64, x.val = b.toNat ∧
      decode (b :: b1 :: b2 :: b3 :: b4 :: rest) = .ok (.index x, b1 :: b2 :: b3 :: b4 :: rest)) ∧
    (0x40 ≤ b.toNat → b.toNat ≤ 0x7F → decode (b :: b1 :: b2 :: b3 :: b4 :: rest) =
      .ok (.diff ((b.toNat / 16 % 4 : Nat) - 2) ((b.toNat / 4 % 4 : Nat) - 2) ((b.toNat % 4 : Nat) - 2),
        b1 :: b2 :: b3 :: b4 :: rest)) ∧
    (0x80 ≤ b.toNat → b.toNat ≤ 0xBF → decode (b :: b1 :: b2 :: b3 :: b4 :: rest) =
      .ok (.luma ((b.toNat % 64 : Nat) - 32) ((b1.toNat / 16 : Nat) - 8) ((b1.toNat % 16 : Nat) - 8),
        b2 :: b3 :: b4 :: rest)) ∧
    (0xC0 ≤ b.toNat → b.toNat ≤ 0xFD → decode (b :: b1 :: b2 :: b3 :: b4 :: rest) =
      .ok (.run (b.toNat % 64 + 1), b1 :: b2 :: b3 :: b4 :: rest)) ∧
    (b.toNat = 0xFE → decode (b :: b1 :: b2 :: b3 :: b4 :: rest) = .ok (.rgb b1 b2 b3, b4 :: rest)) ∧
    (b.toNat = 0xFF → decode (b :: b1 :: b2 :: b3 :: b4 :: rest) = .ok (.rgba b1 b2 b3 b4, rest))

/-- R106: the length of a chunk is a function of its first byte alone, 1, 2, 4 or 5, and payload bytes are never
examined: decoding succeeds exactly when that many bytes are there, and takes exactly that many. -/
def Obligations.ChunkLengthIsFixedByTheFirstByte : Prop :=
  ∀ (b : Byte) (payload : List Byte), ∃ len : Nat,
    len = (if b.toNat ≤ 0x7F then 1 else if b.toNat ≤ 0xBF then 2 else if b.toNat ≤ 0xFD then 1
           else if b.toNat = 0xFE then 4 else 5) ∧
    (len ≤ payload.length + 1 → ∃ i, decode (b :: payload) = .ok (i, payload.drop (len - 1))) ∧
    (payload.length + 1 < len → decode (b :: payload) = .error .truncatedChunk)

/-- A few words written out from the formats of 30_encoding.md section 2 decode to the opcodes they stand for. -/
def Obligations.SampleWordsDecode : Prop :=
  decode [0x31] = .ok (.index 49, []) ∧ decode [0x79] = .ok (.diff 1 0 (-1), []) ∧
  decode [0xAC, 0x67] = .ok (.luma 12 (-2) (-1), []) ∧ decode [0xC1] = .ok (.run 2, []) ∧
  decode [0xFD] = .ok (.run 62, []) ∧ decode [0xFE, 0xC8, 0x64, 0x32] = .ok (.rgb 200 100 50, []) ∧
  decode [0xFF, 0xC8, 0x64, 0x32, 0x80] = .ok (.rgba 200 100 50 128, [])

/-! ### One opcode (44_decoder_opcode_parse_and_dispatch.md section 3)

Each says that exec answers a next state for every state, what the opcode's rule gives that state, the pixel put out, and
that nothing else changes; then, for the rules about fetching, that a step on those bytes is that exec, and that a missing
payload byte is TRUNCATED_STREAM. -/

/-- R229, X-INDEX: the current pixel becomes the slot's, alpha included; no cache write. -/
def Obligations.IndexTakesTheSlotsPixel : Prop :=
  (∀ (slot : Fin 64) (s : State), ∃ t, exec (.index slot) s = .next t ∧
    t.dec.cur = s.dec.cache.lookup slot ∧ t.dec.cache = s.dec.cache ∧ t.dec.run = s.dec.run ∧
    t.dec.rp = s.dec.rp + 1 ∧ s.dec.Produced t.dec t.dec.cur ∧ s.dec.SameSetup t.dec ∧ s.SameElsewhere t) ∧
  (∀ (s : State) (b : Byte) (slot : Fin 64), s.FetchesRequested [b] → b.toNat / 64 = 0 → slot.val = b.toNat % 64 →
    step s = exec (.index slot) s.takeTurn)

/-- R230, X-DIFF: red, green and blue plus their deltas, modulo 256; alpha unchanged; the cache written. -/
def Obligations.DiffAddsItsDeltas : Prop :=
  (∀ (dr dg db : Int) (s : State), ∃ t, exec (.diff dr dg db) s = .next t ∧
    (t.dec.cur.r.toNat : Int) = (s.dec.cur.r.toNat + dr) % 256 ∧
    (t.dec.cur.g.toNat : Int) = (s.dec.cur.g.toNat + dg) % 256 ∧
    (t.dec.cur.b.toNat : Int) = (s.dec.cur.b.toNat + db) % 256 ∧ t.dec.cur.a = s.dec.cur.a ∧
    s.dec.cache.StoredIn t.dec.cache t.dec.cur ∧ t.dec.run = s.dec.run ∧
    t.dec.rp = s.dec.rp + 1 ∧ s.dec.Produced t.dec t.dec.cur ∧ s.dec.SameSetup t.dec ∧ s.SameElsewhere t) ∧
  (∀ (s : State) (b : Byte), s.FetchesRequested [b] → b.toNat / 64 = 1 →
    step s = exec (.diff ((b.toNat / 16 % 4 : Nat) - 2) ((b.toNat / 4 % 4 : Nat) - 2) ((b.toNat % 4 : Nat) - 2)) s.takeTurn)

/-- R231, X-LUMA: green plus its delta, red and blue plus green's delta and their own, modulo 256; alpha unchanged; the
cache written. -/
def Obligations.LumaAddsGreenRelativeDeltas : Prop :=
  (∀ (dg drDg dbDg : Int) (s : State), ∃ t, exec (.luma dg drDg dbDg) s = .next t ∧
    (t.dec.cur.r.toNat : Int) = (s.dec.cur.r.toNat + dg + drDg) % 256 ∧
    (t.dec.cur.g.toNat : Int) = (s.dec.cur.g.toNat + dg) % 256 ∧
    (t.dec.cur.b.toNat : Int) = (s.dec.cur.b.toNat + dg + dbDg) % 256 ∧ t.dec.cur.a = s.dec.cur.a ∧
    s.dec.cache.StoredIn t.dec.cache t.dec.cur ∧ t.dec.run = s.dec.run ∧
    t.dec.rp = s.dec.rp + 2 ∧ s.dec.Produced t.dec t.dec.cur ∧ s.dec.SameSetup t.dec ∧ s.SameElsewhere t) ∧
  (∀ (s : State) (b b2 : Byte), s.FetchesRequested [b, b2] → b.toNat / 64 = 2 →
    step s = exec (.luma ((b.toNat % 64 : Nat) - 32) ((b2.toNat / 16 : Nat) - 8) ((b2.toNat % 16 : Nat) - 8)) s.takeTurn) ∧
  (∀ (s : State) (b : Byte), s.FetchesRequested [b] → b.toNat / 64 = 2 → s.dec.inlen.toNat < s.dec.rp.toNat + 2 →
    ∃ t, step s = .next t ∧ s.TruncatesTo t)

/-- R167, X-RUN: the run counter takes the byte's low six bits, one less than the run's pixels; the current pixel and the
cache are untouched; the first pixel of the run is put out. -/
def Obligations.RunLoadsTheReplaysOwed : Prop :=
  (∀ (n : Nat) (s : State), 1 ≤ n → n ≤ 62 → ∃ t, exec (.run n) s = .next t ∧
    t.dec.run.toNat = n - 1 ∧ t.dec.cur = s.dec.cur ∧ t.dec.cache = s.dec.cache ∧
    t.dec.rp = s.dec.rp + 1 ∧ s.dec.Produced t.dec t.dec.cur ∧ s.dec.SameSetup t.dec ∧ s.SameElsewhere t) ∧
  (∀ (s : State) (b : Byte), s.FetchesRequested [b] → b.toNat / 64 = 3 → b.toNat ≠ 0xFE → b.toNat ≠ 0xFF →
    ∃ t, step s = .next t ∧ step s = exec (.run (b.toNat % 64 + 1)) s.takeTurn ∧ t.dec.run.toNat = b.toNat % 64)

/-- R227, X-RGB: red, green and blue literal, alpha unchanged; the cache written. -/
def Obligations.RgbKeepsAlpha : Prop :=
  (∀ (r g b : Byte) (s : State), ∃ t, exec (.rgb r g b) s = .next t ∧
    t.dec.cur = ⟨r, g, b, s.dec.cur.a⟩ ∧ s.dec.cache.StoredIn t.dec.cache t.dec.cur ∧ t.dec.run = s.dec.run ∧
    t.dec.rp = s.dec.rp + 4 ∧ s.dec.Produced t.dec t.dec.cur ∧ s.dec.SameSetup t.dec ∧ s.SameElsewhere t) ∧
  (∀ (s : State) (r g b : Byte), s.FetchesRequested [0xFE, r, g, b] → step s = exec (.rgb r g b) s.takeTurn) ∧
  (∀ s : State, s.FetchesRequested [0xFE] → s.dec.inlen.toNat < s.dec.rp.toNat + 4 →
    ∃ t, step s = .next t ∧ s.TruncatesTo t)

/-- R228, X-RGBA: all four components literal; the cache written. -/
def Obligations.RgbaSetsAllComponents : Prop :=
  (∀ (r g b a : Byte) (s : State), ∃ t, exec (.rgba r g b a) s = .next t ∧
    t.dec.cur = ⟨r, g, b, a⟩ ∧ s.dec.cache.StoredIn t.dec.cache t.dec.cur ∧ t.dec.run = s.dec.run ∧
    t.dec.rp = s.dec.rp + 5 ∧ s.dec.Produced t.dec t.dec.cur ∧ s.dec.SameSetup t.dec ∧ s.SameElsewhere t) ∧
  (∀ (s : State) (r g b a : Byte), s.FetchesRequested [0xFF, r, g, b, a] → step s = exec (.rgba r g b a) s.takeTurn) ∧
  (∀ s : State, s.FetchesRequested [0xFF] → s.dec.inlen.toNat < s.dec.rp.toNat + 5 →
    ∃ t, step s = .next t ∧ s.TruncatesTo t)

/-- R147, R233: DIFF, LUMA, RGB and RGBA, and only those, write the new current pixel into its own slot; INDEX and RUN leave the
cache as it is, and so does a step that replays a run. -/
def Obligations.OnlyResolvingOpcodesWriteTheCache : Prop :=
  (∀ (i : Instr) (s : State), ∃ t, exec i s = .next t ∧
    match i with
    | .index _ => t.dec.cache = s.dec.cache
    | .run _ => t.dec.cache = s.dec.cache
    | .diff _ _ _ => s.dec.cache.StoredIn t.dec.cache t.dec.cur
    | .luma _ _ _ => s.dec.cache.StoredIn t.dec.cache t.dec.cur
    | .rgb _ _ _ => s.dec.cache.StoredIn t.dec.cache t.dec.cur
    | .rgba _ _ _ _ => s.dec.cache.StoredIn t.dec.cache t.dec.cur) ∧
  (∀ s : State, s.mover = .dec → s.dec.pixelEnabled → 0 < s.dec.run → ∃ t, step s = .next t ∧ t.dec.cache = s.dec.cache)

/-- With 4 output channels and a header of 3, the fourth byte is 255 whatever the tracked alpha is, which the current pixel keeps
(44_decoder_opcode_parse_and_dispatch.md section 4, decision D11). -/
def Obligations.ForcedAlphaByte : Prop :=
  ∀ (i : Instr) (s : State), s.dec.oc = 4 → s.dec.hdr.channels = 3 →
    ∃ t, exec i s = .next t ∧ t.dec.out.read (s.dec.wc.toNat + 3) = 255 ∧
      ∀ r g b a, i = .rgba r g b a → t.dec.cur.a = a

/-! ### The decoder's steps -/

/-- A step runs the decoded instruction: where the bytes at `RP`, all below `INLEN`, are the encoding of a well-formed
instruction, the step is exec of it, on the state with the turn taken. (exec itself moves `RP` past the chunk. `INLEN` is the
length latched at START, log 6; whose turn it is is the model's, log 7.) -/
def Obligations.StepRunsTheDecodedInstruction : Prop :=
  ∀ (i : Instr) (s : State), i.WellFormed → s.FetchesChunk (encode i) → step s = exec i s.takeTurn

/-- A step that owes a pixel and replays no run fails with TRUNCATED_STREAM exactly when the chunk needs a byte at or
beyond `INLEN`; otherwise STATUS and ERR stay. `INLEN` is the length latched at START (log 6;
44_decoder_opcode_parse_and_dispatch.md section 5, decision D10). -/
def Obligations.TruncationExactlyWhenBytesAreMissing : Prop :=
  ∀ s : State, s.DecFetchNext → ∃ t, step s = .next t ∧
    (if s.dec.inlen.toNat ≤ s.dec.rp.toNat ∨
        s.dec.inlen.toNat < s.dec.rp.toNat + 1 + payloadLength (s.dec.input.read s.dec.rp.toNat)
     then s.TruncatesTo t else t.dec.ctl = s.dec.ctl)

/-- R168: with a run active the step replays: one fewer owed, `RP`, the current pixel and the cache unchanged, the current
pixel put out; no byte is needed, so it succeeds even where the input is exhausted. -/
def Obligations.ReplayNeedsNoInput : Prop :=
  ∀ s : State, s.mover = .dec → s.dec.pixelEnabled → 0 < s.dec.run →
    ∃ t, step s = .next t ∧ t.dec.run = s.dec.run - 1 ∧ t.dec.rp = s.dec.rp ∧ t.dec.cur = s.dec.cur ∧
      t.dec.cache = s.dec.cache ∧ s.dec.Produced t.dec s.dec.cur ∧ s.dec.SameSetup t.dec ∧
      t.enc = s.enc ∧ t.cmds = s.cmds

/-- A RUN byte with field `n` stands for `n + 1` pixels (42_run_length_accumulator.md section 3; output_pixel with decision D11;
the input length the byte stands below is the one latched at START, log 6): with that many still owed to the image, `n + 1` steps put out
that many copies of the current pixel, each in its place, consume one byte, and leave no replay owed. -/
def Obligations.RunByteYieldsFieldPlusOnePixels : Prop :=
  ∀ (s : State) (n : Nat), s.DecAlone → n ≤ 61 → s.FetchesChunk [BitVec.ofNat 8 (0xC0 + n)] →
    s.dec.Inv → s.dec.k.toNat + (n + 1) ≤ s.dec.n.toNat →
    ∃ t, Sys2Proof.core.run (n + 1) s = .next t ∧ t.dec.k.toNat = s.dec.k.toNat + (n + 1) ∧ t.dec.run = 0 ∧
      t.dec.cur = s.dec.cur ∧ t.dec.rp = s.dec.rp + 1 ∧ t.dec.ctl = s.dec.ctl ∧
      ∀ j, j ≤ n → t.dec.out.Holds (s.dec.wc.toNat + j * s.dec.oc.toNat)
        (outputBytes s.dec.oc s.dec.hdr.channels s.dec.cur)

/-- R235, dec_finish: STATUS becomes DONE, nothing else changes; the result is the header and the `N * OC` bytes of `DEC.OUT`. -/
def Obligations.DecoderFinishesAtTheLastPixel : Prop :=
  ∀ s : State, s.mover = .dec → s.dec.ctl.status = .busy → s.dec.k = s.dec.n →
    ∃ t, step s = .next t ∧ t = { s.takeTurn with dec := { s.dec with ctl := ⟨.done, s.dec.ctl.err⟩ } } ∧
      t.dec.view.hdr = some s.dec.hdr ∧ t.dec.view.out = some (s.dec.out.readBytes 0 (s.dec.n.toNat * s.dec.oc.toNat))

/-- A START of the decoder that passes the checks, within MAX_PIXELS, whatever the registers held: the initial
values of the transaction, the latched header and input length (log 6), the effective output channel count (44_decoder_opcode_parse_and_dispatch.md
section 1, decisions D1, D8, D24; HOST's commands: log 8). -/
def Obligations.DecoderStartInitialises : Prop :=
  ∀ (s : State) (hdr : Header), s.HostNext .startDec → s.dec.ctl.status ≠ .busy →
    readHeader s.dec.input s.dec.req.inlen = .ok hdr →
    (s.dec.req.outChannels = 0 ∨ s.dec.req.outChannels = 3 ∨ s.dec.req.outChannels = 4) →
    hdr.width.toNat * hdr.height.toNat ≤ Config.maxPixels →
    ∃ t, step s = .next t ∧ t.dec.ctl.status = .busy ∧ t.dec.ctl.err = ⟨.none, .none⟩ ∧ t.dec.hdr = hdr ∧
      t.dec.oc = (if s.dec.req.outChannels = 0 then hdr.channels else s.dec.req.outChannels) ∧
      t.dec.n.toNat = hdr.width.toNat * hdr.height.toNat ∧ t.dec.inlen = s.dec.req.inlen ∧
      t.dec.cur = ⟨0, 0, 0, 255⟩ ∧ t.dec.run = 0 ∧ (∀ x : Fin 64, t.dec.cache.lookup x = ⟨0, 0, 0, 0⟩) ∧
      t.dec.k = 0 ∧ t.dec.wc = 0 ∧ t.dec.rp = 14 ∧
      t.dec.input = s.dec.input ∧ t.dec.out = s.dec.out ∧ t.dec.req = s.dec.req ∧ t.enc = s.enc ∧ t.cmds = s.cmds.tail

/-- A START of the decoder that fails a check: FAULT with the cause of the first that fails, header checks before the
output channel argument, and nothing else of the decoder changes (60_exceptions.md sections 1 to 3, decision D4). -/
def Obligations.DecoderStartRejects : Prop :=
  ∀ s : State, s.HostNext .startDec → s.dec.ctl.status ≠ .busy →
    (∀ c, readHeader s.dec.input s.dec.req.inlen = .error c →
      step s = .next { s.afterCommand with dec := { s.dec with ctl := ⟨.fault, ⟨.format, c⟩⟩ } }) ∧
    (∀ hdr, readHeader s.dec.input s.dec.req.inlen = .ok hdr →
      s.dec.req.outChannels ≠ 0 → s.dec.req.outChannels ≠ 3 → s.dec.req.outChannels ≠ 4 →
      step s = .next { s.afterCommand with dec := { s.dec with ctl := ⟨.fault, ⟨.validation, .badOutputChannels⟩⟩ } })

/-! ### The header codec -/

/-- readHeader: too short; wrong magic; channels; colorspace; else the fields, width and height big-endian (40_header_codec.md
section 2; the order of the checks is decision D4, the magic's byte values are log 2). -/
def Obligations.ReadHeaderChecksAndFields : Prop :=
  ∀ (m : Memory) (inlen : BitVec 64),
    (inlen.toNat < 14 → readHeader m inlen = .error .headerTooShort) ∧
    (14 ≤ inlen.toNat → ¬ m.Holds 0 [0x71, 0x6F, 0x69, 0x66] → readHeader m inlen = .error .badMagic) ∧
    (14 ≤ inlen.toNat → m.Holds 0 [0x71, 0x6F, 0x69, 0x66] → m.read 12 ≠ 3 → m.read 12 ≠ 4 →
      readHeader m inlen = .error .badChannels) ∧
    (14 ≤ inlen.toNat → m.Holds 0 [0x71, 0x6F, 0x69, 0x66] → (m.read 12 = 3 ∨ m.read 12 = 4) →
      1 < (m.read 13).toNat → readHeader m inlen = .error .badColorspace) ∧
    (14 ≤ inlen.toNat → m.Holds 0 [0x71, 0x6F, 0x69, 0x66] → (m.read 12 = 3 ∨ m.read 12 = 4) →
      (m.read 13).toNat ≤ 1 → ∃ hdr, readHeader m inlen = .ok hdr ∧
        hdr.width.toNat = (m.read 4).toNat * 2 ^ 24 + (m.read 5).toNat * 2 ^ 16 + (m.read 6).toNat * 2 ^ 8 + (m.read 7).toNat ∧
        hdr.height.toNat = (m.read 8).toNat * 2 ^ 24 + (m.read 9).toNat * 2 ^ 16 + (m.read 10).toNat * 2 ^ 8 + (m.read 11).toNat ∧
        hdr.channels = m.read 12 ∧ hdr.colorspace = m.read 13)

/-- The header codec round-trips both ways: reading what writeHeader wrote gives the fields back, and writing the fields
readHeader accepted gives the 14 bytes back (40_header_codec.md section 3). -/
def Obligations.HeaderRoundTrip : Prop :=
  (∀ (m : Memory) (inlen : BitVec 64) (w h : BitVec 32) (c s : BitVec 8), 14 ≤ inlen.toNat → (c = 3 ∨ c = 4) → s.toNat ≤ 1 →
    m.Holds 0 (writeHeader w h c s) → readHeader m inlen = .ok ⟨w, h, c, s⟩) ∧
  (∀ (m : Memory) (inlen : BitVec 64) (hdr : Header), readHeader m inlen = .ok hdr →
    m.Holds 0 (writeHeader hdr.width hdr.height hdr.channels hdr.colorspace))

/-! ### The encoder's steps -/

/-- The four request checks, in the order of decision D4 (43_encoder_opcode_mux_and_emit.md section 1, 60_exceptions.md
sections 1 to 3, decisions D6, D12; HOST's commands: log 8); a failing one is a ValidationError with its cause, and nothing of the
encoder but ERR and STATUS changes: no byte is written. -/
def Obligations.EncoderStartRejects : Prop :=
  ∀ (s : State), s.HostNext .startEnc → s.enc.ctl.status ≠ .busy →
    let rejected (c : Cause) : Prop :=
      step s = .next { s.afterCommand with enc := { s.enc with ctl := ⟨.fault, ⟨.validation, c⟩⟩ } }
    let inRange := s.enc.req.width.toNat < 2 ^ 32 ∧ s.enc.req.height.toNat < 2 ^ 32
    let channelsOk := s.enc.req.channels = 3 ∨ s.enc.req.channels = 4
    (¬ inRange → rejected .dimensionRange) ∧
    (inRange → ¬ channelsOk → rejected .badChannelsArg) ∧
    (inRange → channelsOk → 1 < s.enc.req.colorspace.toNat → rejected .badColorspaceArg) ∧
    (inRange → channelsOk → s.enc.req.colorspace.toNat ≤ 1 →
      s.enc.req.pixlen.toNat ≠ s.enc.req.width.toNat * s.enc.req.height.toNat * s.enc.req.channels.toNat →
      rejected .lengthMismatch)

/-- A START of the encoder that passes the checks, within MAX_PIXELS, whatever the registers held: the initial
values of the transaction, the latched configuration, and the 14 header bytes as the whole output so far (43_encoder_opcode_mux_and_emit.md section 1,
decisions D1, D8, D14; HOST's commands: log 8). -/
def Obligations.EncoderStartInitialises : Prop :=
  ∀ s : State, s.HostNext .startEnc → s.enc.ctl.status ≠ .busy →
    s.enc.req.width.toNat < 2 ^ 32 → s.enc.req.height.toNat < 2 ^ 32 →
    (s.enc.req.channels = 3 ∨ s.enc.req.channels = 4) → s.enc.req.colorspace.toNat ≤ 1 →
    s.enc.req.pixlen.toNat = s.enc.req.width.toNat * s.enc.req.height.toNat * s.enc.req.channels.toNat →
    s.enc.req.width.toNat * s.enc.req.height.toNat ≤ Config.maxPixels →
    ∃ t, step s = .next t ∧ t.enc.ctl.status = .busy ∧ t.enc.ctl.err = ⟨.none, .none⟩ ∧
      t.enc.cfg.w.toNat = s.enc.req.width.toNat ∧ t.enc.cfg.h.toNat = s.enc.req.height.toNat ∧
      t.enc.cfg.c = s.enc.req.channels ∧ t.enc.cfg.s = s.enc.req.colorspace ∧
      t.enc.n.toNat = s.enc.req.width.toNat * s.enc.req.height.toNat ∧
      t.enc.prev = ⟨0, 0, 0, 255⟩ ∧ t.enc.run = 0 ∧ (∀ x : Fin 64, t.enc.cache.lookup x = ⟨0, 0, 0, 0⟩) ∧
      t.enc.pos = 0 ∧ t.enc.outlen = 14 ∧
      t.enc.out.Holds 0 (writeHeader t.enc.cfg.w t.enc.cfg.h t.enc.cfg.c t.enc.cfg.s) ∧
      s.enc.out.SameOutside t.enc.out 0 14 ∧
      t.enc.pix = s.enc.pix ∧ t.enc.req = s.enc.req ∧ t.dec = s.dec ∧ t.cmds = s.cmds.tail

/-- R120: the 14 bytes of the header, one by one: MAGIC (the constant, whatever its four bytes are), width and height most
significant byte first, channels, colorspace. -/
def Obligations.WriteHeaderBytes : Prop :=
  ∀ (w h : BitVec 32) (c s : BitVec 8),
    (writeHeader w h c s).map BitVec.toNat =
      Config.magic.map BitVec.toNat ++
      [w.toNat / 2 ^ 24, w.toNat / 2 ^ 16 % 256, w.toNat / 2 ^ 8 % 256, w.toNat % 256,
       h.toNat / 2 ^ 24, h.toNat / 2 ^ 16 % 256, h.toNat / 2 ^ 8 % 256, h.toNat % 256, c.toNat, s.toNat]

/-- R161, R162: a pixel equal to the previous one is counted; when the count reaches 62, or the pixel is the last (the
spec's flush at the last pixel), one RUN byte is emitted and the count starts again; else nothing is emitted. The cache and
the previous pixel are untouched. -/
def Obligations.RunPixelIsCountedOrFlushed : Prop :=
  ∀ s : State, s.EncPixelNext → s.enc.Inv →
    pixelAt s.enc.pix s.enc.cfg.c s.enc.pos.toNat = s.enc.prev →
    ∃ t, step s = .next t ∧
      (if s.enc.run.toNat + 1 = 62 ∨ s.enc.pos.toNat + 1 = s.enc.n.toNat
       then s.enc.Appended t.enc [BitVec.ofNat 8 (0xC0 + s.enc.run.toNat)] ∧ t.enc.run = 0
       else t.enc.out = s.enc.out ∧ t.enc.outlen = s.enc.outlen ∧ t.enc.run.toNat = s.enc.run.toNat + 1) ∧
      t.enc.prev = s.enc.prev ∧ t.enc.cache = s.enc.cache ∧ t.enc.pos = s.enc.pos + 1 ∧
      s.enc.SameSetup t.enc ∧ t.dec = s.dec ∧ t.cmds = s.cmds

/-- R164: before a pixel that differs from the previous one is encoded, a pending run is put out as one RUN byte and the counter
goes back to 0; what follows it is the pixel's own chunk, never empty: the chunk the big-step form gives the pixel from the
encoder's previous pixel and cache (`changeChunk`, whose choice of opcode the statements about INDEX, DIFF, LUMA, RGB and RGBA
say one by one). -/
def Obligations.PendingRunIsFlushedFirst : Prop :=
  ∀ (s : State) (px : Pixel), s.EncPixelNext → s.enc.Inv → px = pixelAt s.enc.pix s.enc.cfg.c s.enc.pos.toNat →
    px ≠ s.enc.prev →
    ∃ t chunk, step s = .next t ∧ chunk = encode (changeChunk ⟨s.enc.prev, s.enc.run.toNat, s.enc.cache⟩ px) ∧
      1 ≤ chunk.length ∧ s.enc.Appended t.enc (pendingRunBytes s.enc.run ++ chunk) ∧ t.enc.run = 0

/-- R189: a pixel that differs from the previous one and that its slot does not hold is stored into its slot, whichever of DIFF,
LUMA, RGB and RGBA is then chosen. -/
def Obligations.MissStoresThePixel : Prop :=
  ∀ (s : State) (px : Pixel), s.EncPixelNext → s.enc.Inv → px = pixelAt s.enc.pix s.enc.cfg.c s.enc.pos.toNat →
    px ≠ s.enc.prev → s.enc.cache.lookup (pixelHash px) ≠ px →
    ∃ t, step s = .next t ∧ s.enc.cache.StoredIn t.enc.cache px

/-- E-INDEX (43_encoder_opcode_mux_and_emit.md section 3): a pixel that differs from the previous one and that its slot holds: a
pending run's byte, then the slot's number; the cache is not written; the previous pixel is updated all the same (decision D20). -/
def Obligations.CacheHitEmitsIndex : Prop :=
  ∀ (s : State) (px : Pixel), s.EncPixelNext → s.enc.Inv → px = pixelAt s.enc.pix s.enc.cfg.c s.enc.pos.toNat →
    px ≠ s.enc.prev → s.enc.cache.lookup (pixelHash px) = px →
    ∃ t, step s = .next t ∧
      s.enc.Appended t.enc (pendingRunBytes s.enc.run ++ [BitVec.ofNat 8 (pixelHash px).val]) ∧
      t.enc.cache = s.enc.cache ∧ t.enc.prev = px ∧ t.enc.run = 0 ∧ t.enc.pos = s.enc.pos + 1 ∧
      s.enc.SameSetup t.enc ∧ t.dec = s.dec ∧ t.cmds = s.cmds

/-- R190, E-DIFF: on a miss with alpha unchanged and three deltas in [-2, 1], one byte after a pending run's. -/
def Obligations.SmallDeltasEmitDiff : Prop :=
  ∀ (s : State) (px : Pixel) (dr dg db : Int), s.EncPixelNext → s.enc.Inv → px = pixelAt s.enc.pix s.enc.cfg.c s.enc.pos.toNat →
    px ≠ s.enc.prev → s.enc.cache.lookup (pixelHash px) ≠ px → px.a = s.enc.prev.a →
    IsDelta dr px.r s.enc.prev.r → IsDelta dg px.g s.enc.prev.g → IsDelta db px.b s.enc.prev.b →
    (-2 ≤ dr ∧ dr ≤ 1) → (-2 ≤ dg ∧ dg ≤ 1) → (-2 ≤ db ∧ db ≤ 1) →
    ∃ t, step s = .next t ∧
      s.enc.Appended t.enc (pendingRunBytes s.enc.run ++
        [BitVec.ofInt 8 (0x40 + (dr + 2) * 16 + (dg + 2) * 4 + (db + 2))]) ∧
      s.enc.cache.StoredIn t.enc.cache px ∧ t.enc.prev = px ∧ t.enc.run = 0 ∧ t.enc.pos = s.enc.pos + 1 ∧
      s.enc.SameSetup t.enc ∧ t.dec = s.dec ∧ t.cmds = s.cmds

/-- E-LUMA (43_encoder_opcode_mux_and_emit.md section 3; the differences are integer subtractions, decision D23): on a miss with alpha unchanged where DIFF does not apply, green's delta in [-32, 31] and the others
relative to it in [-8, 7]: two bytes after a pending run's. -/
def Obligations.GreenRelativeDeltasEmitLuma : Prop :=
  ∀ (s : State) (px : Pixel) (dr dg db : Int), s.EncPixelNext → s.enc.Inv → px = pixelAt s.enc.pix s.enc.cfg.c s.enc.pos.toNat →
    px ≠ s.enc.prev → s.enc.cache.lookup (pixelHash px) ≠ px → px.a = s.enc.prev.a →
    IsDelta dr px.r s.enc.prev.r → IsDelta dg px.g s.enc.prev.g → IsDelta db px.b s.enc.prev.b →
    ¬ ((-2 ≤ dr ∧ dr ≤ 1) ∧ (-2 ≤ dg ∧ dg ≤ 1) ∧ (-2 ≤ db ∧ db ≤ 1)) →
    (-32 ≤ dg ∧ dg ≤ 31) → (-8 ≤ dr - dg ∧ dr - dg ≤ 7) → (-8 ≤ db - dg ∧ db - dg ≤ 7) →
    ∃ t, step s = .next t ∧
      s.enc.Appended t.enc (pendingRunBytes s.enc.run ++
        [BitVec.ofInt 8 (0x80 + (dg + 32)), BitVec.ofInt 8 ((dr - dg + 8) * 16 + (db - dg + 8))]) ∧
      s.enc.cache.StoredIn t.enc.cache px ∧ t.enc.prev = px ∧ t.enc.run = 0 ∧ t.enc.pos = s.enc.pos + 1 ∧
      s.enc.SameSetup t.enc ∧ t.dec = s.dec ∧ t.cmds = s.cmds

/-- R192, E-RGB: on a miss with alpha unchanged where neither DIFF nor LUMA applies: the tag and three literal bytes
after a pending run's. -/
def Obligations.LargeDeltasEmitRgb : Prop :=
  ∀ (s : State) (px : Pixel) (dr dg db : Int), s.EncPixelNext → s.enc.Inv → px = pixelAt s.enc.pix s.enc.cfg.c s.enc.pos.toNat →
    px ≠ s.enc.prev → s.enc.cache.lookup (pixelHash px) ≠ px → px.a = s.enc.prev.a →
    IsDelta dr px.r s.enc.prev.r → IsDelta dg px.g s.enc.prev.g → IsDelta db px.b s.enc.prev.b →
    ¬ ((-2 ≤ dr ∧ dr ≤ 1) ∧ (-2 ≤ dg ∧ dg ≤ 1) ∧ (-2 ≤ db ∧ db ≤ 1)) →
    ¬ ((-32 ≤ dg ∧ dg ≤ 31) ∧ (-8 ≤ dr - dg ∧ dr - dg ≤ 7) ∧ (-8 ≤ db - dg ∧ db - dg ≤ 7)) →
    ∃ t, step s = .next t ∧
      s.enc.Appended t.enc (pendingRunBytes s.enc.run ++ [0xFE, px.r, px.g, px.b]) ∧
      s.enc.cache.StoredIn t.enc.cache px ∧ t.enc.prev = px ∧ t.enc.run = 0 ∧ t.enc.pos = s.enc.pos + 1 ∧
      s.enc.SameSetup t.enc ∧ t.dec = s.dec ∧ t.cmds = s.cmds

/-- R193, E-RGBA: on a miss with alpha changed: the tag and four literal bytes after a pending run's. -/
def Obligations.AlphaChangeEmitsRgba : Prop :=
  ∀ (s : State) (px : Pixel), s.EncPixelNext → s.enc.Inv → px = pixelAt s.enc.pix s.enc.cfg.c s.enc.pos.toNat →
    px ≠ s.enc.prev → s.enc.cache.lookup (pixelHash px) ≠ px → px.a ≠ s.enc.prev.a →
    ∃ t, step s = .next t ∧
      s.enc.Appended t.enc (pendingRunBytes s.enc.run ++ [0xFF, px.r, px.g, px.b, px.a]) ∧
      s.enc.cache.StoredIn t.enc.cache px ∧ t.enc.prev = px ∧ t.enc.run = 0 ∧ t.enc.pos = s.enc.pos + 1 ∧
      s.enc.SameSetup t.enc ∧ t.dec = s.dec ∧ t.cmds = s.cmds

/-- R185: the pixel at index `i` is the `C` bytes at `i * C`, red first; its alpha is 255 where `C` is 3. -/
def Obligations.PixelFetchLayout : Prop :=
  ∀ (m : Memory) (i : Nat),
    pixelAt m 3 i = ⟨m.read (i * 3), m.read (i * 3 + 1), m.read (i * 3 + 2), 255⟩ ∧
    pixelAt m 4 i = ⟨m.read (i * 4), m.read (i * 4 + 1), m.read (i * 4 + 2), m.read (i * 4 + 3)⟩

/-- R195, enc_finish: after the last pixel, the eight bytes of the end marker, and DONE. -/
def Obligations.EncoderFinishAppendsTheEndMarker : Prop :=
  ∀ s : State, s.mover = .enc → s.enc.ctl.status = .busy → s.enc.pos = s.enc.n →
    ∃ t, step s = .next t ∧ s.enc.Appended t.enc [0, 0, 0, 0, 0, 0, 0, 1] ∧
      t.enc.ctl = ⟨.done, s.enc.ctl.err⟩ ∧ t.enc.req = s.enc.req ∧ t.enc.cfg = s.enc.cfg ∧ t.enc.n = s.enc.n ∧
      t.enc.prev = s.enc.prev ∧ t.enc.run = s.enc.run ∧ t.enc.cache = s.enc.cache ∧ t.enc.pos = s.enc.pos ∧
      t.enc.pix = s.enc.pix ∧ t.dec = s.dec ∧ t.cmds = s.cmds

/-! ### Arithmetic and cache -/

/-- R141: the slot is `(3r + 5g + 7b + 11a) mod 64`, and the spec's worked examples. -/
def Obligations.HashFormula : Prop :=
  (∀ p : Pixel, (pixelHash p).val = (p.r.toNat * 3 + p.g.toNat * 5 + p.b.toNat * 7 + p.a.toNat * 11) % 64) ∧
  pixelHash ⟨0, 0, 0, 255⟩ = 53 ∧ pixelHash ⟨255, 255, 255, 255⟩ = 38 ∧ pixelHash ⟨1, 2, 3, 4⟩ = 14 ∧ pixelHash ⟨10, 20, 30, 255⟩ = 9

/-- The signed delta (00_scope.md section 5) lies in -128..127, is congruent to the difference, and added back gives the pixel's channel. -/
def Obligations.SignedDeltaRestoresTheChannel : Prop :=
  ∀ cur prev : Byte, IsDelta (sdelta cur prev) cur prev ∧ wrap8 ((prev.toNat : Int) + sdelta cur prev) = cur

/-! ### HOST and the whole machine -/

/-- START while BUSY is taken and ignored: the running transaction is unaffected (decision D22; how HOST's command is
taken is the model's, log 8 and log 10). -/
def Obligations.StartWhileBusyIsIgnored : Prop :=
  ∀ s : State, (s.HostNext .startEnc → s.enc.ctl.status = .busy → step s = .next s.afterCommand) ∧
    (s.HostNext .startDec → s.dec.ctl.status = .busy → step s = .next s.afterCommand)

/-- The step stops only as the model says: a fault is HOST writing a BUSY engine's buffer (log 9), a refusal is a START of
more than MAX_PIXELS pixels (log 3). No opcode, no pixel step and no finish step ever stops. -/
def Obligations.StopsOnlyOnHostCommands : Prop :=
  ∀ s : State,
    (∀ r, step s = .fault r → ∃ buf offset v, s.HostNext (.store buf offset v) ∧ s.isOwnerBusy buf = true) ∧
    (∀ r, step s = .refused r → r = .beyondMaxPixels ∧
      ((s.HostNext .startEnc ∧ Config.maxPixels < s.enc.req.width.toNat * s.enc.req.height.toNat) ∨
       (s.HostNext .startDec ∧ ∃ hdr, readHeader s.dec.input s.dec.req.inlen = .ok hdr ∧
         Config.maxPixels < hdr.width.toNat * hdr.height.toNat)))

/-- The engines are independent: a step of one leaves all of the other, and HOST's pending commands, as they were
(10_state.md section 1). -/
def Obligations.EnginesDoNotTouchEachOther : Prop :=
  ∀ s t : State, step s = .next t →
    (s.mover = .enc → t.dec = s.dec ∧ t.cmds = s.cmds) ∧ (s.mover = .dec → t.enc = s.enc ∧ t.cmds = s.cmds)

/-- No step of an engine writes its own input buffer or its request registers: no call mutates what the caller owns, and a
stream cannot modify itself (20_memory.md sections 1 and 5). -/
def Obligations.EngineStepsKeepInputs : Prop :=
  ∀ s t : State, step s = .next t → s.mover ≠ .host →
    t.enc.pix = s.enc.pix ∧ t.dec.input = s.dec.input ∧ t.enc.req = s.enc.req ∧ t.dec.req = s.dec.req

/-- Request registers are read by START alone: two states that differ only in them take engine steps that differ only in them
(10_state.md sections 3 and 5, decision D1; for the input length log 6). -/
def Obligations.RunningTransactionIgnoresRequestWrites : Prop :=
  ∀ (s t : State) (re : EncReq) (rd : DecReq), step s = .next t → s.mover ≠ .host →
    step { s with enc := { s.enc with req := re }, dec := { s.dec with req := rd } } =
      .next { t with enc := { t.enc with req := re }, dec := { t.dec with req := rd } }

/-- The colorspace tag has no effect on pixels, opcodes or decoding: changing the latched tags changes nothing else in any
engine step (00_scope.md section 3). -/
def Obligations.ColorspaceHasNoEffect : Prop :=
  ∀ (s t : State) (ce cd : BitVec 8), step s = .next t → s.mover ≠ .host →
    step { s with enc := { s.enc with cfg := { s.enc.cfg with s := ce } },
                  dec := { s.dec with hdr := { s.dec.hdr with colorspace := cd } } } =
      .next { t with enc := { t.enc with cfg := { t.enc.cfg with s := ce } },
                     dec := { t.dec with hdr := { t.dec.hdr with colorspace := cd } } }

/-- Nothing is carried from one transaction to the next: two encoders, or two decoders, with the same request and input, start
with the same registers, whatever they held (70_reset_and_hazards.md section 1; the latched input length among them, log 6). -/
def Obligations.StartForgetsThePast : Prop :=
  (∀ s s' t t' : State, s.HostNext .startEnc → s'.HostNext .startEnc → step s = .next t → step s' = .next t' →
    s.enc.ctl.status ≠ .busy → s'.enc.ctl.status ≠ .busy → s.enc.req = s'.enc.req → t.enc.ctl.status = .busy →
    t'.enc.ctl = t.enc.ctl ∧ t'.enc.cfg = t.enc.cfg ∧ t'.enc.n = t.enc.n ∧ t'.enc.prev = t.enc.prev ∧
    t'.enc.run = t.enc.run ∧ t'.enc.cache = t.enc.cache ∧ t'.enc.pos = t.enc.pos ∧ t'.enc.outlen = t.enc.outlen ∧
    ∀ a, a < t.enc.outlen.toNat → t'.enc.out.read a = t.enc.out.read a) ∧
  (∀ s s' t t' : State, s.HostNext .startDec → s'.HostNext .startDec → step s = .next t → step s' = .next t' →
    s.dec.ctl.status ≠ .busy → s'.dec.ctl.status ≠ .busy → s.dec.req = s'.dec.req → s.dec.input = s'.dec.input →
    t.dec.ctl.status = .busy → { t'.dec with out := t.dec.out } = t.dec)

/-- STATUS moves only as its table says: IDLE, DONE and FAULT are left only by HOST (START or hardware reset), BUSY is left by the
engine to DONE or FAULT, or by hardware reset to IDLE (10_state.md section 2). -/
def Obligations.StatusMovesAsItsTableSays : Prop :=
  ∀ s t : State, step s = .next t →
    (s.enc.ctl.status ≠ t.enc.ctl.status →
      (s.HostNext .hardReset ∧ t.enc.ctl.status = .idle) ∨
      (s.HostNext .startEnc ∧ s.enc.ctl.status ≠ .busy ∧ (t.enc.ctl.status = .busy ∨ t.enc.ctl.status = .fault)) ∨
      (s.mover = .enc ∧ s.enc.ctl.status = .busy ∧ t.enc.ctl.status = .done)) ∧
    (s.dec.ctl.status ≠ t.dec.ctl.status →
      (s.HostNext .hardReset ∧ t.dec.ctl.status = .idle) ∨
      (s.HostNext .startDec ∧ s.dec.ctl.status ≠ .busy ∧ (t.dec.ctl.status = .busy ∨ t.dec.ctl.status = .fault)) ∨
      (s.mover = .dec ∧ s.dec.ctl.status = .busy ∧ (t.dec.ctl.status = .done ∨ t.dec.ctl.status = .fault)))

/-- HOST sees of an engine its STATUS always, its ERR in FAULT, its results in DONE, and nothing else (10_state.md section 6,
decision D15). Seen: each of these is what the view shows. Hidden: the view shows no ERR outside FAULT and no result outside
DONE, and two engines that agree in what HOST may see at that STATUS have one view, whatever else they hold (the decoder's
invariant makes the number of its output bytes a matter of the header and `OC`). -/
def Obligations.HostSeesOnlyResults : Prop :=
  (∀ e : Enc, e.view.status = e.ctl.status ∧
    (e.ctl.status = .fault → e.view.err = some e.ctl.err) ∧ (e.ctl.status ≠ .fault → e.view.err = none) ∧
    (e.ctl.status = .done → e.view.out = some (e.out.readBytes 0 e.outlen.toNat)) ∧
    (e.ctl.status ≠ .done → e.view.out = none)) ∧
  (∀ d : Dec, d.view.status = d.ctl.status ∧
    (d.ctl.status = .fault → d.view.err = some d.ctl.err) ∧ (d.ctl.status ≠ .fault → d.view.err = none) ∧
    (d.ctl.status = .done → d.view.hdr = some d.hdr ∧ d.view.oc = some d.oc ∧ d.view.rp = some d.rp ∧
      d.view.out = some (d.out.readBytes 0 (d.n.toNat * d.oc.toNat))) ∧
    (d.ctl.status ≠ .done → d.view.hdr = none ∧ d.view.oc = none ∧ d.view.rp = none ∧ d.view.out = none)) ∧
  (∀ e e' : Enc, e.ctl.status = e'.ctl.status → (e.ctl.status = .fault → e.ctl.err = e'.ctl.err) →
    (e.ctl.status = .done → e.outlen = e'.outlen ∧ ∀ a, a < e.outlen.toNat → e.out.read a = e'.out.read a) →
    e.view = e'.view) ∧
  (∀ d d' : Dec, d.Inv → d'.Inv → d.ctl.status = d'.ctl.status → (d.ctl.status = .fault → d.ctl.err = d'.ctl.err) →
    (d.ctl.status = .done → d.hdr = d'.hdr ∧ d.oc = d'.oc ∧ d.rp = d'.rp ∧
      ∀ a, a < d.hdr.width.toNat * d.hdr.height.toNat * d.oc.toNat → d.out.read a = d'.out.read a) →
    d.view = d'.view)

/-! ### Invariants that every step keeps -/

/-- Reset meets all the invariants. -/
def Obligations.ResetMeetsTheInvariants : Prop :=
  State.reset.BuffersCanonical ∧ State.reset.CachesCanonical ∧ State.reset.enc.Inv ∧ State.reset.dec.Inv

/-- Every step keeps the four buffers in canonical form. -/
def Obligations.StepKeepsBuffersCanonical : Prop :=
  ∀ s t : State, s.BuffersCanonical → step s = .next t → t.BuffersCanonical

/-- Every step keeps each slot of both caches either `(0,0,0,0)` or a pixel whose own slot it is (41_pixel_hash_cache.md
section 6). -/
def Obligations.StepKeepsCachesCanonical : Prop :=
  ∀ s t : State, s.CachesCanonical → step s = .next t → t.CachesCanonical

/-- Every step keeps the encoder's invariant: ERR set exactly in FAULT, the run counter at most 61, no run pending after the
last pixel, the output within `22 + (C+1) * N` bytes, alpha 255 with 3 channels (43_encoder_opcode_mux_and_emit.md
section 5). -/
def Obligations.StepKeepsEncoderInvariant : Prop :=
  ∀ s t : State, s.enc.Inv → step s = .next t → t.enc.Inv

/-- Every step keeps the decoder's invariant: ERR set exactly in FAULT, the run counter at most 61, the read pointer between
14 and the input's length as latched at START (log 6), the write cursor at `K * OC` (10_state.md sections 4 and 5). -/
def Obligations.StepKeepsDecoderInvariant : Prop :=
  ∀ s t : State, s.dec.Inv → step s = .next t → t.dec.Inv

/-! ### Whole transactions -/

/-- A running encoder left alone reaches DONE after exactly one step per remaining pixel and one finish step, BUSY until
then, and no step of it fails (43_encoder_opcode_mux_and_emit.md section 5; the schedule is the model's, log 7). -/
def Obligations.EncoderReachesDone : Prop :=
  ∀ s : State, s.EncAlone → s.enc.ctl.status = .busy → s.enc.pos.toNat ≤ s.enc.n.toNat →
    (∀ j, s.enc.pos.toNat + j ≤ s.enc.n.toNat →
      ∃ u, Sys2Proof.core.run j s = .next u ∧ u.enc.ctl.status = .busy ∧ u.enc.pos.toNat = s.enc.pos.toNat + j) ∧
    ∃ t, Sys2Proof.core.run (s.enc.n.toNat - s.enc.pos.toNat + 1) s = .next t ∧ t.enc.ctl.status = .done

/-- A running decoder left alone ends in DONE or in FAULT within one step per owed pixel and one finish step
(44_decoder_opcode_parse_and_dispatch.md section 5). -/
def Obligations.DecoderReachesAnEnd : Prop :=
  ∀ s : State, s.DecAlone → s.dec.ctl.status = .busy → s.dec.k.toNat ≤ s.dec.n.toNat →
    ∃ t, Sys2Proof.core.run (s.dec.n.toNat - s.dec.k.toNat + 1) s = .next t ∧
      ((t.dec.ctl.status = .done ∧ t.dec.k = s.dec.n) ∨
       (t.dec.ctl.status = .fault ∧ t.dec.ctl.err = ⟨.format, .truncatedStream⟩))

/-- The encoder's steps refine the big-step form: after START, one step per pixel and the finish step, HOST reads exactly the
stream `encodeImage` gives for the pixels of `ENC.PIX` (43_encoder_opcode_mux_and_emit.md section 5, the big-step form). -/
def Obligations.EncoderRefinesBigStep : Prop :=
  ∀ s : State, s.GoodEncodeRequest →
    ∃ t, Sys2Proof.core.run (s.enc.req.width.toNat * s.enc.req.height.toNat + 2) s = .next t ∧
      t.enc.view = ⟨.done, none,
        some (encodeImage (s.enc.req.width.setWidth 32) (s.enc.req.height.setWidth 32) s.enc.req.channels
          s.enc.req.colorspace
          (pixelsFrom s.enc.pix s.enc.req.channels 0 (s.enc.req.width.toNat * s.enc.req.height.toNat)))⟩

/-- The decoder's steps refine the big-step form: after START, a step per pixel and the finish step, HOST reads the pixels
`decodePixels` gives for the bytes from offset 14 on, or FAULT with TRUNCATED_STREAM where it fails
(44_decoder_opcode_parse_and_dispatch.md section 5, the big-step form). -/
def Obligations.DecoderRefinesBigStep : Prop :=
  ∀ (s : State) (hdr : Header), s.GoodDecodeRequest hdr →
    ∃ t, Sys2Proof.core.run (hdr.width.toNat * hdr.height.toNat + 2) s = .next t ∧
      match decodePixels Rolling.init (s.dec.input.readBytes 14 (s.dec.req.inlen.toNat - 14))
          (hdr.width.toNat * hdr.height.toNat) with
      | .ok pixels => t.dec.view.status = .done ∧ t.dec.view.hdr = some hdr ∧
          t.dec.view.out = some (pixelBytes
            (if s.dec.req.outChannels = 0 then hdr.channels else s.dec.req.outChannels) hdr.channels pixels)
      | .error c => c = .truncatedStream ∧ t.dec.view.status = .fault ∧ t.dec.view.err = some ⟨.format, .truncatedStream⟩

/-- Decoding the chunks the encoder's scan gives for a sequence of pixels gives exactly those pixels, whatever bytes follow
(the core of the round-trip property, 44_decoder_opcode_parse_and_dispatch.md section 5). -/
def Obligations.ScanRoundTrip : Prop :=
  ∀ (pixels : List Pixel) (after : List Byte),
    decodePixels Rolling.init (chunkBytes (scan Rolling.init pixels) ++ after) pixels.length = .ok pixels

/-- The round-trip property of the machine: HOST encodes an image by a good request; a decoder that is given the stream HOST
reads, with the output channel argument absent, ends in DONE with the same width, height, channels and colorspace and, byte
for byte, the same pixels (44_decoder_opcode_parse_and_dispatch.md section 5, the round-trip property; the stream must fit
the decoder's 64-bit input length). -/
def Obligations.MachineRoundTrip : Prop :=
  ∀ s : State, s.GoodEncodeRequest →
    ∃ t stream, Sys2Proof.core.run (s.enc.req.width.toNat * s.enc.req.height.toNat + 2) s = .next t ∧
      t.enc.view = ⟨.done, none, some stream⟩ ∧
      ∀ s' : State, s'.sched = [] → s'.cmds = [.startDec] → s'.enc.ctl.status ≠ .busy → s'.dec.ctl.status ≠ .busy →
        s'.dec.req.outChannels = 0 → s'.dec.req.inlen.toNat = stream.length → s'.dec.input.Holds 0 stream →
        ∃ u, Sys2Proof.core.run (s.enc.req.width.toNat * s.enc.req.height.toNat + 2) s' = .next u ∧
          u.dec.view.status = .done ∧
          u.dec.view.hdr = some ⟨s.enc.req.width.setWidth 32, s.enc.req.height.setWidth 32, s.enc.req.channels,
            s.enc.req.colorspace⟩ ∧
          u.dec.view.out = some (s.enc.pix.readBytes 0 s.enc.req.pixlen.toNat)

/-- `m` pixels equal to the pixel before them, with no run pending, are `m / 62` bytes `FD`, then one byte for what is left over;
then come the chunks of whatever pixels follow, the first of which (if there is one) differs, exactly as if the run were not
there (42_run_length_accumulator.md section 1, long runs split). -/
def Obligations.LongRunsSplitAt62 : Prop :=
  ∀ (r : Rolling) (m : Nat) (rest : List Pixel), r.run = 0 → (∀ px, rest.head? = some px → px ≠ r.prev) →
    chunkBytes (scan r (List.replicate m r.prev ++ rest)) =
      List.replicate (m / 62) 0xFD ++ (if m % 62 = 0 then [] else [BitVec.ofNat 8 (0xC0 + (m % 62 - 1))]) ++
        chunkBytes (scan r rest)
end

