-- ==== Sys2Proof/Laws/Memory.lean ====
section
/-! SUPPORT. The laws of the buffers: what a read after a write gives, what writing and reading several bytes does, and that
every write keeps the canonical form. -/

namespace Sys2Proof.Machine

theorem readCells_insertCell (c : Host.Cell) (l : List Host.Cell) (a : Nat) (h : c.1 = a → ∀ d ∈ l, d.1 ≠ a) :
    readCells (insertCell c l) a = if c.1 = a then c.2 else readCells l a := by
  induction l with
  | nil => simp [insertCell, readCells]
  | cons d rest ih =>
    by_cases hd : c.1 < d.1
    · simp [insertCell, hd, readCells]
    · simp only [insertCell, hd, if_false, readCells]
      have ih' := ih (fun hc x hx => h hc x (List.mem_cons_of_mem _ hx))
      by_cases hda : d.1 = a
      · have : c.1 ≠ a := fun hc => h hc d (List.mem_cons_self ..) hda
        simp [hda, this]
      · simp [hda, ih']

theorem readCells_filter (l : List Host.Cell) (a x : Nat) :
    readCells (l.filter fun c => decide (c.1 ≠ a)) x = if x = a then unlistedByte else readCells l x := by
  induction l with
  | nil => simp [readCells]
  | cons c rest ih =>
    by_cases hx : x = a <;> by_cases hc : c.1 = a <;> simp only [hx, if_true, if_false] at ih ⊢
    · simpa [hc] using ih
    · simpa [hc, readCells] using ih
    · have : ¬ a = x := Ne.symm hx
      simpa [hc, readCells, this] using ih
    · rw [List.filter_cons, if_pos (by simpa using hc), readCells, readCells, ih]

/-- Reading after a write gives the byte written, and leaves every other offset as it was. -/
@[simp] theorem Memory.read_write (m : Memory) (a : Nat) (v : Byte) (x : Nat) :
    (m.write a v).read x = if x = a then v else m.read x := by
  unfold Memory.write Memory.read
  by_cases hv : v = unlistedByte
  · simp only [hv, if_true, readCells_filter]
  · simp only [hv, if_false]
    rw [readCells_insertCell _ _ _ (by intro h d hd; simp at hd; simp at h; omega), readCells_filter]
    by_cases hx : x = a
    · simp [hx]
    · simp [hx, Ne.symm hx]

/-- Reading after several bytes were written: the byte written there, else the old one. -/
theorem Memory.read_writeBytes (m : Memory) (a : Nat) (bytes : List Byte) (x : Nat) :
    (m.writeBytes a bytes).read x = if a ≤ x then (bytes[x - a]?).getD (m.read x) else m.read x := by
  induction bytes generalizing m a with
  | nil => simp [Memory.writeBytes]
  | cons v rest ih =>
    rw [Memory.writeBytes, ih, Memory.read_write]
    by_cases h1 : a + 1 ≤ x
    · obtain ⟨k, rfl⟩ : ∃ k, x = a + 1 + k := ⟨x - (a + 1), by omega⟩
      have e1 : a + 1 + k - (a + 1) = k := by omega
      have e2 : a + 1 + k - a = k + 1 := by omega
      have e3 : ¬ a + 1 + k = a := by omega
      simp [e1, e2, e3, show a ≤ a + 1 + k by omega]
    · by_cases h2 : x = a
      · subst h2; simp
      · simp [h1, h2, show ¬ a ≤ x by omega]

/-- Outside the bytes written, everything reads as before. -/
theorem Memory.read_writeBytes_outside (m : Memory) (a : Nat) (bytes : List Byte) (x : Nat)
    (h : x < a ∨ a + bytes.length ≤ x) : (m.writeBytes a bytes).read x = m.read x := by
  rw [Memory.read_writeBytes]
  by_cases ha : a ≤ x
  · rw [if_pos ha, List.getElem?_eq_none (by omega), Option.getD_none]
  · rw [if_neg ha]

/-- Each byte written stands in its place. -/
theorem Memory.read_writeBytes_inside (m : Memory) (a : Nat) (bytes : List Byte) (j : Nat) (h : j < bytes.length) :
    (m.writeBytes a bytes).read (a + j) = bytes[j] := by
  simp [Memory.read_writeBytes, h]

@[simp] theorem Memory.length_readBytes (m : Memory) (a n : Nat) : (m.readBytes a n).length = n := by
  induction n generalizing a with
  | zero => rfl
  | succ n ih => simp [Memory.readBytes, ih]

theorem Memory.getElem_readBytes (m : Memory) (a n j : Nat) (h : j < n) :
    (m.readBytes a n)[j]'(by simpa using h) = m.read (a + j) := by
  induction n generalizing a j with
  | zero => omega
  | succ n ih =>
    cases j with
    | zero => rfl
    | succ j => simpa [Memory.readBytes, Nat.add_assoc, Nat.add_comm 1] using ih (a + 1) j (by omega)

/-- Reading `n` bytes gives a list exactly when each of its bytes stands in its place. -/
theorem Memory.readBytes_eq_iff (m : Memory) (a : Nat) (bytes : List Byte) :
    m.readBytes a bytes.length = bytes ↔ ∀ j (h : j < bytes.length), m.read (a + j) = bytes[j] := by
  constructor
  · intro e j h
    rw [← m.getElem_readBytes a bytes.length j h]
    exact List.getElem_of_eq e _
  · intro e
    apply List.ext_getElem (by simp)
    intro j h1 h2
    rw [m.getElem_readBytes a _ j (by simpa using h1), e j h2]

/-- A read of `n` bytes depends on those `n` bytes alone. -/
theorem Memory.readBytes_congr {m m' : Memory} {a n : Nat} (h : ∀ j, j < n → m.read (a + j) = m'.read (a + j)) :
    m.readBytes a n = m'.readBytes a n :=
  List.ext_getElem (by simp) fun j h1 _ => by
    have hj : j < n := by simpa using h1
    rw [m.getElem_readBytes a n j hj, m'.getElem_readBytes a n j hj, h j hj]

theorem Memory.readBytes_append (m : Memory) (a n k : Nat) :
    m.readBytes a (n + k) = m.readBytes a n ++ m.readBytes (a + n) k := by
  induction n generalizing a with
  | zero => simp [Memory.readBytes]
  | succ n ih =>
    rw [show n + 1 + k = (n + k) + 1 by omega, Memory.readBytes, ih, Memory.readBytes, List.cons_append,
      show a + 1 + n = a + (n + 1) by omega]

/-! ### Canonical form -/

theorem canonicalFrom_mono {lo lo' : Nat} (l : List Host.Cell) (h : canonicalFrom lo l = true) (hle : lo' ≤ lo) :
    canonicalFrom lo' l = true := by
  cases l with
  | nil => rfl
  | cons c rest => simp only [canonicalFrom, Bool.and_eq_true, decide_eq_true_eq] at h ⊢; exact ⟨⟨by omega, h.1.2⟩, h.2⟩

theorem canonicalFrom_filter (lo : Nat) (l : List Host.Cell) (p : Host.Cell → Bool) (h : canonicalFrom lo l = true) :
    canonicalFrom lo (l.filter p) = true := by
  induction l generalizing lo with
  | nil => rfl
  | cons c rest ih =>
    simp only [canonicalFrom, Bool.and_eq_true, decide_eq_true_eq] at h
    have hr := ih _ h.2
    by_cases hp : p c = true
    · simp only [List.filter_cons, hp, if_true, canonicalFrom, Bool.and_eq_true, decide_eq_true_eq]
      exact ⟨h.1, hr⟩
    · simp only [List.filter_cons, hp]
      exact canonicalFrom_mono _ hr (by omega)

theorem canonicalFrom_insertCell (lo : Nat) (c : Host.Cell) (l : List Host.Cell) (h : canonicalFrom lo l = true)
    (hlo : lo ≤ c.1) (hv : c.2 ≠ unlistedByte) (hne : ∀ d ∈ l, d.1 ≠ c.1) :
    canonicalFrom lo (insertCell c l) = true := by
  induction l generalizing lo with
  | nil => simp [insertCell, canonicalFrom, hlo, hv]
  | cons d rest ih =>
    simp only [canonicalFrom, Bool.and_eq_true, decide_eq_true_eq] at h
    by_cases hd : c.1 < d.1
    · simp only [insertCell, hd, if_true, canonicalFrom, Bool.and_eq_true, decide_eq_true_eq]
      exact ⟨⟨hlo, hv⟩, ⟨by omega, h.1.2⟩, h.2⟩
    · have hdc : d.1 ≠ c.1 := hne d (List.mem_cons_self ..)
      simp only [insertCell, hd, if_false, canonicalFrom, Bool.and_eq_true, decide_eq_true_eq]
      exact ⟨h.1, ih _ h.2 (by omega) fun x hx => hne x (List.mem_cons_of_mem _ hx)⟩

/-- A write keeps the canonical form. -/
theorem Memory.wf_write (m : Memory) (a : Nat) (v : Byte) (h : m.wf = true) : (m.write a v).wf = true := by
  unfold Memory.wf Memory.write at *
  have hf := canonicalFrom_filter 0 m.cells (fun c => decide (c.1 ≠ a)) h
  by_cases hv : v = unlistedByte
  · simpa only [hv, if_true] using hf
  · simp only [hv, if_false]
    exact canonicalFrom_insertCell 0 _ _ hf (by omega) hv (by simp)

/-- Writing several bytes keeps the canonical form. -/
theorem Memory.wf_writeBytes (m : Memory) (a : Nat) (bytes : List Byte) (h : m.wf = true) :
    (m.writeBytes a bytes).wf = true := by
  induction bytes generalizing m a with
  | nil => exact h
  | cons v rest ih => exact ih _ _ (m.wf_write a v h)

theorem readCells_below (lo a : Nat) (l : List Host.Cell) (h : canonicalFrom lo l = true) (ha : a < lo) :
    readCells l a = unlistedByte := by
  induction l generalizing lo with
  | nil => rfl
  | cons c rest ih =>
    simp only [canonicalFrom, Bool.and_eq_true, decide_eq_true_eq] at h
    rw [readCells, if_neg (by omega), ih _ h.2 (by omega)]

theorem cells_eq_of_reads (lo : Nat) (l l' : List Host.Cell) (h : canonicalFrom lo l = true)
    (h' : canonicalFrom lo l' = true) (e : ∀ a, readCells l a = readCells l' a) : l = l' := by
  induction l generalizing lo l' with
  | nil =>
    cases l' with
    | nil => rfl
    | cons c rest =>
      simp only [canonicalFrom, Bool.and_eq_true, decide_eq_true_eq] at h'
      exact absurd (by simpa [readCells] using (e c.1).symm) h'.1.2
  | cons c rest ih =>
    simp only [canonicalFrom, Bool.and_eq_true, decide_eq_true_eq] at h
    cases l' with
    | nil => exact absurd (by simpa [readCells] using e c.1) h.1.2
    | cons d rest' =>
      simp only [canonicalFrom, Bool.and_eq_true, decide_eq_true_eq] at h'
      have hcd : c.1 = d.1 := by
        rcases Nat.lt_trichotomy c.1 d.1 with hlt | heq | hgt
        · have := e c.1
          rw [readCells, if_pos rfl, readCells, if_neg (by omega), readCells_below _ _ _ h'.2 (by omega)] at this
          exact absurd this h.1.2
        · exact heq
        · have := e d.1
          rw [readCells, if_neg (by omega), readCells_below _ _ _ h.2 (by omega), readCells, if_pos rfl] at this
          exact absurd this.symm h'.1.2
      have hv : c.2 = d.2 := by simpa [readCells, hcd] using e c.1
      have hrest := ih (c.1 + 1) rest' h.2 (by rw [hcd]; exact h'.2) fun a => by
        by_cases ha : a < c.1 + 1
        · rw [readCells_below _ _ _ h.2 ha, readCells_below _ _ _ h'.2 (by omega)]
        · have := e a
          rwa [readCells, if_neg (by omega), readCells, if_neg (by omega)] at this
      rw [hrest, Prod.ext hcd hv]

/-- Canonical buffers that read the same everywhere are the same data. -/
theorem Memory.eq_of_reads (m m' : Memory) (h : m.wf = true) (h' : m'.wf = true) (e : ∀ a, m.read a = m'.read a) :
    m = m' := by
  cases m; cases m'
  exact congrArg _ (cells_eq_of_reads 0 _ _ h h' e)

@[simp] theorem Memory.wf_empty : Memory.empty.wf = true := rfl

@[simp] theorem Memory.read_empty (a : Nat) : Memory.empty.read a = unlistedByte := rfl

end Sys2Proof.Machine
end

