-- ==== Sys2Proof/Laws/State.lean ====
section
/-! SUPPORT. One lemma per field per update: what each named update of an engine leaves in each register. They are true by
definition and tagged simp, so that no later proof unfolds a record update. -/

namespace Sys2Proof.Machine

/-! ### Emit -/

@[simp] theorem Enc.emit_ctl (e : Enc) (bytes : List Byte) : (e.emit bytes).ctl = e.ctl := rfl
@[simp] theorem Enc.emit_req (e : Enc) (bytes : List Byte) : (e.emit bytes).req = e.req := rfl
@[simp] theorem Enc.emit_cfg (e : Enc) (bytes : List Byte) : (e.emit bytes).cfg = e.cfg := rfl
@[simp] theorem Enc.emit_n (e : Enc) (bytes : List Byte) : (e.emit bytes).n = e.n := rfl
@[simp] theorem Enc.emit_prev (e : Enc) (bytes : List Byte) : (e.emit bytes).prev = e.prev := rfl
@[simp] theorem Enc.emit_run (e : Enc) (bytes : List Byte) : (e.emit bytes).run = e.run := rfl
@[simp] theorem Enc.emit_cache (e : Enc) (bytes : List Byte) : (e.emit bytes).cache = e.cache := rfl
@[simp] theorem Enc.emit_outlen (e : Enc) (bytes : List Byte) : (e.emit bytes).outlen = e.outlen + BitVec.ofNat 67 bytes.length := rfl
@[simp] theorem Enc.emit_pos (e : Enc) (bytes : List Byte) : (e.emit bytes).pos = e.pos := rfl
@[simp] theorem Enc.emit_pix (e : Enc) (bytes : List Byte) : (e.emit bytes).pix = e.pix := rfl
@[simp] theorem Enc.emit_out (e : Enc) (bytes : List Byte) : (e.emit bytes).out = e.out.writeBytes e.outlen.toNat bytes := rfl

/-! ### flush_run -/

@[simp] theorem flushRun_ctl (e : Enc) : (flushRun e).ctl = e.ctl := rfl
@[simp] theorem flushRun_req (e : Enc) : (flushRun e).req = e.req := rfl
@[simp] theorem flushRun_cfg (e : Enc) : (flushRun e).cfg = e.cfg := rfl
@[simp] theorem flushRun_n (e : Enc) : (flushRun e).n = e.n := rfl
@[simp] theorem flushRun_prev (e : Enc) : (flushRun e).prev = e.prev := rfl
@[simp] theorem flushRun_run (e : Enc) : (flushRun e).run = 0 := rfl
@[simp] theorem flushRun_cache (e : Enc) : (flushRun e).cache = e.cache := rfl
@[simp] theorem flushRun_outlen (e : Enc) : (flushRun e).outlen = e.outlen + BitVec.ofNat 67 (encode (.run e.run.toNat)).length := rfl
@[simp] theorem flushRun_pos (e : Enc) : (flushRun e).pos = e.pos := rfl
@[simp] theorem flushRun_pix (e : Enc) : (flushRun e).pix = e.pix := rfl
@[simp] theorem flushRun_out (e : Enc) : (flushRun e).out = e.out.writeBytes e.outlen.toNat (encode (.run e.run.toNat)) := rfl

/-! ### enc_finish -/

@[simp] theorem Enc.finish_ctl (e : Enc) : (e.finish).ctl = ⟨.done, e.ctl.err⟩ := rfl
@[simp] theorem Enc.finish_req (e : Enc) : (e.finish).req = e.req := rfl
@[simp] theorem Enc.finish_cfg (e : Enc) : (e.finish).cfg = e.cfg := rfl
@[simp] theorem Enc.finish_n (e : Enc) : (e.finish).n = e.n := rfl
@[simp] theorem Enc.finish_prev (e : Enc) : (e.finish).prev = e.prev := rfl
@[simp] theorem Enc.finish_run (e : Enc) : (e.finish).run = e.run := rfl
@[simp] theorem Enc.finish_cache (e : Enc) : (e.finish).cache = e.cache := rfl
@[simp] theorem Enc.finish_outlen (e : Enc) : (e.finish).outlen = e.outlen + BitVec.ofNat 67 Config.endMarker.length := rfl
@[simp] theorem Enc.finish_pos (e : Enc) : (e.finish).pos = e.pos := rfl
@[simp] theorem Enc.finish_pix (e : Enc) : (e.finish).pix = e.pix := rfl
@[simp] theorem Enc.finish_out (e : Enc) : (e.finish).out = e.out.writeBytes e.outlen.toNat Config.endMarker := rfl

/-! ### RP past a chunk -/

@[simp] theorem Dec.advance_ctl (d : Dec) (len : Nat) : (d.advance len).ctl = d.ctl := rfl
@[simp] theorem Dec.advance_req (d : Dec) (len : Nat) : (d.advance len).req = d.req := rfl
@[simp] theorem Dec.advance_inlen (d : Dec) (len : Nat) : (d.advance len).inlen = d.inlen := rfl
@[simp] theorem Dec.advance_hdr (d : Dec) (len : Nat) : (d.advance len).hdr = d.hdr := rfl
@[simp] theorem Dec.advance_oc (d : Dec) (len : Nat) : (d.advance len).oc = d.oc := rfl
@[simp] theorem Dec.advance_n (d : Dec) (len : Nat) : (d.advance len).n = d.n := rfl
@[simp] theorem Dec.advance_k (d : Dec) (len : Nat) : (d.advance len).k = d.k := rfl
@[simp] theorem Dec.advance_wc (d : Dec) (len : Nat) : (d.advance len).wc = d.wc := rfl
@[simp] theorem Dec.advance_rp (d : Dec) (len : Nat) : (d.advance len).rp = d.rp + BitVec.ofNat 64 len := rfl
@[simp] theorem Dec.advance_cur (d : Dec) (len : Nat) : (d.advance len).cur = d.cur := rfl
@[simp] theorem Dec.advance_run (d : Dec) (len : Nat) : (d.advance len).run = d.run := rfl
@[simp] theorem Dec.advance_cache (d : Dec) (len : Nat) : (d.advance len).cache = d.cache := rfl
@[simp] theorem Dec.advance_input (d : Dec) (len : Nat) : (d.advance len).input = d.input := rfl
@[simp] theorem Dec.advance_out (d : Dec) (len : Nat) : (d.advance len).out = d.out := rfl

/-! ### A new current pixel -/

@[simp] theorem Dec.setCur_ctl (d : Dec) (p : Pixel) : (d.setCur p).ctl = d.ctl := rfl
@[simp] theorem Dec.setCur_req (d : Dec) (p : Pixel) : (d.setCur p).req = d.req := rfl
@[simp] theorem Dec.setCur_inlen (d : Dec) (p : Pixel) : (d.setCur p).inlen = d.inlen := rfl
@[simp] theorem Dec.setCur_hdr (d : Dec) (p : Pixel) : (d.setCur p).hdr = d.hdr := rfl
@[simp] theorem Dec.setCur_oc (d : Dec) (p : Pixel) : (d.setCur p).oc = d.oc := rfl
@[simp] theorem Dec.setCur_n (d : Dec) (p : Pixel) : (d.setCur p).n = d.n := rfl
@[simp] theorem Dec.setCur_k (d : Dec) (p : Pixel) : (d.setCur p).k = d.k := rfl
@[simp] theorem Dec.setCur_wc (d : Dec) (p : Pixel) : (d.setCur p).wc = d.wc := rfl
@[simp] theorem Dec.setCur_rp (d : Dec) (p : Pixel) : (d.setCur p).rp = d.rp := rfl
@[simp] theorem Dec.setCur_cur (d : Dec) (p : Pixel) : (d.setCur p).cur = p := rfl
@[simp] theorem Dec.setCur_run (d : Dec) (p : Pixel) : (d.setCur p).run = d.run := rfl
@[simp] theorem Dec.setCur_cache (d : Dec) (p : Pixel) : (d.setCur p).cache = d.cache := rfl
@[simp] theorem Dec.setCur_input (d : Dec) (p : Pixel) : (d.setCur p).input = d.input := rfl
@[simp] theorem Dec.setCur_out (d : Dec) (p : Pixel) : (d.setCur p).out = d.out := rfl

/-! ### A new current pixel, written back -/

@[simp] theorem Dec.resolve_ctl (d : Dec) (p : Pixel) : (d.resolve p).ctl = d.ctl := rfl
@[simp] theorem Dec.resolve_req (d : Dec) (p : Pixel) : (d.resolve p).req = d.req := rfl
@[simp] theorem Dec.resolve_inlen (d : Dec) (p : Pixel) : (d.resolve p).inlen = d.inlen := rfl
@[simp] theorem Dec.resolve_hdr (d : Dec) (p : Pixel) : (d.resolve p).hdr = d.hdr := rfl
@[simp] theorem Dec.resolve_oc (d : Dec) (p : Pixel) : (d.resolve p).oc = d.oc := rfl
@[simp] theorem Dec.resolve_n (d : Dec) (p : Pixel) : (d.resolve p).n = d.n := rfl
@[simp] theorem Dec.resolve_k (d : Dec) (p : Pixel) : (d.resolve p).k = d.k := rfl
@[simp] theorem Dec.resolve_wc (d : Dec) (p : Pixel) : (d.resolve p).wc = d.wc := rfl
@[simp] theorem Dec.resolve_rp (d : Dec) (p : Pixel) : (d.resolve p).rp = d.rp := rfl
@[simp] theorem Dec.resolve_cur (d : Dec) (p : Pixel) : (d.resolve p).cur = p := rfl
@[simp] theorem Dec.resolve_run (d : Dec) (p : Pixel) : (d.resolve p).run = d.run := rfl
@[simp] theorem Dec.resolve_cache (d : Dec) (p : Pixel) : (d.resolve p).cache = d.cache.store p := rfl
@[simp] theorem Dec.resolve_input (d : Dec) (p : Pixel) : (d.resolve p).input = d.input := rfl
@[simp] theorem Dec.resolve_out (d : Dec) (p : Pixel) : (d.resolve p).out = d.out := rfl

/-! ### The end of a pixel step -/

@[simp] theorem Dec.producePixel_ctl (d : Dec) : (d.producePixel).ctl = d.ctl := rfl
@[simp] theorem Dec.producePixel_req (d : Dec) : (d.producePixel).req = d.req := rfl
@[simp] theorem Dec.producePixel_inlen (d : Dec) : (d.producePixel).inlen = d.inlen := rfl
@[simp] theorem Dec.producePixel_hdr (d : Dec) : (d.producePixel).hdr = d.hdr := rfl
@[simp] theorem Dec.producePixel_oc (d : Dec) : (d.producePixel).oc = d.oc := rfl
@[simp] theorem Dec.producePixel_n (d : Dec) : (d.producePixel).n = d.n := rfl
@[simp] theorem Dec.producePixel_k (d : Dec) : (d.producePixel).k = d.k + 1 := rfl
@[simp] theorem Dec.producePixel_wc (d : Dec) : (d.producePixel).wc = d.wc + d.oc.setWidth 66 := rfl
@[simp] theorem Dec.producePixel_rp (d : Dec) : (d.producePixel).rp = d.rp := rfl
@[simp] theorem Dec.producePixel_cur (d : Dec) : (d.producePixel).cur = d.cur := rfl
@[simp] theorem Dec.producePixel_run (d : Dec) : (d.producePixel).run = d.run := rfl
@[simp] theorem Dec.producePixel_cache (d : Dec) : (d.producePixel).cache = d.cache := rfl
@[simp] theorem Dec.producePixel_input (d : Dec) : (d.producePixel).input = d.input := rfl
@[simp] theorem Dec.producePixel_out (d : Dec) : (d.producePixel).out = d.out.writeBytes d.wc.toNat (outputBytes d.oc d.hdr.channels d.cur) := rfl

/-! ### Replay -/

@[simp] theorem Dec.replay_ctl (d : Dec) : (d.replay).ctl = d.ctl := rfl
@[simp] theorem Dec.replay_req (d : Dec) : (d.replay).req = d.req := rfl
@[simp] theorem Dec.replay_inlen (d : Dec) : (d.replay).inlen = d.inlen := rfl
@[simp] theorem Dec.replay_hdr (d : Dec) : (d.replay).hdr = d.hdr := rfl
@[simp] theorem Dec.replay_oc (d : Dec) : (d.replay).oc = d.oc := rfl
@[simp] theorem Dec.replay_n (d : Dec) : (d.replay).n = d.n := rfl
@[simp] theorem Dec.replay_k (d : Dec) : (d.replay).k = d.k + 1 := rfl
@[simp] theorem Dec.replay_wc (d : Dec) : (d.replay).wc = d.wc + d.oc.setWidth 66 := rfl
@[simp] theorem Dec.replay_rp (d : Dec) : (d.replay).rp = d.rp := rfl
@[simp] theorem Dec.replay_cur (d : Dec) : (d.replay).cur = d.cur := rfl
@[simp] theorem Dec.replay_run (d : Dec) : (d.replay).run = d.run - 1 := rfl
@[simp] theorem Dec.replay_cache (d : Dec) : (d.replay).cache = d.cache := rfl
@[simp] theorem Dec.replay_input (d : Dec) : (d.replay).input = d.input := rfl
@[simp] theorem Dec.replay_out (d : Dec) : (d.replay).out = d.out.writeBytes d.wc.toNat (outputBytes d.oc d.hdr.channels d.cur) := rfl

/-! ### TRUNCATED_STREAM -/

@[simp] theorem Dec.truncated_ctl (d : Dec) : (d.truncated).ctl = ⟨.fault, ⟨.format, .truncatedStream⟩⟩ := rfl
@[simp] theorem Dec.truncated_req (d : Dec) : (d.truncated).req = d.req := rfl
@[simp] theorem Dec.truncated_inlen (d : Dec) : (d.truncated).inlen = d.inlen := rfl
@[simp] theorem Dec.truncated_hdr (d : Dec) : (d.truncated).hdr = d.hdr := rfl
@[simp] theorem Dec.truncated_oc (d : Dec) : (d.truncated).oc = d.oc := rfl
@[simp] theorem Dec.truncated_n (d : Dec) : (d.truncated).n = d.n := rfl
@[simp] theorem Dec.truncated_k (d : Dec) : (d.truncated).k = d.k := rfl
@[simp] theorem Dec.truncated_wc (d : Dec) : (d.truncated).wc = d.wc := rfl
@[simp] theorem Dec.truncated_rp (d : Dec) : (d.truncated).rp = d.rp := rfl
@[simp] theorem Dec.truncated_cur (d : Dec) : (d.truncated).cur = d.cur := rfl
@[simp] theorem Dec.truncated_run (d : Dec) : (d.truncated).run = d.run := rfl
@[simp] theorem Dec.truncated_cache (d : Dec) : (d.truncated).cache = d.cache := rfl
@[simp] theorem Dec.truncated_input (d : Dec) : (d.truncated).input = d.input := rfl
@[simp] theorem Dec.truncated_out (d : Dec) : (d.truncated).out = d.out := rfl

/-! ### dec_finish -/

@[simp] theorem Dec.finish_ctl (d : Dec) : (d.finish).ctl = ⟨.done, d.ctl.err⟩ := rfl
@[simp] theorem Dec.finish_req (d : Dec) : (d.finish).req = d.req := rfl
@[simp] theorem Dec.finish_inlen (d : Dec) : (d.finish).inlen = d.inlen := rfl
@[simp] theorem Dec.finish_hdr (d : Dec) : (d.finish).hdr = d.hdr := rfl
@[simp] theorem Dec.finish_oc (d : Dec) : (d.finish).oc = d.oc := rfl
@[simp] theorem Dec.finish_n (d : Dec) : (d.finish).n = d.n := rfl
@[simp] theorem Dec.finish_k (d : Dec) : (d.finish).k = d.k := rfl
@[simp] theorem Dec.finish_wc (d : Dec) : (d.finish).wc = d.wc := rfl
@[simp] theorem Dec.finish_rp (d : Dec) : (d.finish).rp = d.rp := rfl
@[simp] theorem Dec.finish_cur (d : Dec) : (d.finish).cur = d.cur := rfl
@[simp] theorem Dec.finish_run (d : Dec) : (d.finish).run = d.run := rfl
@[simp] theorem Dec.finish_cache (d : Dec) : (d.finish).cache = d.cache := rfl
@[simp] theorem Dec.finish_input (d : Dec) : (d.finish).input = d.input := rfl
@[simp] theorem Dec.finish_out (d : Dec) : (d.finish).out = d.out := rfl

/-! ### Errors and turns -/

@[simp] theorem raised_status (c : Cause) : (raised c).status = .fault := rfl
@[simp] theorem raised_err (c : Cause) : (raised c).err = ⟨c.kind, c⟩ := rfl
@[simp] theorem Ctl.clearErr_status (c : Ctl) : c.clearErr.status = c.status := rfl
@[simp] theorem Ctl.clearErr_err (c : Ctl) : c.clearErr.err = ⟨.none, .none⟩ := rfl
@[simp] theorem State.takeTurn_enc (s : State) : s.takeTurn.enc = s.enc := rfl
@[simp] theorem State.takeTurn_dec (s : State) : s.takeTurn.dec = s.dec := rfl
@[simp] theorem State.takeTurn_cmds (s : State) : s.takeTurn.cmds = s.cmds := rfl
@[simp] theorem State.takeTurn_sched (s : State) : s.takeTurn.sched = s.sched.tail := rfl

end Sys2Proof.Machine
end

