-- ==== Sys2Proof/Laws/Ops.lean ====
section
/-! SUPPORT. What each shared operation does: cache lookup and write, Emit, Fetch, output_pixel. -/

namespace Sys2Proof.Machine

/-! ### Cache -/

/-- A lookup after a write: the pixel in its own slot, every other slot as before. -/
theorem Cache.lookup_store (cache : Cache) (p : Pixel) (x : Fin 64) :
    (cache.store p).lookup x = if x = pixelHash p then p else cache.lookup x := by
  unfold Cache.lookup Cache.store
  rw [Vector.get_eq_getElem, Vector.get_eq_getElem, Vector.getElem_set]
  by_cases h : x = pixelHash p
  · simp [h]
  · rw [if_neg h, if_neg (fun e => h (Fin.ext e.symm))]

@[simp] theorem Cache.lookup_store_self (cache : Cache) (p : Pixel) : (cache.store p).lookup (pixelHash p) = p := by
  simp [Cache.lookup_store]

@[simp] theorem Cache.lookup_init (x : Fin 64) : Cache.init.lookup x = Config.cacheInit := by
  unfold Cache.lookup Cache.init
  rw [Vector.get_eq_getElem, Vector.getElem_replicate]

/-- Caches that agree slot by slot are equal. -/
theorem Cache.ext_lookup (c c' : Cache) (h : ∀ x, c.lookup x = c'.lookup x) : c = c' := by
  apply Vector.ext
  intro i hi
  have := h ⟨i, hi⟩
  unfold Cache.lookup at this
  rwa [Vector.get_eq_getElem, Vector.get_eq_getElem] at this

/-! ### Emit -/

theorem Memory.writeBytes_append (m : Memory) (a : Nat) (xs ys : List Byte) :
    m.writeBytes a (xs ++ ys) = (m.writeBytes a xs).writeBytes (a + xs.length) ys := by
  induction xs generalizing m a with
  | nil => rfl
  | cons x rest ih =>
    rw [List.cons_append, Memory.writeBytes, ih, Memory.writeBytes, List.length_cons,
      show a + 1 + rest.length = a + (rest.length + 1) by omega]

/-- Two emissions in a row are one, while the output cursor does not wrap. -/
theorem Enc.emit_append (e : Enc) (xs ys : List Byte) (h : e.outlen.toNat + xs.length < 2 ^ 67) :
    (e.emit xs).emit ys = e.emit (xs ++ ys) := by
  have hlen : (e.outlen + BitVec.ofNat 67 xs.length).toNat = e.outlen.toNat + xs.length := by
    rw [BitVec.toNat_add, BitVec.toNat_ofNat, Nat.mod_eq_of_lt (a := xs.length) (by omega), Nat.mod_eq_of_lt h]
  unfold Enc.emit
  simp only [hlen, Memory.writeBytes_append, List.length_append, BitVec.ofNat_add, BitVec.add_assoc]

@[simp] theorem Enc.emit_nil (e : Enc) : e.emit [] = e := by
  simp [Enc.emit, Memory.writeBytes]

/-- The output cursor after an emission, while it does not wrap. -/
theorem Enc.outlen_emit (e : Enc) (bytes : List Byte) (h : e.outlen.toNat + bytes.length < 2 ^ 67) :
    (e.emit bytes).outlen.toNat = e.outlen.toNat + bytes.length := by
  rw [Enc.emit_outlen, BitVec.toNat_add, BitVec.toNat_ofNat, Nat.mod_eq_of_lt (a := bytes.length) (by omega),
    Nat.mod_eq_of_lt h]

/-! ### Fetch -/

/-- A fetch below `INLEN` gives the byte at `RP` and moves `RP` by one, without wrapping. -/
theorem Dec.fetch_below (d : Dec) (h : d.rp.toNat < d.inlen.toNat) :
    d.fetch = some (d.input.read d.rp.toNat, { d with rp := d.rp + 1 }) ∧ (d.rp + 1).toNat = d.rp.toNat + 1 := by
  have hn : ¬ d.inlen ≤ d.rp := by rw [BitVec.le_def]; omega
  refine ⟨by rw [Dec.fetch, if_neg hn], ?_⟩
  have := d.inlen.isLt
  rw [BitVec.toNat_add, show (1 : BitVec 64).toNat = 1 from rfl, Nat.mod_eq_of_lt (by omega)]

/-- A fetch at or beyond `INLEN` gives nothing. -/
theorem Dec.fetch_beyond (d : Dec) (h : d.inlen.toNat ≤ d.rp.toNat) : d.fetch = none := by
  rw [Dec.fetch, if_pos (by rw [BitVec.le_def]; exact h)]

/-- `n` fetches give the `n` bytes from `RP` on when all of them are below `INLEN`. -/
theorem Dec.fetchMany_below (d : Dec) (n : Nat) (h : d.rp.toNat + n ≤ d.inlen.toNat) :
    ∃ d', d.fetchMany n = some (d.input.readBytes d.rp.toNat n, d') := by
  induction n generalizing d with
  | zero => exact ⟨d, rfl⟩
  | succ n ih =>
    obtain ⟨hf, hr⟩ := d.fetch_below (by omega)
    obtain ⟨d', hd'⟩ := ih { d with rp := d.rp + 1 } (by simp only [hr]; omega)
    simp only [hr] at hd'
    exact ⟨d', by simp only [Dec.fetchMany, hf, hd', Memory.readBytes]⟩

/-- `n` fetches fail when one of the bytes is at or beyond `INLEN`. -/
theorem Dec.fetchMany_beyond (d : Dec) (n : Nat) (h : d.inlen.toNat < d.rp.toNat + n) (hr : d.rp.toNat ≤ d.inlen.toNat) :
    d.fetchMany n = none := by
  induction n generalizing d with
  | zero => omega
  | succ n ih =>
    by_cases hlt : d.rp.toNat < d.inlen.toNat
    · obtain ⟨hf, hr'⟩ := d.fetch_below hlt
      have := ih { d with rp := d.rp + 1 } (by simp only [hr']; omega) (by simp only [hr']; omega)
      simp only [Dec.fetchMany, hf, this]
    · simp only [Dec.fetchMany, d.fetch_beyond (by omega)]

/-- The chunk at `RP`, all of whose bytes are below `INLEN`, is the bytes from `RP` on. -/
theorem Dec.fetchChunk_below (d : Dec)
    (h : d.rp.toNat + (1 + payloadLength (d.input.read d.rp.toNat)) ≤ d.inlen.toNat) :
    d.fetchChunk = some (d.input.readBytes d.rp.toNat (1 + payloadLength (d.input.read d.rp.toNat))) := by
  obtain ⟨hf, hr⟩ := d.fetch_below (by omega)
  obtain ⟨d', hd'⟩ := Dec.fetchMany_below { d with rp := d.rp + 1 } (payloadLength (d.input.read d.rp.toNat))
    (by simp only [hr]; omega)
  simp only [hr] at hd'
  simp only [Dec.fetchChunk, hf, hd', Nat.add_comm 1, Memory.readBytes]

/-- The chunk at `RP` needs a byte at or beyond `INLEN`: nothing is fetched. -/
theorem Dec.fetchChunk_beyond (d : Dec)
    (h : d.inlen.toNat ≤ d.rp.toNat ∨ d.inlen.toNat < d.rp.toNat + (1 + payloadLength (d.input.read d.rp.toNat))) :
    d.fetchChunk = none := by
  by_cases hlt : d.rp.toNat < d.inlen.toNat
  · obtain ⟨hf, hr⟩ := d.fetch_below hlt
    have := Dec.fetchMany_beyond { d with rp := d.rp + 1 } (payloadLength (d.input.read d.rp.toNat))
      (by simp only [hr]; omega) (by simp only [hr]; omega)
    simp only [Dec.fetchChunk, hf, this]
  · simp only [Dec.fetchChunk, d.fetch_beyond (by omega)]

/-- What a fetched chunk is: all its bytes are below `INLEN`, and it is the bytes from `RP` on. -/
theorem Dec.fetchChunk_some (d : Dec) (bytes : List Byte) (h : d.fetchChunk = some bytes) :
    d.rp.toNat + (1 + payloadLength (d.input.read d.rp.toNat)) ≤ d.inlen.toNat ∧
    bytes = d.input.readBytes d.rp.toNat (1 + payloadLength (d.input.read d.rp.toNat)) := by
  by_cases hb : d.rp.toNat + (1 + payloadLength (d.input.read d.rp.toNat)) ≤ d.inlen.toNat
  · rw [d.fetchChunk_below hb] at h
    exact ⟨hb, by injection h with h; exact h.symm⟩
  · rw [d.fetchChunk_beyond (.inr (by omega))] at h
    exact absurd h (by simp)

/-! ### output_pixel -/

/-- How many bytes a pixel is put out in. -/
theorem outputBytes_length (oc hc : BitVec 8) (p : Pixel) : (outputBytes oc hc p).length = if oc = 3 then 3 else 4 := by
  unfold outputBytes
  split <;> [rfl; (split <;> rfl)]

end Sys2Proof.Machine
end

