-- ==== Sys2Proof/Laws/Codec.lean ====
section
/-! SUPPORT. The laws of the helpers that turn bytes into numbers and back: bit fields, payload lengths, big-endian words,
wrapping. -/

namespace Sys2Proof

/-- A bit field as a quotient and a remainder. -/
theorem bitField_eq (b : Byte) (lo width : Nat) : bitField b lo width = b.toNat / 2 ^ lo % 2 ^ width := by
  simp [bitField, BitVec.extractLsb'_toNat, Nat.shiftRight_eq_div_pow]

/-- The payload length by the number of the first byte. -/
theorem payloadLength_eq (b : Byte) : payloadLength b =
    if b.toNat = 0xFE then 3 else if b.toNat = 0xFF then 4 else if b.toNat / 64 = 2 then 1 else 0 := by
  have h1 : b = 0xFE ↔ b.toNat = 0xFE := by rw [← BitVec.toNat_inj]; rfl
  have h2 : b = 0xFF ↔ b.toNat = 0xFF := by rw [← BitVec.toNat_inj]; rfl
  have h3 := bitField_eq b 6 2
  have hb := b.isLt
  have h4 : b.toNat / 2 ^ 6 % 2 ^ 2 = b.toNat / 64 := by omega
  simp only [payloadLength, h1, h2, h3, h4]

/-- A chunk's encoding has at least one byte. -/
theorem encode_ne_nil (i : Instr) : encode i ≠ [] := by cases i <;> exact List.cons_ne_nil _ _

namespace Machine

/-- One byte of a word. -/
theorem extractByte_toNat (v : BitVec 32) (k : Nat) : (v.extractLsb' k 8).toNat = v.toNat / 2 ^ k % 256 := by
  rw [BitVec.extractLsb'_toNat, Nat.shiftRight_eq_div_pow]

/-- `unbe32` as a number. -/
theorem unbe32_toNat (a b c d : Byte) :
    (unbe32 a b c d).toNat = a.toNat * 16777216 + b.toNat * 65536 + c.toNat * 256 + d.toNat := by
  have := a.isLt; have := b.isLt; have := c.isLt; have := d.isLt
  unfold unbe32
  rw [BitVec.toNat_ofNat]
  norm_num
  omega

theorem digits_sum (n : Nat) (h : n < 4294967296) :
    n / 16777216 % 256 * 16777216 + n / 65536 % 256 * 65536 + n / 256 % 256 * 256 + n % 256 = n := by omega

theorem sum_digits (a b c d : Nat) (h1 : a < 256) (h2 : b < 256) (h3 : c < 256) (h4 : d < 256) :
    (a * 16777216 + b * 65536 + c * 256 + d) / 16777216 % 256 = a ∧
    (a * 16777216 + b * 65536 + c * 256 + d) / 65536 % 256 = b ∧
    (a * 16777216 + b * 65536 + c * 256 + d) / 256 % 256 = c ∧
    (a * 16777216 + b * 65536 + c * 256 + d) % 256 = d := by omega

/-- `unbe32` of the bytes of `be32 v` is `v` (R66). -/
theorem unbe32_be32 (v : BitVec 32) :
    unbe32 (v.extractLsb' 24 8) (v.extractLsb' 16 8) (v.extractLsb' 8 8) (v.extractLsb' 0 8) = v := by
  apply BitVec.eq_of_toNat_eq
  have h : v.toNat < 4294967296 := by have := v.isLt; omega
  have h0 : (v.extractLsb' 24 8).toNat = v.toNat / 16777216 % 256 := extractByte_toNat v 24
  have h1 : (v.extractLsb' 16 8).toNat = v.toNat / 65536 % 256 := extractByte_toNat v 16
  have h2 : (v.extractLsb' 8 8).toNat = v.toNat / 256 % 256 := extractByte_toNat v 8
  have h3 : (v.extractLsb' 0 8).toNat = v.toNat % 256 := by rw [extractByte_toNat, Nat.pow_zero, Nat.div_one]
  rw [unbe32_toNat, h0, h1, h2, h3]
  exact digits_sum _ h

/-- `be32` of `unbe32` gives the four bytes back (R66). -/
theorem be32_unbe32 (a b c d : Byte) : be32 (unbe32 a b c d) = [a, b, c, d] := by
  obtain ⟨h1, h2, h3, h4⟩ := sum_digits a.toNat b.toNat c.toNat d.toNat a.isLt b.isLt c.isLt d.isLt
  rw [← unbe32_toNat] at h1 h2 h3 h4
  have e1 : (unbe32 a b c d).extractLsb' 24 8 = a := BitVec.eq_of_toNat_eq ((extractByte_toNat _ 24).trans h1)
  have e2 : (unbe32 a b c d).extractLsb' 16 8 = b := BitVec.eq_of_toNat_eq ((extractByte_toNat _ 16).trans h2)
  have e3 : (unbe32 a b c d).extractLsb' 8 8 = c := BitVec.eq_of_toNat_eq ((extractByte_toNat _ 8).trans h3)
  have e4 : (unbe32 a b c d).extractLsb' 0 8 = d :=
    BitVec.eq_of_toNat_eq (by rw [extractByte_toNat, Nat.pow_zero, Nat.div_one]; exact h4)
  rw [be32, e1, e2, e3, e4]

/-- `wrap8` as a number. -/
theorem wrap8_toNat (v : Int) : ((wrap8 v).toNat : Int) = v % 256 := by
  unfold wrap8
  rw [BitVec.toNat_ofInt]
  norm_num
  omega

end Machine
end Sys2Proof
end

