-- ==== Sys2Proof/Laws/Encoder.lean ====
section
/-! SUPPORT. The mux inverted once: the chunk of each case of the big-step form, and that `enc_pixel` is the effect of that
form on the encoder's rolling state, its chunks appended to the output. -/

namespace Sys2Proof.Machine

/-! ### The big-step form, case by case -/

section
variable {r : Rolling} {px : Pixel}

theorem changeChunk_hit (h : r.cache.lookup (pixelHash px) = px) : changeChunk r px = .index (pixelHash px) := by
  unfold changeChunk; rw [if_pos h]

theorem changeChunk_diff (h : r.cache.lookup (pixelHash px) ≠ px) (ok : diffOk px r.prev) :
    changeChunk r px = .diff (deltas px r.prev).dr (deltas px r.prev).dg (deltas px r.prev).db := by
  unfold changeChunk; rw [if_neg h, if_pos ok]

theorem changeChunk_luma (h : r.cache.lookup (pixelHash px) ≠ px) (no : ¬ diffOk px r.prev) (ok : lumaOk px r.prev) :
    changeChunk r px = .luma (deltas px r.prev).dg ((deltas px r.prev).dr - (deltas px r.prev).dg)
      ((deltas px r.prev).db - (deltas px r.prev).dg) := by
  unfold changeChunk; rw [if_neg h, if_neg no, if_pos ok]

theorem changeChunk_rgb (h : r.cache.lookup (pixelHash px) ≠ px) (nd : ¬ diffOk px r.prev) (nl : ¬ lumaOk px r.prev)
    (ok : alphaSame px r.prev) : changeChunk r px = .rgb px.r px.g px.b := by
  unfold changeChunk; rw [if_neg h, if_neg nd, if_neg nl, if_pos ok]

theorem changeChunk_rgba (h : r.cache.lookup (pixelHash px) ≠ px) (no : ¬ alphaSame px r.prev) :
    changeChunk r px = .rgba px.r px.g px.b px.a := by
  unfold changeChunk; rw [if_neg h, if_neg fun d => no d.1, if_neg fun d => no d.1, if_neg no]

theorem changeCache_hit {cache : Cache} (h : cache.lookup (pixelHash px) = px) : changeCache cache px = cache := by
  unfold changeCache; rw [if_pos h]

theorem changeCache_miss {cache : Cache} (h : cache.lookup (pixelHash px) ≠ px) : changeCache cache px = cache.store px := by
  unfold changeCache; rw [if_neg h]

theorem encodeStep_flush {isLast : Bool} (h : px = r.prev) (hf : r.run + 1 = 62 ∨ isLast = true) :
    r.encodeStep px isLast = ([.run (r.run + 1)], { r with run := 0 }) := by
  unfold Rolling.encodeStep Config.runMax; rw [if_pos h, if_pos hf]; rfl

theorem encodeStep_count {isLast : Bool} (h : px = r.prev) (hf : ¬ (r.run + 1 = 62 ∨ isLast = true)) :
    r.encodeStep px isLast = ([], { r with run := r.run + 1 }) := by
  unfold Rolling.encodeStep Config.runMax; rw [if_pos h, if_neg hf]

theorem encodeStep_change {isLast : Bool} (h : px ≠ r.prev) :
    r.encodeStep px isLast = (runChunk r.run ++ [changeChunk r px], ⟨px, 0, changeCache r.cache px⟩) := by
  unfold Rolling.encodeStep; rw [if_neg h]

end

/-! ### The engine -/

/-- The encoder's rolling state. -/
def Enc.rolling (e : Enc) : Rolling := ⟨e.prev, e.run.toNat, e.cache⟩

@[simp] theorem Enc.rolling_prev (e : Enc) : e.rolling.prev = e.prev := rfl
@[simp] theorem Enc.rolling_run (e : Enc) : e.rolling.run = e.run.toNat := rfl
@[simp] theorem Enc.rolling_cache (e : Enc) : e.rolling.cache = e.cache := rfl

/-- The encoder after `bytes` are emitted and its rolling registers are those of `r`. -/
def Enc.became (e : Enc) (bytes : List Byte) (r : Rolling) : Enc :=
  { e.emit bytes with prev := r.prev, run := BitVec.ofNat 6 r.run, cache := r.cache }

@[simp] theorem chunkBytes_nil : chunkBytes [] = [] := rfl
@[simp] theorem chunkBytes_singleton (i : Instr) : chunkBytes [i] = encode i := by simp [chunkBytes]
theorem chunkBytes_append (xs ys : List Instr) : chunkBytes (xs ++ ys) = chunkBytes xs ++ chunkBytes ys := by
  simp [chunkBytes]

theorem runChunk_zero : runChunk 0 = [] := rfl
theorem runChunk_pos {n : Nat} (h : n ≠ 0) : runChunk n = [.run n] := by unfold runChunk; rw [if_neg h]

/-- A pending run's chunk is at most one byte. -/
theorem chunkBytes_runChunk_length (n : Nat) : (chunkBytes (runChunk n)).length ≤ 1 := by
  by_cases h : n = 0
  · simp [h, runChunk_zero]
  · rw [runChunk_pos h, chunkBytes_singleton]; exact le_refl _

/-- A counter is 0 exactly when nothing is pending. -/
theorem Enc.runPending_iff (e : Enc) : e.runPending ↔ e.run.toNat ≠ 0 := by
  unfold Enc.runPending
  rw [BitVec.lt_def, show (0 : BitVec 6).toNat = 0 from rfl, Nat.pos_iff_ne_zero]

theorem Enc.flushPending_eq (e : Enc) :
    e.flushPending = { e.emit (chunkBytes (runChunk e.run.toNat)) with run := 0 } := by
  unfold Enc.flushPending
  by_cases h : e.run.toNat = 0
  · have h0 : e.run = 0 := BitVec.eq_of_toNat_eq h
    rw [if_neg (fun hp => (e.runPending_iff.mp hp) h), h, runChunk_zero, chunkBytes_nil, Enc.emit_nil, ← h0]
  · rw [if_pos (e.runPending_iff.mpr h), runChunk_pos h, chunkBytes_singleton]; rfl

/-- A miss: the pixel stored, then the chunk of the first opcode that applies. -/
theorem Enc.encodeMiss_eq (e : Enc) (px : Pixel) (hmiss : ¬ e.cacheHit px) :
    e.encodeMiss px = { e.emit (encode (changeChunk e.rolling px)) with cache := e.cache.store px } := by
  unfold Enc.encodeMiss
  by_cases ha : alphaSame px e.prev
  · rw [if_pos ha]
    by_cases hd : (deltas px e.prev).fitDiff
    · rw [if_pos hd, changeChunk_diff (r := e.rolling) hmiss ⟨ha, hd⟩]; rfl
    · rw [if_neg hd]
      by_cases hl : (deltas px e.prev).fitLuma
      · rw [if_pos hl, changeChunk_luma (r := e.rolling) hmiss (fun h => hd h.2) ⟨ha, hl⟩]; rfl
      · rw [if_neg hl, changeChunk_rgb (r := e.rolling) hmiss (fun h => hd h.2) (fun h => hl h.2) ha]; rfl
  · rw [if_neg ha, changeChunk_rgba (r := e.rolling) hmiss ha]; rfl

/-- A differing pixel: a pending run's byte, then its chunk, in one emission. -/
theorem Enc.encodeChange_eq (e : Enc) (px : Pixel) (hlen : e.outlen.toNat + 6 < 2 ^ 67) :
    e.encodeChange px = e.became (chunkBytes (runChunk e.run.toNat) ++ encode (changeChunk e.rolling px))
      ⟨px, 0, changeCache e.cache px⟩ := by
  have hfl := chunkBytes_runChunk_length e.run.toNat
  unfold Enc.encodeChange
  simp only [Enc.flushPending_eq]
  generalize chunkBytes (runChunk e.run.toNat) = fl at hfl ⊢
  unfold Enc.became
  rw [← Enc.emit_append e fl _ (by omega)]
  by_cases hh : e.cacheHit px
  · rw [if_pos (show Enc.cacheHit { e.emit fl with run := 0 } px from hh), changeChunk_hit (r := e.rolling) hh,
      changeCache_hit hh]
    rfl
  · rw [if_neg (show ¬ Enc.cacheHit { e.emit fl with run := 0 } px from hh),
      Enc.encodeMiss_eq _ _ (show ¬ Enc.cacheHit { e.emit fl with run := 0 } px from hh), changeCache_miss hh]
    rfl

/-- The full test on the counter's number. -/
theorem Enc.runFull_iff (e : Enc) (hrun : e.run.toNat ≤ 61) : e.runFull ↔ e.run.toNat + 1 = 62 := by
  have h1 : (e.run + 1).toNat = e.run.toNat + 1 := by
    rw [BitVec.toNat_add, show (1 : BitVec 6).toNat = 1 from rfl, Nat.mod_eq_of_lt (by omega)]
  unfold Enc.runFull
  rw [← BitVec.toNat_inj, h1]
  rfl

/-- The last-pixel test on the indexes' numbers. -/
theorem Enc.lastPixel_iff (e : Enc) (hpos : e.pos < e.n) : e.lastPixel ↔ e.pos.toNat + 1 = e.n.toNat := by
  have h2 := e.n.isLt
  rw [BitVec.lt_def] at hpos
  unfold Enc.lastPixel
  rw [← BitVec.toNat_inj, BitVec.toNat_sub, show (1 : BitVec 64).toNat = 1 from rfl]
  omega

/-- `enc_pixel` appends the chunks of the big-step form and takes its rolling state, while the output cursor does not
wrap and the run counter is one a step leaves. -/
theorem Enc.encodePixel_eq (e : Enc) (hlen : e.outlen.toNat + 6 < 2 ^ 67) (hrun : e.run.toNat ≤ 61) (hpos : e.pos < e.n) :
    e.encodePixel =
      { e.became (chunkBytes (e.rolling.encodeStep e.fetchPixel (decide (e.pos.toNat + 1 = e.n.toNat))).1)
          (e.rolling.encodeStep e.fetchPixel (decide (e.pos.toNat + 1 = e.n.toNat))).2 with pos := e.pos + 1 } := by
  unfold Enc.encodePixel
  by_cases hm : e.fetchPixel = e.prev
  · simp only [if_pos (show e.matchPrev e.fetchPixel from hm)]
    have h1 : e.run + 1 = BitVec.ofNat 6 (e.run.toNat + 1) := by simp [BitVec.ofNat_add]
    have h1' : (e.run + 1).toNat = e.run.toNat + 1 := by
      rw [BitVec.toNat_add, show (1 : BitVec 6).toNat = 1 from rfl, Nat.mod_eq_of_lt (by omega)]
    unfold Enc.accumulate
    by_cases hc : e.runFull ∨ e.lastPixel
    · have hc' : e.rolling.run + 1 = 62 ∨ decide (e.pos.toNat + 1 = e.n.toNat) = true :=
        hc.imp (e.runFull_iff hrun).mp fun h => by simpa using (e.lastPixel_iff hpos).mp h
      rw [encodeStep_flush (r := e.rolling) hm hc', if_pos hc, chunkBytes_singleton]
      unfold flushRun Enc.became
      rw [h1', Enc.rolling_run]
      rfl
    · have hc' : ¬ (e.rolling.run + 1 = 62 ∨ decide (e.pos.toNat + 1 = e.n.toNat) = true) := fun h =>
        hc (h.imp (e.runFull_iff hrun).mpr fun h => (e.lastPixel_iff hpos).mpr (by simpa using h))
      rw [encodeStep_count (r := e.rolling) hm hc', if_neg hc, chunkBytes_nil]
      unfold Enc.became
      rw [Enc.emit_nil, h1]
      rfl
  · simp only [if_neg (show ¬ e.matchPrev e.fetchPixel from hm)]
    rw [Enc.encodeChange_eq e _ hlen, encodeStep_change (r := e.rolling) hm, chunkBytes_append, chunkBytes_singleton]
    rfl

end Sys2Proof.Machine
end

