-- ==== Sys2Proof/Laws/Exec.lean ====
section
/-! SUPPORT. Execution inverted once: what an opcode does to the decoder, and which agent's step a step is. -/

namespace Sys2Proof.Machine

/-- The decoder after an opcode, before the pixel is put out. -/
def Dec.executed (d : Dec) : Instr → Dec
  | .index slot => (d.advance 1).setCur (d.cache.lookup slot)
  | .diff dr dg db => (d.advance 1).resolve (diffPixel d.cur dr dg db)
  | .luma dg drDg dbDg => (d.advance 2).resolve (lumaPixel d.cur dg drDg dbDg)
  | .run n => { d.advance 1 with run := replaysOwed n }
  | .rgb r g b => (d.advance 4).resolve (rgbPixel d.cur r g b)
  | .rgba r g b a => (d.advance 5).resolve ⟨r, g, b, a⟩

/-- Every opcode answers a next state: its effect on the decoder, then one pixel put out. -/
theorem exec_eq (i : Instr) (s : State) : exec i s = .next { s with dec := (s.dec.executed i).producePixel } := by
  cases i <;> rfl

/-- What no opcode touches before the pixel is put out. -/
theorem Dec.executed_frame (d : Dec) (i : Instr) :
    (d.executed i).ctl = d.ctl ∧ (d.executed i).req = d.req ∧ (d.executed i).inlen = d.inlen ∧
    (d.executed i).hdr = d.hdr ∧ (d.executed i).oc = d.oc ∧ (d.executed i).n = d.n ∧ (d.executed i).k = d.k ∧
    (d.executed i).wc = d.wc ∧ (d.executed i).input = d.input ∧ (d.executed i).out = d.out ∧
    (d.executed i).rp = d.rp + BitVec.ofNat 64 i.length := by
  cases i <;> exact ⟨rfl, rfl, rfl, rfl, rfl, rfl, rfl, rfl, rfl, rfl, rfl⟩

/-! ### Whose step it is -/

theorem machineStep_host (s : State) (h : s.mover = .host) : machineStep s = hostStep s.takeTurn := by
  simp [machineStep, h, agentStep]

theorem machineStep_enc (s : State) (h : s.mover = .enc) :
    machineStep s = .next { s.takeTurn with enc := s.enc.step } := by
  simp [machineStep, h, agentStep, encStep]

theorem machineStep_dec (s : State) (h : s.mover = .dec) : machineStep s = decStep s.takeTurn := by
  simp [machineStep, h, agentStep]

/-- HOST's step, where it has a command: the command, on the state with turn and command taken. -/
theorem machineStep_command (s : State) (c : HostCmd) (h : s.mover = .host) (hc : s.cmds.head? = some c) :
    machineStep s = State.command { s with sched := s.sched.tail, cmds := s.cmds.tail } c := by
  rw [machineStep_host s h]
  cases hs : s.cmds with
  | nil => simp [hs] at hc
  | cons c' rest =>
    simp only [hs, List.head?_cons, Option.some.injEq] at hc
    subst hc
    simp [hostStep, hs, State.takeTurn]

/-- The decoder's step is one of four: replay, fetch and execute, finish, or nothing. -/
theorem decStep_cases (s : State) :
    (s.dec.pixelEnabled ∧ 0 < s.dec.run ∧ decStep s = .next { s with dec := s.dec.replay }) ∨
    (s.dec.pixelEnabled ∧ s.dec.run = 0 ∧ decStep s = decFetchPixel s) ∨
    (s.dec.finishEnabled ∧ decStep s = .next { s with dec := s.dec.finish }) ∨
    (¬ s.dec.pixelEnabled ∧ ¬ s.dec.finishEnabled ∧ decStep s = .next s) := by
  unfold decStep decPixel Dec.replaying
  by_cases h1 : s.dec.pixelEnabled
  · by_cases h2 : 0 < s.dec.run
    · exact .inl ⟨h1, h2, by rw [if_pos h1, if_pos h2]⟩
    · refine .inr (.inl ⟨h1, ?_, by rw [if_pos h1, if_neg h2]⟩)
      have := s.dec.run.isLt
      rw [BitVec.lt_def] at h2
      exact BitVec.eq_of_toNat_eq (by simpa using h2)
  · by_cases h2 : s.dec.finishEnabled
    · exact .inr (.inr (.inl ⟨h2, by rw [if_neg h1, if_pos h2]⟩))
    · exact .inr (.inr (.inr ⟨h1, h2, by rw [if_neg h1, if_neg h2]⟩))

/-- A fetching step executes the decoded opcode or ends in TRUNCATED_STREAM. -/
theorem decFetchPixel_cases (s : State) :
    (∃ bytes i rest, s.dec.fetchChunk = some bytes ∧ decode bytes = .ok (i, rest) ∧ decFetchPixel s = exec i s) ∨
    decFetchPixel s = .next { s with dec := s.dec.truncated } := by
  unfold decFetchPixel
  cases hf : s.dec.fetchChunk with
  | none => exact .inr rfl
  | some bytes =>
    cases hd : decode bytes with
    | error e => cases e; exact .inr (by simp [hd])
    | ok p => exact .inl ⟨bytes, p.1, p.2, rfl, hd, by simp [hd]⟩

/-- The decoder after its next step, as a function of the decoder alone. -/
def Dec.stepped (d : Dec) : Dec :=
  if d.pixelEnabled then
    if d.replaying then d.replay
    else
      match d.fetchChunk with
      | none => d.truncated
      | some bytes =>
        match decode bytes with
        | .error .truncatedChunk => d.truncated
        | .ok (i, _) => (d.executed i).producePixel
  else if d.finishEnabled then d.finish
  else d

/-- The decoder's step always answers a next state, and it depends on nothing but the decoder. -/
theorem decStep_eq (s : State) : decStep s = .next { s with dec := s.dec.stepped } := by
  unfold decStep decPixel decFetchPixel Dec.stepped
  by_cases hp : s.dec.pixelEnabled
  · by_cases hr : s.dec.replaying
    · rw [if_pos hp, if_pos hr, if_pos hp, if_pos hr]
    · rw [if_pos hp, if_neg hr, if_pos hp, if_neg hr]
      cases hf : s.dec.fetchChunk with
      | none => rfl
      | some bytes =>
        cases hd : decode bytes with
        | error e => cases e; simp only [hd]
        | ok q => simpa only [hd] using exec_eq q.1 s
  · rw [if_neg hp, if_neg hp]
    split <;> rfl

/-- The decoder's next step, case by case. -/
theorem Dec.stepped_cases (d : Dec) :
    (d.pixelEnabled ∧ 0 < d.run ∧ d.stepped = d.replay) ∨
    (d.pixelEnabled ∧ d.run = 0 ∧ d.fetchChunk = none ∧ d.stepped = d.truncated) ∨
    (d.pixelEnabled ∧ d.run = 0 ∧ ∃ bytes i rest, d.fetchChunk = some bytes ∧ decode bytes = .ok (i, rest) ∧
      d.stepped = (d.executed i).producePixel) ∨
    (d.pixelEnabled ∧ d.run = 0 ∧ (∃ bytes, d.fetchChunk = some bytes ∧ decode bytes = .error .truncatedChunk) ∧
      d.stepped = d.truncated) ∨
    (d.finishEnabled ∧ d.stepped = d.finish) ∨
    (¬ d.pixelEnabled ∧ ¬ d.finishEnabled ∧ d.stepped = d) := by
  have hfin : d.finishEnabled → ¬ d.pixelEnabled := fun h p => by
    have := p.2; rw [h.2] at this; exact absurd this (BitVec.lt_irrefl _)
  unfold Dec.stepped
  by_cases h1 : d.pixelEnabled
  · by_cases h2 : d.replaying
    · exact .inl ⟨h1, h2, by rw [if_pos h1, if_pos h2]⟩
    · have hz : d.run = 0 := by
        unfold Dec.replaying at h2
        rw [BitVec.lt_def] at h2
        exact BitVec.eq_of_toNat_eq (by simpa using h2)
      rw [if_pos h1, if_neg h2]
      cases hf : d.fetchChunk with
      | none => exact .inr (.inl ⟨h1, hz, rfl, rfl⟩)
      | some bytes =>
        cases hd : decode bytes with
        | error e => cases e; exact .inr (.inr (.inr (.inl ⟨h1, hz, ⟨bytes, rfl, hd⟩, by simp only [hd]⟩)))
        | ok p => exact .inr (.inr (.inl ⟨h1, hz, bytes, p.1, p.2, rfl, hd, by simp only [hd]⟩))
  · by_cases h2 : d.finishEnabled
    · exact .inr (.inr (.inr (.inr (.inl ⟨h2, by rw [if_neg h1, if_pos h2]⟩))))
    · exact .inr (.inr (.inr (.inr (.inr ⟨h1, h2, by rw [if_neg h1, if_neg h2]⟩))))

/-- Everything a step that answers a next state can be: HOST with nothing to do, a command of HOST, a step of the encoder,
a step of the decoder. -/
theorem machineStep_cases (s t : State) (h : machineStep s = .next t) :
    (s.mover = .host ∧ s.cmds = [] ∧ t = s.takeTurn) ∨
    (s.mover = .host ∧ ∃ c, s.cmds.head? = some c ∧
      State.command { s with sched := s.sched.tail, cmds := s.cmds.tail } c = .next t) ∨
    (s.mover = .enc ∧ t = { s.takeTurn with enc := s.enc.step }) ∨
    (s.mover = .dec ∧ t = { s.takeTurn with dec := s.dec.stepped }) := by
  cases hm : s.mover with
  | host =>
    cases hc : s.cmds with
    | nil =>
      rw [machineStep_host s hm, hostStep, show s.takeTurn.cmds = [] from hc] at h
      exact .inl ⟨rfl, rfl, by injection h with h; exact h.symm⟩
    | cons c rest =>
      rw [machineStep_command s c hm (by rw [hc]; rfl)] at h
      exact .inr (.inl ⟨rfl, c, rfl, by rw [← hc]; exact h⟩)
  | enc =>
    rw [machineStep_enc s hm] at h
    exact .inr (.inr (.inl ⟨rfl, by injection h with h; exact h.symm⟩))
  | dec =>
    rw [machineStep_dec s hm, decStep_eq] at h
    exact .inr (.inr (.inr ⟨rfl, by injection h with h; exact h.symm⟩))

end Sys2Proof.Machine
end

