-- ==== Sys2Proof/Laws/PerInstr.lean ====
section
/-! SUPPORT. Statements made of every instruction as syntax, one lemma per constructor. -/

namespace Sys2Proof.Laws.EncodeLength

/-- The encoding of an instruction has as many bytes as the table of spec/30_encoding.md R92 gives its opcode, well formed or
not. -/
def Statement (i : Instr) : Prop := (encode i).length = i.length

theorem index (slot : Fin 64) : Statement (.index slot) := rfl

theorem diff (dr dg db : Int) : Statement (.diff dr dg db) := rfl

theorem luma (dg drDg dbDg : Int) : Statement (.luma dg drDg dbDg) := rfl

theorem run (n : Nat) : Statement (.run n) := rfl

theorem rgb (r g b : Byte) : Statement (.rgb r g b) := rfl

theorem rgba (r g b a : Byte) : Statement (.rgba r g b a) := rfl

end Sys2Proof.Laws.EncodeLength
end

