-- ==== Sys2Proof/Laws/Pixel.lean ====
section
/-! SUPPORT. What putting a pixel out does to the decoder, said once for the six opcodes and the replay. -/

namespace Sys2Proof.Machine

/-- Bytes read in a row are bytes that stand there. -/
theorem Memory.holds_iff (m : Memory) (a : Nat) (bytes : List Byte) :
    m.Holds a bytes ↔ m.readBytes a bytes.length = bytes := (m.readBytes_eq_iff a bytes).symm

/-- A decoder that differs from `d` in nothing output depends on puts its current pixel out as one pixel of `d`'s. -/
theorem Dec.producePixel_produced (d d1 : Dec) (h1 : d1.oc = d.oc) (h2 : d1.hdr = d.hdr) (h3 : d1.out = d.out)
    (h4 : d1.wc = d.wc) (h5 : d1.k = d.k) : d.Produced d1.producePixel d1.cur := by
  have ho : d1.producePixel.out = d.out.writeBytes d.wc.toNat (outputBytes d.oc d.hdr.channels d1.cur) := by
    simp only [Dec.producePixel, Dec.outputPixel, h1, h2, h3, h4]
  have hl := outputBytes_length d.oc d.hdr.channels d1.cur
  unfold Dec.Produced
  rw [ho]
  refine ⟨?_, ?_, ?_, ?_, ?_⟩
  · intro j hj
    have hj3 : j < 3 := hj
    rw [Memory.read_writeBytes_inside _ _ _ j (by rw [hl]; split <;> omega)]
    unfold outputBytes
    rcases j with _ | _ | _ | j
    · split_ifs <;> rfl
    · split_ifs <;> rfl
    · split_ifs <;> rfl
    · omega
  · intro g1 g2
    rw [if_neg g1] at hl
    rw [Memory.read_writeBytes_inside _ _ _ 3 (by omega)]
    simp only [outputBytes, if_neg g1, if_pos g2]
    rfl
  · intro x hx
    rw [← hl] at hx
    exact Memory.read_writeBytes_outside _ _ _ _ hx
  · simp only [Dec.producePixel, Dec.outputPixel, h1, h4]
  · simp only [Dec.producePixel, h5]

end Sys2Proof.Machine
end

