-- ==== Sys2Proof/Laws/Run.lean ====
section
/-! SUPPORT. Runs of several steps, one step at a time, and who moves when only one engine has anything to do. -/

namespace Sys2Proof.Machine

/-- A run whose first step answers a next state goes on from there. -/
theorem run_succ (k : Nat) (s t : State) (h : step s = .next t) :
    Sys2Proof.core.run (k + 1) s = Sys2Proof.core.run k t := by
  simp only [Host.Core.run]
  rw [show Sys2Proof.core.step s = .next t from h]

@[simp] theorem run_zero (s : State) : Sys2Proof.core.run 0 s = .next s := by
  simp only [Host.Core.run]

/-- A run in two parts. -/
theorem run_add (j k : Nat) (s t : State) (h : Sys2Proof.core.run j s = .next t) :
    Sys2Proof.core.run (j + k) s = Sys2Proof.core.run k t := by
  induction j generalizing s with
  | zero =>
    rw [run_zero] at h
    injection h with h
    rw [Nat.zero_add, h]
  | succ j ih =>
    rw [show j + 1 + k = (j + k) + 1 by omega]
    cases hs : step s with
    | next u =>
      rw [run_succ _ _ _ hs] at h ⊢
      exact ih u h
    | fault r =>
      simp only [Host.Core.run] at h
      rw [show Sys2Proof.core.step s = .fault r from hs] at h
      exact absurd h nofun
    | refused r =>
      simp only [Host.Core.run] at h
      rw [show Sys2Proof.core.step s = .refused r from hs] at h
      exact absurd h nofun

/-- An engine that is not BUSY has no step. -/
theorem Dec.notBusy_idle (d : Dec) (h : d.ctl.status ≠ .busy) : ¬ (d.pixelEnabled ∨ d.finishEnabled) := by
  rintro (h' | h') <;> exact h h'.1

theorem Enc.notBusy_idle (e : Enc) (h : e.ctl.status ≠ .busy) : ¬ (e.pixelEnabled ∨ e.finishEnabled) := by
  rintro (h' | h') <;> exact h h'.1

/-- With no schedule, a decoder that has a step takes it. -/
theorem step_dec_alone (s : State) (hs : s.sched = []) (hd : s.dec.pixelEnabled ∨ s.dec.finishEnabled) :
    step s = .next { s with dec := s.dec.stepped } := by
  have hm : s.mover = .dec := by
    unfold State.mover
    rw [hs]
    exact if_pos hd
  rw [step, machineStep_dec s hm, decStep_eq]
  unfold State.takeTurn
  rw [hs, List.tail_nil, ← hs]

/-- With no schedule and no busy decoder, an encoder that has a step takes it. -/
theorem step_enc_alone (s : State) (hs : s.sched = []) (hd : s.dec.ctl.status ≠ .busy)
    (he : s.enc.pixelEnabled ∨ s.enc.finishEnabled) : step s = .next { s with enc := s.enc.step } := by
  have hm : s.mover = .enc := by
    unfold State.mover
    rw [hs]
    dsimp only
    rw [if_neg (Dec.notBusy_idle _ hd), if_pos he]
  rw [step, machineStep_enc s hm]
  unfold State.takeTurn
  rw [hs, List.tail_nil, ← hs]

/-- With no schedule and no busy engine, HOST moves. -/
theorem mover_host (s : State) (hs : s.sched = []) (hd : s.dec.ctl.status ≠ .busy) (he : s.enc.ctl.status ≠ .busy) :
    s.mover = .host := by
  unfold State.mover
  rw [hs]
  dsimp only
  rw [if_neg (Dec.notBusy_idle _ hd), if_neg (Enc.notBusy_idle _ he)]

/-- Where nothing is left to do, nothing changes. -/
theorem step_idle (s : State) (hs : s.sched = []) (hc : s.cmds = []) (hd : s.dec.ctl.status ≠ .busy)
    (he : s.enc.ctl.status ≠ .busy) : step s = .next s := by
  rw [step, machineStep_host s (mover_host s hs hd he), hostStep, show s.takeTurn.cmds = [] from hc]
  unfold State.takeTurn
  rw [hs, List.tail_nil, ← hs]

theorem run_idle (k : Nat) (s : State) (hs : s.sched = []) (hc : s.cmds = []) (hd : s.dec.ctl.status ≠ .busy)
    (he : s.enc.ctl.status ≠ .busy) : Sys2Proof.core.run k s = .next s := by
  induction k with
  | zero => exact run_zero s
  | succ k ih => rw [run_succ _ _ _ (step_idle s hs hc hd he)]; exact ih

end Sys2Proof.Machine
end

