-- ==== Sys2Proof/Tests/Slice0.lean ====
section
/-! SUPPORT. Tests of the model on the spec's own examples and vectors (spec/95_test_vectors.md), the smoke test of
well-formedness, and for every statement that has hypotheses a concrete state that meets them. -/

open Sys2Proof Sys2Proof.Machine

namespace Sys2Proof.Tests

/-! ### Well-formedness: one ill-formed term for each check -/

theorem test_wellFormed_refuses_ill_formed_terms :
    (Instr.diff (-3) 0 0).wellFormed = false ∧ (Instr.diff 2 0 0).wellFormed = false ∧
    (Instr.diff 0 (-3) 0).wellFormed = false ∧ (Instr.diff 0 2 0).wellFormed = false ∧
    (Instr.diff 0 0 (-3)).wellFormed = false ∧ (Instr.diff 0 0 2).wellFormed = false ∧
    (Instr.luma (-33) 0 0).wellFormed = false ∧ (Instr.luma 32 0 0).wellFormed = false ∧
    (Instr.luma 0 (-9) 0).wellFormed = false ∧ (Instr.luma 0 8 0).wellFormed = false ∧
    (Instr.luma 0 0 (-9)).wellFormed = false ∧ (Instr.luma 0 0 8).wellFormed = false ∧
    (Instr.run 0).wellFormed = false ∧ (Instr.run 63).wellFormed = false := by decide

theorem test_wellFormed_accepts_the_corners :
    (Instr.index 0).wellFormed = true ∧ (Instr.index 63).wellFormed = true ∧
    (Instr.diff (-2) (-2) (-2)).wellFormed = true ∧ (Instr.diff 1 1 1).wellFormed = true ∧
    (Instr.luma (-32) (-8) (-8)).wellFormed = true ∧ (Instr.luma 31 7 7).wellFormed = true ∧
    (Instr.run 1).wellFormed = true ∧ (Instr.run 62).wellFormed = true ∧
    (Instr.rgb 0 0 0).wellFormed = true ∧ (Instr.rgba 0 0 0 0).wellFormed = true := by decide

/-! ### Decoding: words written bit by bit from the formats R93 to R98 -/

/-- R93: `00` and the slot, `110001` = 49. -/
theorem test_decode_index : decode [0b00110001] = .ok (.index 49, []) := by decide

/-- R94: `01`, then 11 (1), 10 (0), 01 (-1): the three fields are not interchangeable. -/
theorem test_decode_diff : decode [0b01111001] = .ok (.diff 1 0 (-1), []) := by decide

/-- R95: `10` and 101100 (12); then 0110 (-2) and 0111 (-1). -/
theorem test_decode_luma : decode [0b10101100, 0b01100111] = .ok (.luma 12 (-2) (-1), []) := by decide

/-- R96: `11` and the field, one less than the pixels: 000001 is 2 pixels, 111101 is 62. -/
theorem test_decode_run : decode [0b11000001] = .ok (.run 2, []) ∧ decode [0b11111101] = .ok (.run 62, []) := by decide

/-- R97: the eight bits `11111110`, then red, green, blue. -/
theorem test_decode_rgb : decode [0b11111110, 1, 2, 3] = .ok (.rgb 1 2 3, []) := by decide

/-- R98: the eight bits `11111111`, then red, green, blue, alpha. -/
theorem test_decode_rgba : decode [0b11111111, 1, 2, 3, 4] = .ok (.rgba 1 2 3 4, []) := by decide

/-- A cut chunk is the one thing the decoder rejects (R104, V46, V48). -/
theorem test_decode_rejects_cut_chunks :
    decode [] = .error .truncatedChunk ∧ decode [0xA0] = .error .truncatedChunk ∧
    decode [0xFE, 1, 2] = .error .truncatedChunk ∧ decode [0xFF, 1, 2, 3] = .error .truncatedChunk := by decide

/-- One word for each row of opcode_table.json, bit 0 the least significant bit of the first byte. -/
theorem test_table_words_decode :
    decodeTableWord 8 0x31 = some (.index 49) ∧ decodeTableWord 8 0x79 = some (.diff 1 0 (-1)) ∧
    decodeTableWord 16 0x67AC = some (.luma 12 (-2) (-1)) ∧ decodeTableWord 8 0xC0 = some (.run 1) ∧
    decodeTableWord 8 0xE5 = some (.run 38) ∧ decodeTableWord 8 0xF2 = some (.run 51) ∧
    decodeTableWord 8 0xF9 = some (.run 58) ∧ decodeTableWord 8 0xFD = some (.run 62) ∧
    decodeTableWord 32 0x3264C8FE = some (.rgb 200 100 50) ∧
    decodeTableWord 40 0x803264C8FF = some (.rgba 200 100 50 128) := by decide

/-! ### One step: the decoder -/

/-- The next state of an outcome. -/
def nextOf (o : Host.Outcome State Fault Refusal) : Option State :=
  match o with
  | .next s => some s
  | .fault _ => none
  | .refused _ => none

/-- A decoder in a running transaction of 2 pixels, 4 channels, at offset 14, with current pixel `cur`, the cache `cache` and
the bytes of a chunk. -/
def decAt (cur : Pixel) (cache : Cache) (bytes : List Byte) : State :=
  { State.reset with
    dec := { Dec.reset with
      ctl := ⟨.busy, Err.clear⟩
      req := ⟨BitVec.ofNat 64 (14 + bytes.length), 0⟩
      inlen := BitVec.ofNat 64 (14 + bytes.length)
      hdr := ⟨2, 1, 4, 0⟩
      oc := 4
      n := 2
      rp := 14
      cur := cur
      cache := cache
      input := Memory.empty.writeBytes 14 bytes } }

/-- What a step of that decoder leaves in CUR, RUN, RP, the pixel's own slot, and the four bytes put out. -/
def decoded (cur : Pixel) (cache : Cache) (bytes : List Byte) : Option (Pixel × Nat × Nat × Pixel × List Byte) :=
  (nextOf (step (decAt cur cache bytes))).map fun t =>
    (t.dec.cur, t.dec.run.toNat, t.dec.rp.toNat, t.dec.cache.lookup (pixelHash t.dec.cur), t.dec.out.readBytes 0 4)

/-- R229's example: `09` with slot 9 holding (10,20,30,255). -/
theorem test_index : decoded ⟨1, 1, 1, 255⟩ (Cache.init.store ⟨10, 20, 30, 255⟩) [0x09] =
    some (⟨10, 20, 30, 255⟩, 0, 15, ⟨10, 20, 30, 255⟩, [10, 20, 30, 255]) := by decide

/-- V30: `40` from (0,0,0,255) wraps to (254,254,254,255), which is then in its slot. -/
theorem test_diff : decoded ⟨0, 0, 0, 255⟩ Cache.init [0x40] =
    some (⟨254, 254, 254, 255⟩, 0, 15, ⟨254, 254, 254, 255⟩, [254, 254, 254, 255]) := by decide

/-- R231's example: `AC 67` with CUR = (1,0,255,255). -/
theorem test_luma : decoded ⟨1, 0, 255, 255⟩ Cache.init [0xAC, 0x67] =
    some (⟨11, 12, 10, 255⟩, 0, 16, ⟨11, 12, 10, 255⟩, [11, 12, 10, 255]) := by decide

/-- R167's example: `C2` with CUR = (9,9,9,255) puts it out and owes two replays; its slot stays unwritten. -/
theorem test_run : decoded ⟨9, 9, 9, 255⟩ Cache.init [0xC2] =
    some (⟨9, 9, 9, 255⟩, 2, 15, ⟨0, 0, 0, 0⟩, [9, 9, 9, 255]) := by decide

/-- R227's example: `FE 0A 14 1E` with CUR = (0,0,0,255). -/
theorem test_rgb : decoded ⟨0, 0, 0, 255⟩ Cache.init [0xFE, 0x0A, 0x14, 0x1E] =
    some (⟨10, 20, 30, 255⟩, 0, 18, ⟨10, 20, 30, 255⟩, [10, 20, 30, 255]) := by decide

/-- R228's example: `FF C8 64 32 80`. -/
theorem test_rgba : decoded ⟨0, 0, 0, 255⟩ Cache.init [0xFF, 0xC8, 0x64, 0x32, 0x80] =
    some (⟨200, 100, 50, 128⟩, 0, 19, ⟨200, 100, 50, 128⟩, [200, 100, 50, 128]) := by decide

/-- R148, V21c: INDEX of a slot never written gives (0,0,0,0) and leaves slot 0 as it was. -/
theorem test_index_writes_no_slot :
    (nextOf (step (decAt ⟨0, 0, 0, 255⟩ (Cache.init.store ⟨0, 0, 0, 64⟩) [0x05]))).map
      (fun t => (t.dec.cur, t.dec.cache.lookup 0)) = some (⟨0, 0, 0, 0⟩, ⟨0, 0, 0, 64⟩) := by decide

/-- V46, V48: a chunk that is cut short is TRUNCATED_STREAM, code 15 hexadecimal. -/
theorem test_truncated :
    (nextOf (step (decAt ⟨0, 0, 0, 255⟩ Cache.init [0xFE, 0x01, 0x02]))).map
      (fun t => (t.dec.ctl.status, t.dec.ctl.err.kind.code, t.dec.ctl.err.cause.code, t.dec.k)) =
        some (.fault, 2, 0x15, 0) ∧
    (nextOf (step (decAt ⟨0, 0, 0, 255⟩ Cache.init [0xA0]))).map (fun t => t.dec.ctl.status) = some .fault := by decide

/-- A word placed where the next step fetches runs as the first opcode after reset. -/
theorem test_fetch_word_runs_after_reset :
    (nextOf (step (State.reset.withFetchWord 16 0x67AC))).map (fun t => (t.dec.cur, t.dec.k)) =
      some (⟨10, 12, 11, 255⟩, 1) ∧
    (nextOf (step (State.reset.withFetchWord 40 0x803264C8FF))).map (fun t => (t.dec.cur, t.dec.k)) =
      some (⟨200, 100, 50, 128⟩, 1) := by decide

/-! ### One step: the encoder -/

/-- An encoder in a running transaction of 3 pixels, 4 channels, at pixel 1, with previous pixel `prev`, `run` pixels pending
and the cache `cache`; pixel 1 is `px`. -/
def encAt (prev px : Pixel) (run : BitVec 6) (cache : Cache) : State :=
  { State.reset with
    enc := { Enc.reset with
      ctl := ⟨.busy, Err.clear⟩
      cfg := ⟨3, 1, 4, 0⟩
      n := 3
      prev := prev
      run := run
      cache := cache
      outlen := 14
      pos := 1
      pix := Memory.empty.writeBytes 4 [px.r, px.g, px.b, px.a] } }

/-- The bytes a step of that encoder appends, and the previous pixel and run counter after it. -/
def emitted (prev px : Pixel) (run : BitVec 6) (cache : Cache) : Option (List Byte × Pixel × Nat) :=
  (nextOf (step (encAt prev px run cache))).map fun t =>
    (t.enc.out.readBytes 14 (t.enc.outlen.toNat - 14), t.enc.prev, t.enc.run.toNat)

/-- R188's example: slot 9 holds the pixel; the previous pixel is updated all the same (C1). -/
theorem test_emit_index : emitted ⟨1, 1, 1, 255⟩ ⟨10, 20, 30, 255⟩ 0 (Cache.init.store ⟨10, 20, 30, 255⟩) =
    some ([0x09], ⟨10, 20, 30, 255⟩, 0) := by decide

/-- V13: deltas 1, -1, -2 across the wrap. -/
theorem test_emit_diff : emitted ⟨255, 0, 1, 255⟩ ⟨0, 255, 255, 255⟩ 0 Cache.init =
    some ([0x74], ⟨0, 255, 255, 255⟩, 0) := by decide

/-- V18j: green wraps from 250 to 5. -/
theorem test_emit_luma : emitted ⟨10, 250, 10, 255⟩ ⟨20, 5, 20, 255⟩ 0 Cache.init =
    some ([0xAB, 0x77], ⟨20, 5, 20, 255⟩, 0) := by decide

/-- R165's example, three pixels equal to the previous one and then another (here V17b's DIFF). -/
theorem test_emit_run : emitted ⟨100, 100, 100, 255⟩ ⟨101, 101, 101, 255⟩ 3 Cache.init =
    some ([0xC2, 0x7F], ⟨101, 101, 101, 255⟩, 0) := by decide

/-- R192's example: a true delta of -130 is 126. -/
theorem test_emit_rgb : emitted ⟨200, 200, 200, 255⟩ ⟨70, 200, 200, 255⟩ 0 Cache.init =
    some ([0xFE, 0x46, 0xC8, 0xC8], ⟨70, 200, 200, 255⟩, 0) := by decide

/-- R193's example: only alpha differs. -/
theorem test_emit_rgba : emitted ⟨200, 100, 50, 255⟩ ⟨200, 100, 50, 128⟩ 0 Cache.init =
    some ([0xFF, 0xC8, 0x64, 0x32, 0x80], ⟨200, 100, 50, 128⟩, 0) := by decide

/-- V23: the 62nd equal pixel flushes the run in its own step; V18c: green's delta -33 is too low for LUMA. -/
theorem test_emit_boundaries :
    emitted ⟨0, 0, 0, 255⟩ ⟨0, 0, 0, 255⟩ 61 Cache.init = some ([0xFD], ⟨0, 0, 0, 255⟩, 0) ∧
    emitted ⟨0, 0, 0, 255⟩ ⟨0, 0, 0, 255⟩ 60 Cache.init = some ([], ⟨0, 0, 0, 255⟩, 61) ∧
    emitted ⟨100, 100, 100, 255⟩ ⟨67, 67, 67, 255⟩ 0 Cache.init =
      some ([0xFE, 0x43, 0x43, 0x43], ⟨67, 67, 67, 255⟩, 0) := by decide

/-! ### START -/

/-- HOST about to start the encoder with this request. -/
def encRequest (req : EncReq) : State :=
  { State.reset with enc := { Enc.reset with req := req }, cmds := [.startEnc] }

/-- HOST about to start the decoder on these input bytes. -/
def decRequest (bytes : List Byte) (outChannels : BitVec 8) : State :=
  { State.reset with
    dec := { Dec.reset with
      req := ⟨BitVec.ofNat 64 bytes.length, outChannels⟩
      input := Memory.empty.writeBytes 0 bytes }
    cmds := [.startDec] }

/-- STATUS, the error's kind and its cause's code after the encoder's next step. -/
def encEnd (s : State) : Option (Status × BitVec 2 × BitVec 8) :=
  (nextOf (step s)).map fun t => (t.enc.ctl.status, t.enc.ctl.err.kind.code, t.enc.ctl.err.cause.code)

/-- The same of the decoder. -/
def decEnd (s : State) : Option (Status × BitVec 2 × BitVec 8) :=
  (nextOf (step s)).map fun t => (t.dec.ctl.status, t.dec.ctl.err.kind.code, t.dec.ctl.err.cause.code)

/-- V40 to V44. -/
theorem test_encoder_errors :
    encEnd (encRequest ⟨0x100000000, 1, 3, 0, 0x300000000⟩) = some (.fault, 1, 0x01) ∧
    encEnd (encRequest ⟨1, 1, 5, 0, 5⟩) = some (.fault, 1, 0x02) ∧
    encEnd (encRequest ⟨1, 1, 3, 2, 3⟩) = some (.fault, 1, 0x03) ∧
    encEnd (encRequest ⟨2, 2, 3, 0, 11⟩) = some (.fault, 1, 0x04) ∧
    encEnd (encRequest ⟨2, 2, 5, 9, 0⟩) = some (.fault, 1, 0x02) := by decide

/-- V4 to V7, V45, V51. -/
theorem test_decoder_errors :
    decEnd (decRequest [0x71, 0x6F, 0x69, 0x66, 0, 0, 0, 1, 0, 0, 0, 1, 3] 0) = some (.fault, 2, 0x11) ∧
    decEnd (decRequest [0x71, 0x6F, 0x69, 0x66, 0, 0, 0, 1, 0, 0, 0, 1, 5, 0] 0) = some (.fault, 2, 0x13) ∧
    decEnd (decRequest [0x71, 0x6F, 0x69, 0x66, 0, 0, 0, 1, 0, 0, 0, 1, 3, 2] 0) = some (.fault, 2, 0x14) ∧
    decEnd (decRequest [0x51, 0x4F, 0x49, 0x46, 0, 0, 0, 1, 0, 0, 0, 1, 5, 2] 0) = some (.fault, 2, 0x12) ∧
    decEnd (decRequest [0x71, 0x6F, 0x69, 0x66, 0, 0, 0, 1, 0, 0, 0, 1, 3, 0, 0xC0] 5) = some (.fault, 1, 0x05) ∧
    decEnd (decRequest [0, 0, 0, 0] 0) = some (.fault, 2, 0x11) := by decide

/-- V3, V8: accepted headers, a zero dimension included. -/
theorem test_read_header :
    readHeader (Memory.empty.writeBytes 0 [0x71, 0x6F, 0x69, 0x66, 0, 0, 0, 2, 0, 0, 0, 3, 4, 1]) 14 = .ok ⟨2, 3, 4, 1⟩ ∧
    readHeader (Memory.empty.writeBytes 0 [0x71, 0x6F, 0x69, 0x66, 0, 0, 0, 0, 0, 0, 0, 0, 3, 0]) 14 = .ok ⟨0, 0, 3, 0⟩ := by
  decide

/-- V2: big-endian, most significant byte first. -/
theorem test_write_header : writeHeader 65536 4294967295 4 1 =
    [0x71, 0x6F, 0x69, 0x66, 0x00, 0x01, 0x00, 0x00, 0xFF, 0xFF, 0xFF, 0xFF, 0x04, 0x01] := by decide

/-! ### Witnesses: for every statement with hypotheses, a state and operands that meet them -/

/-- A BUSY engine with ERR clear is consistent. -/
theorem busy_consistent : (⟨.busy, Err.clear⟩ : Ctl).Consistent := ⟨rfl, by decide⟩

/-- The decoder of `decAt` fetches the bytes it was given, whatever bytes follow them. -/
theorem decAt_fetches (cur : Pixel) (cache : Cache) (bytes more : List Byte) (h : bytes.length + more.length ≤ 100) :
    (decAt cur cache (bytes ++ more)).FetchesRequested bytes := by
  have hl : (BitVec.ofNat 64 (14 + (bytes ++ more).length)).toNat = 14 + (bytes.length + more.length) := by
    rw [List.length_append, BitVec.toNat_ofNat]
    omega
  refine ⟨⟨⟨rfl, ⟨rfl, (show (0 : BitVec 64) < 2 by decide)⟩, rfl⟩, ?_, ?_⟩, rfl⟩
  · show 14 + bytes.length ≤ (BitVec.ofNat 64 (14 + (bytes ++ more).length)).toNat
    omega
  · intro j hj
    show (Memory.empty.writeBytes 14 (bytes ++ more)).read (14 + j) = bytes[j]
    rw [Memory.read_writeBytes_inside _ _ _ j (by rw [List.length_append]; omega), List.getElem_append_left hj]

/-- The decoder of `decAt` meets the decoder's invariant. -/
theorem decAt_inv (cur : Pixel) (cache : Cache) (bytes : List Byte) (h : bytes.length ≤ 100) :
    (decAt cur cache bytes).dec.Inv := by
  have hl : (BitVec.ofNat 64 (14 + bytes.length)).toNat = 14 + bytes.length := by
    rw [BitVec.toNat_ofNat]
    omega
  refine ⟨busy_consistent, Nat.zero_le _, fun _ => ⟨⟨.inr rfl, Nat.zero_le _, .inr rfl, rfl⟩, Nat.le_refl 14, ?_, Nat.zero_le _, rfl⟩,
    fun hd => (by cases hd)⟩
  show 14 ≤ (BitVec.ofNat 64 (14 + bytes.length)).toNat
  omega

/-- The encoder of `encAt` meets the encoder's invariant and is about to process a pixel. -/
theorem encAt_inv (prev px : Pixel) (run : BitVec 6) (cache : Cache) (h : run.toNat ≤ 61) :
    (encAt prev px run cache).EncPixelNext ∧ (encAt prev px run cache).enc.Inv := by
  have hc : ¬ (4 : BitVec 8) = 3 := by decide
  have hp : ¬ (1 : BitVec 64) = 3 := by decide
  refine ⟨⟨rfl, rfl, (show (1 : BitVec 64) < 3 by decide)⟩, busy_consistent, h,
    fun _ => ⟨⟨.inr rfl, Nat.zero_le _, rfl⟩, (show 1 ≤ 3 by decide), fun e => absurd e hp, Nat.le_refl 14, ?_,
      fun e => absurd e hc⟩, fun hd => (by cases hd)⟩
  show 14 + (if run = 0 then 0 else 1) ≤ 14 + (4 + 1) * 1
  split <;> omega

/-- HardResetStopsBothEngines, with the decoder BUSY. -/
theorem witness_hard_reset :
    ({ decAt ⟨0, 0, 0, 255⟩ Cache.init [] with cmds := [.hardReset], sched := [.host] } : State).HostNext .hardReset :=
  ⟨rfl, rfl⟩

/-- DecodeOfEncodeIsTheInstruction at the ends of the operands' ranges; EncodeOfDecodeIsTheBytes is witnessed by the decode
tests. -/
theorem witness_wellFormed : (Instr.luma (-32) (-8) 7).WellFormed ∧ (Instr.diff (-2) 1 1).WellFormed ∧ (Instr.run 62).WellFormed := by
  decide

/-- FirstByteSelectsTheOpcode and ChunkLengthIsFixedByTheFirstByte: both ends of every range (V17a, V17b, V18b, V18i's nibbles). -/
theorem witness_first_byte_boundaries :
    decode [0x00, 1, 2, 3, 4] = .ok (.index 0, [1, 2, 3, 4]) ∧ decode [0x3F, 1, 2, 3, 4] = .ok (.index 63, [1, 2, 3, 4]) ∧
    decode [0x40, 1, 2, 3, 4] = .ok (.diff (-2) (-2) (-2), [1, 2, 3, 4]) ∧
    decode [0x7F, 1, 2, 3, 4] = .ok (.diff 1 1 1, [1, 2, 3, 4]) ∧
    decode [0x80, 0x00, 2, 3, 4] = .ok (.luma (-32) (-8) (-8), [2, 3, 4]) ∧
    decode [0xBF, 0xFF, 2, 3, 4] = .ok (.luma 31 7 7, [2, 3, 4]) ∧
    decode [0xC0, 1, 2, 3, 4] = .ok (.run 1, [1, 2, 3, 4]) ∧ decode [0xFD, 1, 2, 3, 4] = .ok (.run 62, [1, 2, 3, 4]) ∧
    decode [0xFE, 1, 2, 3, 4] = .ok (.rgb 1 2 3, [4]) ∧ decode [0xFF, 1, 2, 3, 4] = .ok (.rgba 1 2 3 4, []) := by decide

/-- IndexTakesTheSlotsPixel, the step, at the first and the last slot. -/
theorem witness_index_step :
    (decAt ⟨0, 0, 0, 255⟩ Cache.init [0x00]).FetchesRequested [0x00] ∧ (0x00 : Byte).toNat / 64 = 0 ∧
    (0 : Fin 64).val = (0x00 : Byte).toNat % 64 ∧
    (decAt ⟨0, 0, 0, 255⟩ Cache.init [0x3F]).FetchesRequested [0x3F] ∧ (0x3F : Byte).toNat / 64 = 0 ∧
    (63 : Fin 64).val = (0x3F : Byte).toNat % 64 :=
  ⟨decAt_fetches _ _ [0x00] [] (by decide), by decide, by decide, decAt_fetches _ _ [0x3F] [] (by decide), by decide, by decide⟩

/-- DiffAddsItsDeltas, the step, at both ends. -/
theorem witness_diff_step :
    (decAt ⟨0, 0, 0, 255⟩ Cache.init [0x40]).FetchesRequested [0x40] ∧ (0x40 : Byte).toNat / 64 = 1 ∧
    (decAt ⟨0, 0, 0, 255⟩ Cache.init [0x7F]).FetchesRequested [0x7F] ∧ (0x7F : Byte).toNat / 64 = 1 :=
  ⟨decAt_fetches _ _ [0x40] [] (by decide), by decide, decAt_fetches _ _ [0x7F] [] (by decide), by decide⟩

/-- LumaAddsGreenRelativeDeltas, the step and the missing second byte. -/
theorem witness_luma_step :
    (decAt ⟨0, 0, 0, 255⟩ Cache.init [0x80, 0x00]).FetchesRequested [0x80, 0x00] ∧ (0x80 : Byte).toNat / 64 = 2 ∧
    (decAt ⟨0, 0, 0, 255⟩ Cache.init [0xBF]).FetchesRequested [0xBF] ∧ (0xBF : Byte).toNat / 64 = 2 ∧
    (decAt ⟨0, 0, 0, 255⟩ Cache.init [0xBF]).dec.inlen.toNat <
      (decAt ⟨0, 0, 0, 255⟩ Cache.init [0xBF]).dec.rp.toNat + 2 :=
  ⟨decAt_fetches _ _ [0x80, 0x00] [] (by decide), by decide, decAt_fetches _ _ [0xBF] [] (by decide), by decide, by decide⟩

/-- RunLoadsTheReplaysOwed, the step, at both ends. -/
theorem witness_run_step :
    (decAt ⟨0, 0, 0, 255⟩ Cache.init [0xC0]).FetchesRequested [0xC0] ∧ (0xC0 : Byte).toNat / 64 = 3 ∧
    (decAt ⟨0, 0, 0, 255⟩ Cache.init [0xFD]).FetchesRequested [0xFD] ∧ (0xFD : Byte).toNat / 64 = 3 ∧
    (0xFD : Byte).toNat ≠ 0xFE ∧ (0xFD : Byte).toNat ≠ 0xFF :=
  ⟨decAt_fetches _ _ [0xC0] [] (by decide), by decide, decAt_fetches _ _ [0xFD] [] (by decide), by decide, by decide, by decide⟩

/-- RgbKeepsAlpha, the step and a payload one byte short. -/
theorem witness_rgb_step :
    (decAt ⟨0, 0, 0, 255⟩ Cache.init [0xFE, 1, 2, 3]).FetchesRequested [0xFE, 1, 2, 3] ∧
    (decAt ⟨0, 0, 0, 255⟩ Cache.init [0xFE, 1, 2]).FetchesRequested [0xFE] ∧
    (decAt ⟨0, 0, 0, 255⟩ Cache.init [0xFE, 1, 2]).dec.inlen.toNat <
      (decAt ⟨0, 0, 0, 255⟩ Cache.init [0xFE, 1, 2]).dec.rp.toNat + 4 :=
  ⟨decAt_fetches _ _ [0xFE, 1, 2, 3] [] (by decide), decAt_fetches _ _ [0xFE] [1, 2] (by decide), by decide⟩

/-- RgbaSetsAllComponents, the step and a payload one byte short. -/
theorem witness_rgba_step :
    (decAt ⟨0, 0, 0, 255⟩ Cache.init [0xFF, 1, 2, 3, 4]).FetchesRequested [0xFF, 1, 2, 3, 4] ∧
    (decAt ⟨0, 0, 0, 255⟩ Cache.init [0xFF, 1, 2, 3]).FetchesRequested [0xFF] ∧
    (decAt ⟨0, 0, 0, 255⟩ Cache.init [0xFF, 1, 2, 3]).dec.inlen.toNat <
      (decAt ⟨0, 0, 0, 255⟩ Cache.init [0xFF, 1, 2, 3]).dec.rp.toNat + 5 :=
  ⟨decAt_fetches _ _ [0xFF, 1, 2, 3, 4] [] (by decide), decAt_fetches _ _ [0xFF] [1, 2, 3] (by decide), by decide⟩

/-- A decoder that replays, its input exhausted. -/
def replaying (run : BitVec 6) : State :=
  { decAt ⟨9, 9, 9, 255⟩ Cache.init [] with dec := { (decAt ⟨9, 9, 9, 255⟩ Cache.init []).dec with run := run } }

/-- ReplayNeedsNoInput, and OnlyResolvingOpcodesWriteTheCache's replay, with one and with 61 replays owed. -/
theorem witness_replay :
    (replaying 1).mover = .dec ∧ (replaying 1).dec.pixelEnabled ∧ 0 < (replaying 1).dec.run ∧
    (replaying 61).mover = .dec ∧ (replaying 61).dec.pixelEnabled ∧ 0 < (replaying 61).dec.run ∧
    (replaying 1).dec.rp = (replaying 1).dec.inlen := by decide

/-- ForcedAlphaByte: 3 channels in the header, 4 put out. -/
theorem witness_forced_alpha :
    ({ Dec.reset with oc := 4, hdr := ⟨1, 1, 3, 0⟩ } : Dec).oc = 4 ∧
    ({ Dec.reset with oc := 4, hdr := ⟨1, 1, 3, 0⟩ } : Dec).hdr.channels = 3 := by decide

/-- StepRunsTheDecodedInstruction. -/
theorem witness_step : (Instr.luma 12 (-2) (-1)).WellFormed ∧
    (decAt ⟨0, 0, 0, 255⟩ Cache.init [0xAC, 0x67]).FetchesChunk (encode (.luma 12 (-2) (-1))) :=
  ⟨by decide, (decAt_fetches _ _ [0xAC, 0x67] [] (by decide)).1⟩

/-- TruncationExactlyWhenBytesAreMissing: no byte at all, the second of two missing, and both there. -/
theorem witness_truncation :
    (decAt ⟨0, 0, 0, 255⟩ Cache.init []).DecFetchNext ∧ (decAt ⟨0, 0, 0, 255⟩ Cache.init [0xA0]).DecFetchNext ∧
    (decAt ⟨0, 0, 0, 255⟩ Cache.init [0xA0, 0x88]).DecFetchNext := by
  refine ⟨?_, ?_, ?_⟩ <;> exact ⟨rfl, ⟨rfl, by decide⟩, rfl⟩

/-- A decoder alone that owes 62 pixels and has one RUN byte. -/
def longRun (b : Byte) : State :=
  { decAt ⟨9, 9, 9, 255⟩ Cache.init [b] with
    dec := { (decAt ⟨9, 9, 9, 255⟩ Cache.init [b]).dec with hdr := ⟨62, 1, 4, 0⟩, n := 62 } }

/-- RunByteYieldsFieldPlusOnePixels, at the shortest and the longest run. -/
theorem witness_run_byte (n : Nat) (h : n ≤ 61) : (longRun (BitVec.ofNat 8 (0xC0 + n))).DecAlone ∧
    (longRun (BitVec.ofNat 8 (0xC0 + n))).FetchesChunk [BitVec.ofNat 8 (0xC0 + n)] ∧
    (longRun (BitVec.ofNat 8 (0xC0 + n))).dec.Inv ∧
    (longRun (BitVec.ofNat 8 (0xC0 + n))).dec.k.toNat + (n + 1) ≤ (longRun (BitVec.ofNat 8 (0xC0 + n))).dec.n.toNat := by
  refine ⟨⟨rfl, rfl, fun hb => (by cases hb)⟩, ⟨⟨rfl, ⟨rfl, (show (0 : BitVec 64) < 62 by decide)⟩, rfl⟩, ?_, ?_⟩,
    ⟨busy_consistent, Nat.zero_le _, fun _ => ⟨⟨.inr rfl, Nat.zero_le _, .inr rfl, rfl⟩, Nat.le_refl 14,
      (show 14 ≤ 15 by decide), Nat.zero_le _, rfl⟩, fun hd => (by cases hd)⟩, ?_⟩
  · exact Nat.le_refl 15
  · exact (decAt_fetches ⟨9, 9, 9, 255⟩ Cache.init [_] [] (show 1 ≤ 100 by decide)).1.2.2
  · show 0 + (n + 1) ≤ 62
    omega

/-- DecoderFinishesAtTheLastPixel, StatusMovesAsItsTableSays and EnginesDoNotTouchEachOther (the decoder). -/
theorem witness_decoder_finish :
    let s : State := { State.reset with dec := { Dec.reset with ctl := ⟨.busy, Err.clear⟩ } }
    s.mover = .dec ∧ s.dec.ctl.status = .busy ∧ s.dec.k = s.dec.n := by decide

/-- HOST about to start the decoder on a header of one pixel. -/
def onePixel (magic3 channels colorspace outChannels : BitVec 8) : State :=
  decRequest [0x71, 0x6F, 0x69, magic3, 0, 0, 0, 1, 0, 0, 0, 1, channels, colorspace] outChannels

/-- One pixel is within MAX_PIXELS. -/
theorem one_within : 1 ≤ Config.maxPixels := by
  unfold Config.maxPixels
  omega

/-- DecoderStartInitialises, with each output channel argument. -/
theorem witness_decoder_start (a : BitVec 8) (ha : a = 0 ∨ a = 3 ∨ a = 4) :
    (onePixel 0x66 3 0 a).HostNext .startDec ∧ (onePixel 0x66 3 0 a).dec.ctl.status ≠ .busy ∧
    readHeader (onePixel 0x66 3 0 0).dec.input (onePixel 0x66 3 0 0).dec.req.inlen = .ok ⟨1, 1, 3, 0⟩ ∧
    (onePixel 0x66 3 0 a).dec.input = (onePixel 0x66 3 0 0).dec.input ∧
    (onePixel 0x66 3 0 a).dec.req.inlen = (onePixel 0x66 3 0 0).dec.req.inlen ∧
    ((onePixel 0x66 3 0 a).dec.req.outChannels = 0 ∨ (onePixel 0x66 3 0 a).dec.req.outChannels = 3 ∨
      (onePixel 0x66 3 0 a).dec.req.outChannels = 4) ∧ (1 : BitVec 32).toNat * (1 : BitVec 32).toNat ≤ Config.maxPixels := by
  refine ⟨⟨rfl, rfl⟩, fun hb => ?_, by decide, rfl, rfl, ha, one_within⟩
  cases hb

/-- DecoderStartRejects: a header check and the argument check. -/
theorem witness_decoder_rejects :
    (onePixel 0x67 3 0 0).HostNext .startDec ∧ (onePixel 0x67 3 0 0).dec.ctl.status ≠ .busy ∧
    readHeader (onePixel 0x67 3 0 0).dec.input (onePixel 0x67 3 0 0).dec.req.inlen = .error .badMagic ∧
    (onePixel 0x66 3 0 5).HostNext .startDec ∧ (onePixel 0x66 3 0 5).dec.ctl.status ≠ .busy ∧
    readHeader (onePixel 0x66 3 0 5).dec.input (onePixel 0x66 3 0 5).dec.req.inlen = .ok ⟨1, 1, 3, 0⟩ ∧
    (onePixel 0x66 3 0 5).dec.req.outChannels ≠ 0 ∧ (onePixel 0x66 3 0 5).dec.req.outChannels ≠ 3 ∧
    (onePixel 0x66 3 0 5).dec.req.outChannels ≠ 4 :=
  ⟨⟨rfl, rfl⟩, by decide, by decide, ⟨rfl, rfl⟩, by decide, by decide, by decide, by decide, by decide⟩

/-- ReadHeaderChecksAndFields: each clause at the edge of its range (13 and 14 bytes, channels 2 and 5, colorspace 2 and 1). -/
theorem witness_read_header :
    readHeader (onePixel 0x66 3 0 0).dec.input 13 = .error .headerTooShort ∧
    readHeader (onePixel 0x67 3 0 0).dec.input 14 = .error .badMagic ∧
    readHeader (onePixel 0x66 2 0 0).dec.input 14 = .error .badChannels ∧
    readHeader (onePixel 0x66 5 0 0).dec.input 14 = .error .badChannels ∧
    readHeader (onePixel 0x66 4 2 0).dec.input 14 = .error .badColorspace ∧
    readHeader (onePixel 0x66 4 1 0).dec.input 14 = .ok ⟨1, 1, 4, 1⟩ := by decide

/-- HeaderRoundTrip: a buffer that holds a written header. -/
theorem witness_header_round_trip : (Memory.empty.writeBytes 0 (writeHeader 65536 4294967295 4 1)).Holds 0
    (writeHeader 65536 4294967295 4 1) ∧
    readHeader (Memory.empty.writeBytes 0 (writeHeader 65536 4294967295 4 1)) 14 = .ok ⟨65536, 4294967295, 4, 1⟩ :=
  ⟨(Memory.holds_iff _ _ _).2 (by decide), by decide⟩

/-- EncoderStartRejects: the state part is any request of `encRequest`; each clause is met by a vector of
`test_encoder_errors`. -/
theorem witness_encoder_rejects (req : EncReq) :
    (encRequest req).HostNext .startEnc ∧ (encRequest req).enc.ctl.status ≠ .busy :=
  ⟨⟨rfl, rfl⟩, by intro h; cases h⟩

/-- EncoderStartInitialises, EncoderRefinesBigStep and MachineRoundTrip (the encoder): a good request of one pixel, and one of
no pixel (V50). -/
theorem witness_good_encode_request :
    (encRequest ⟨1, 1, 4, 1, 4⟩).GoodEncodeRequest ∧ (encRequest ⟨0, 5, 3, 0, 0⟩).GoodEncodeRequest :=
  ⟨⟨rfl, rfl, by decide, by decide, by decide, by decide, .inr rfl, by decide, by decide, one_within⟩,
    ⟨rfl, rfl, by decide, by decide, by decide, by decide, .inl rfl, by decide, by decide, Nat.zero_le _⟩⟩

/-- DecoderRefinesBigStep: a good request. -/
theorem witness_good_decode_request : (onePixel 0x66 3 0 0).GoodDecodeRequest ⟨1, 1, 3, 0⟩ :=
  ⟨rfl, rfl, by decide, by decide, by decide, .inl rfl, one_within⟩

/-- MachineRoundTrip (the decoder): a state that is given a stream. -/
theorem witness_round_trip (stream : List Byte) (h : stream.length < 2 ^ 64) :
    (decRequest stream 0).sched = [] ∧ (decRequest stream 0).cmds = [.startDec] ∧
    (decRequest stream 0).enc.ctl.status ≠ .busy ∧ (decRequest stream 0).dec.ctl.status ≠ .busy ∧
    (decRequest stream 0).dec.req.outChannels = 0 ∧ (decRequest stream 0).dec.req.inlen.toNat = stream.length ∧
    (decRequest stream 0).dec.input.Holds 0 stream :=
  ⟨rfl, rfl, fun h => (by cases h), fun h => (by cases h), rfl, (BitVec.toNat_ofNat _ _).trans (Nat.mod_eq_of_lt h),
    fun j hj => Memory.read_writeBytes_inside _ _ _ j hj⟩

/-- RunPixelIsCountedOrFlushed: counted, and full. -/
theorem witness_run_pixel :
    (encAt ⟨0, 0, 0, 255⟩ ⟨0, 0, 0, 255⟩ 60 Cache.init).EncPixelNext ∧ (encAt ⟨0, 0, 0, 255⟩ ⟨0, 0, 0, 255⟩ 60 Cache.init).enc.Inv ∧
    (encAt ⟨0, 0, 0, 255⟩ ⟨0, 0, 0, 255⟩ 61 Cache.init).EncPixelNext ∧ (encAt ⟨0, 0, 0, 255⟩ ⟨0, 0, 0, 255⟩ 61 Cache.init).enc.Inv ∧
    pixelAt (encAt ⟨0, 0, 0, 255⟩ ⟨0, 0, 0, 255⟩ 60 Cache.init).enc.pix 4 1 = ⟨0, 0, 0, 255⟩ :=
  ⟨(encAt_inv _ _ _ _ (by decide)).1, (encAt_inv _ _ _ _ (by decide)).2, (encAt_inv _ _ _ _ (by decide)).1,
    (encAt_inv _ _ _ _ (by decide)).2, by decide⟩

/-- CacheHitEmitsIndex and PendingRunIsFlushedFirst, with 61 pixels pending. -/
theorem witness_cache_hit :
    let s := encAt ⟨1, 1, 1, 255⟩ ⟨10, 20, 30, 255⟩ 61 (Cache.init.store ⟨10, 20, 30, 255⟩)
    s.EncPixelNext ∧ s.enc.Inv ∧ pixelAt s.enc.pix s.enc.cfg.c s.enc.pos.toNat = ⟨10, 20, 30, 255⟩ ∧
    (⟨10, 20, 30, 255⟩ : Pixel) ≠ s.enc.prev ∧ s.enc.cache.lookup (pixelHash ⟨10, 20, 30, 255⟩) = ⟨10, 20, 30, 255⟩ :=
  ⟨(encAt_inv _ _ _ _ (by decide)).1, (encAt_inv _ _ _ _ (by decide)).2, by decide, by decide, by decide⟩

/-- What the statements about a miss ask of the state, for a previous pixel and a pixel. -/
def Misses (prev px : Pixel) (run : BitVec 6) : Prop :=
  (encAt prev px run Cache.init).EncPixelNext ∧ (encAt prev px run Cache.init).enc.Inv ∧
  px = pixelAt (encAt prev px run Cache.init).enc.pix 4 1 ∧ px ≠ prev ∧ Cache.init.lookup (pixelHash px) ≠ px

/-- SmallDeltasEmitDiff, MissStoresThePixel, and PendingRunIsFlushedFirst on a miss, at both ends of the range (V17). -/
theorem witness_small_deltas : Misses ⟨100, 100, 100, 255⟩ ⟨98, 101, 100, 255⟩ 61 ∧
    IsDelta (-2) 98 100 ∧ IsDelta 1 101 100 ∧ IsDelta 0 100 100 :=
  ⟨⟨(encAt_inv _ _ _ _ (by decide)).1, (encAt_inv _ _ _ _ (by decide)).2, by decide, by decide, by decide⟩,
    by unfold IsDelta; decide, by unfold IsDelta; decide, by unfold IsDelta; decide⟩

/-- GreenRelativeDeltasEmitLuma, green at its largest and the others at both ends (V18f), and just outside DIFF (V18). -/
theorem witness_luma_deltas : Misses ⟨100, 100, 100, 255⟩ ⟨138, 131, 124, 255⟩ 0 ∧
    IsDelta 38 138 100 ∧ IsDelta 31 131 100 ∧ IsDelta 24 124 100 ∧
    Misses ⟨100, 100, 100, 255⟩ ⟨97, 100, 100, 255⟩ 0 ∧ IsDelta (-3) 97 100 :=
  ⟨⟨(encAt_inv _ _ _ _ (by decide)).1, (encAt_inv _ _ _ _ (by decide)).2, by decide, by decide, by decide⟩,
    by unfold IsDelta; decide, by unfold IsDelta; decide, by unfold IsDelta; decide,
    ⟨(encAt_inv _ _ _ _ (by decide)).1, (encAt_inv _ _ _ _ (by decide)).2, by decide, by decide, by decide⟩,
    by unfold IsDelta; decide⟩

/-- LargeDeltasEmitRgb: green just above its range (V18e). -/
theorem witness_large_deltas : Misses ⟨100, 100, 100, 255⟩ ⟨132, 132, 132, 255⟩ 0 ∧ IsDelta 32 132 100 :=
  ⟨⟨(encAt_inv _ _ _ _ (by decide)).1, (encAt_inv _ _ _ _ (by decide)).2, by decide, by decide, by decide⟩,
    by unfold IsDelta; decide⟩

/-- AlphaChangeEmitsRgba (V19). -/
theorem witness_alpha_change : Misses ⟨100, 100, 100, 255⟩ ⟨100, 100, 100, 0⟩ 1 ∧ (0 : Byte) ≠ 255 :=
  ⟨⟨(encAt_inv _ _ _ _ (by decide)).1, (encAt_inv _ _ _ _ (by decide)).2, by decide, by decide, by decide⟩, by decide⟩

/-- An encoder alone, BUSY, in a transaction without pixels. -/
def encFinishing : State := { State.reset with enc := { Enc.reset with ctl := ⟨.busy, Err.clear⟩, outlen := 14, cfg := ⟨0, 5, 4, 0⟩ } }

/-- EncoderFinishAppendsTheEndMarker and EncoderReachesDone. -/
theorem witness_encoder_finish : encFinishing.mover = .enc ∧ encFinishing.enc.ctl.status = .busy ∧
    encFinishing.enc.pos = encFinishing.enc.n ∧ encFinishing.EncAlone ∧ encFinishing.enc.pos.toNat ≤ encFinishing.enc.n.toNat :=
  ⟨rfl, rfl, rfl, ⟨rfl, rfl, by decide⟩, by decide⟩

/-- DecoderReachesAnEnd. -/
theorem witness_decoder_alone : (decAt ⟨0, 0, 0, 255⟩ Cache.init [0xC0]).DecAlone ∧
    (decAt ⟨0, 0, 0, 255⟩ Cache.init [0xC0]).dec.ctl.status = .busy ∧
    (decAt ⟨0, 0, 0, 255⟩ Cache.init [0xC0]).dec.k.toNat ≤ (decAt ⟨0, 0, 0, 255⟩ Cache.init [0xC0]).dec.n.toNat :=
  ⟨⟨rfl, rfl, by decide⟩, rfl, by decide⟩

/-- StartWhileBusyIsIgnored, both engines. -/
theorem witness_start_while_busy :
    let s : State := { State.reset with
      enc := { Enc.reset with ctl := ⟨.busy, Err.clear⟩ }, dec := { Dec.reset with ctl := ⟨.busy, Err.clear⟩ }, sched := [.host] }
    ({ s with cmds := [.startEnc] } : State).HostNext .startEnc ∧ s.enc.ctl.status = .busy ∧
    ({ s with cmds := [.startDec] } : State).HostNext .startDec ∧ s.dec.ctl.status = .busy :=
  ⟨⟨rfl, rfl⟩, rfl, ⟨rfl, rfl⟩, rfl⟩

/-- StopsOnlyOnHostCommands, the fault: HOST writes the input buffer of a BUSY decoder. -/
theorem witness_race :
    step { decAt ⟨0, 0, 0, 255⟩ Cache.init [] with cmds := [.store .decIn 20 7], sched := [.host] } =
      .fault .hostWriteRace := by rfl

/-- StopsOnlyOnHostCommands, the refusal: it needs an instance of fewer than 2^32 - 1 pixels, which `Config` leaves open. -/
theorem witness_refusal (h : Config.maxPixels < 0xFFFFFFFF) :
    step (encRequest ⟨0xFFFFFFFF, 1, 3, 0, 0x2FFFFFFFD⟩) = .refused .beyondMaxPixels := by
  have hc : ¬ withinCapacity ((0xFFFFFFFF : BitVec 64).toNat * (1 : BitVec 64).toNat) := by
    unfold withinCapacity
    simpa using h
  exact if_neg hc

/-- EnginesDoNotTouchEachOther, EngineStepsKeepInputs, RunningTransactionIgnoresRequestWrites, ColorspaceHasNoEffect and the
invariants' statements: an engine's step that answers a next state, of either engine. -/
theorem witness_engine_step :
    (decAt ⟨0, 0, 0, 255⟩ Cache.init [0xC0]).mover = .dec ∧
    (nextOf (step (decAt ⟨0, 0, 0, 255⟩ Cache.init [0xC0]))).isSome = true ∧
    (encAt ⟨0, 0, 0, 255⟩ ⟨1, 1, 1, 255⟩ 0 Cache.init).mover = .enc ∧
    (nextOf (step (encAt ⟨0, 0, 0, 255⟩ ⟨1, 1, 1, 255⟩ 0 Cache.init))).isSome = true := by decide

/-- StepKeepsBuffersCanonical, StepKeepsCachesCanonical, StepKeepsEncoderInvariant, StepKeepsDecoderInvariant: a running
decoder's state meets the invariants, and its step answers a next state (`witness_engine_step`). -/
theorem witness_invariants :
    (decAt ⟨0, 0, 0, 255⟩ Cache.init [0xC0]).BuffersCanonical ∧ (decAt ⟨0, 0, 0, 255⟩ Cache.init [0xC0]).CachesCanonical ∧
    (decAt ⟨0, 0, 0, 255⟩ Cache.init [0xC0]).dec.Inv ∧ (encAt ⟨0, 0, 0, 255⟩ ⟨1, 1, 1, 255⟩ 0 Cache.init).enc.Inv :=
  ⟨⟨by decide, by decide, by decide, by decide⟩, ⟨fun x => .inl (Cache.lookup_init x), fun x => .inl (Cache.lookup_init x)⟩,
    decAt_inv _ _ _ (by decide), (encAt_inv _ _ _ _ (by decide)).2⟩

/-- StartForgetsThePast: two encoders and two decoders with different pasts and the same request, each about to be started and
each accepted. -/
theorem witness_forgets (s s' : State) (hs : s = encRequest ⟨1, 1, 4, 0, 4⟩)
    (hs' : s' = { s with enc := { s.enc with prev := ⟨9, 9, 9, 9⟩, run := 5, outlen := 99 } }) :
    s.HostNext .startEnc ∧ s'.HostNext .startEnc ∧ (∃ t, step s = .next t ∧ t.enc = s.enc.accept) ∧
    (∃ t, step s' = .next t ∧ t.enc = s'.enc.accept) ∧ s.enc.req = s'.enc.req ∧
    s.enc.accept.ctl.status = .busy ∧ s.enc.ctl.status ≠ .busy ∧ s'.enc.ctl.status ≠ .busy := by
  have hc : withinCapacity ((1 : BitVec 64).toNat * (1 : BitVec 64).toNat) := one_within
  subst hs' hs
  exact ⟨⟨rfl, rfl⟩, ⟨rfl, rfl⟩, ⟨_, if_pos (e := .refused .beyondMaxPixels) hc, rfl⟩, ⟨_, if_pos (e := .refused .beyondMaxPixels) hc, rfl⟩, rfl, rfl, by decide, by decide⟩

theorem witness_decoder_forgets (s s' : State) (hs : s = onePixel 0x66 3 0 0)
    (hs' : s' = { s with dec := { s.dec with cur := ⟨9, 9, 9, 9⟩, run := 5, rp := 99 } }) :
    s.HostNext .startDec ∧ s'.HostNext .startDec ∧ (∃ t, step s = .next t ∧ t.dec = s.dec.accept ⟨1, 1, 3, 0⟩) ∧
    (∃ t, step s' = .next t ∧ t.dec = s'.dec.accept ⟨1, 1, 3, 0⟩) ∧ s.dec.req = s'.dec.req ∧
    s.dec.input = s'.dec.input ∧ (s.dec.accept ⟨1, 1, 3, 0⟩).ctl.status = .busy ∧ s.dec.ctl.status ≠ .busy ∧
    s'.dec.ctl.status ≠ .busy := by
  have hc : withinCapacity ((1 : BitVec 32).toNat * (1 : BitVec 32).toNat) := one_within
  subst hs' hs
  exact ⟨⟨rfl, rfl⟩, ⟨rfl, rfl⟩, ⟨_, if_pos (e := .refused .beyondMaxPixels) hc, rfl⟩, ⟨_, if_pos (e := .refused .beyondMaxPixels) hc, rfl⟩, rfl, rfl, rfl, by decide, by decide⟩

/-- HostSeesOnlyResults: in BUSY two encoders, and two decoders that meet their invariant, that differ in much look alike. -/
theorem witness_view_busy : (encAt ⟨0, 0, 0, 255⟩ ⟨1, 1, 1, 255⟩ 0 Cache.init).enc.ctl.status = encFinishing.enc.ctl.status ∧
    (encAt ⟨0, 0, 0, 255⟩ ⟨1, 1, 1, 255⟩ 0 Cache.init).enc ≠ encFinishing.enc ∧
    encFinishing.enc.ctl.status ≠ .done ∧ encFinishing.enc.ctl.status ≠ .fault ∧
    (decAt ⟨0, 0, 0, 255⟩ Cache.init []).dec.Inv ∧ (decAt ⟨9, 9, 9, 9⟩ Cache.init [0xC0]).dec.Inv ∧
    (decAt ⟨0, 0, 0, 255⟩ Cache.init []).dec.ctl.status = (decAt ⟨9, 9, 9, 9⟩ Cache.init [0xC0]).dec.ctl.status ∧
    (decAt ⟨0, 0, 0, 255⟩ Cache.init []).dec ≠ (decAt ⟨9, 9, 9, 9⟩ Cache.init [0xC0]).dec :=
  ⟨rfl, by decide, by decide, by decide, decAt_inv _ _ _ (by decide), decAt_inv _ _ _ (by decide), rfl, by decide⟩

/-- A decoder in DONE, one pixel put out. -/
def decDone (cur : Pixel) (after : Byte) : Dec :=
  { Dec.reset with
    ctl := ⟨.done, Err.clear⟩, hdr := ⟨1, 1, 3, 0⟩, oc := 3, n := 1, k := 1, wc := 3, rp := 15, inlen := 23, cur := cur
    out := Memory.empty.writeBytes 0 [7, 8, 9, after] }

/-- It meets the decoder's invariant. -/
theorem decDone_inv (cur : Pixel) (after : Byte) : (decDone cur after).Inv :=
  ⟨⟨rfl, fun hf => (by cases hf), fun he => absurd rfl he⟩, Nat.zero_le _, fun hb => (by cases hb),
    fun _ => ⟨⟨.inl rfl, Nat.zero_le _, .inl rfl, rfl⟩, rfl, rfl, (show 14 ≤ 15 by decide), (show 15 ≤ 23 by decide)⟩⟩

/-- HostSeesOnlyResults: in DONE the bytes beyond the result and the current pixel differ, the results agree. -/
theorem witness_view_done : (decDone ⟨7, 8, 9, 255⟩ 1).Inv ∧ (decDone ⟨1, 2, 3, 4⟩ 2).Inv ∧
    decDone ⟨7, 8, 9, 255⟩ 1 ≠ decDone ⟨1, 2, 3, 4⟩ 2 ∧ (decDone ⟨7, 8, 9, 255⟩ 1).ctl.status = .done ∧
    (decDone ⟨7, 8, 9, 255⟩ 1).hdr = (decDone ⟨1, 2, 3, 4⟩ 2).hdr ∧
    (∀ a, a < 3 → (decDone ⟨7, 8, 9, 255⟩ 1).out.read a = (decDone ⟨1, 2, 3, 4⟩ 2).out.read a) :=
  ⟨decDone_inv _ _, decDone_inv _ _, by decide, rfl, rfl, by decide⟩

/-- LongRunsSplitAt62: no pixel after the run, and one that differs. -/
theorem witness_long_runs : (∀ px, ([] : List Pixel).head? = some px → px ≠ Rolling.init.prev) ∧
    (∀ px, [(⟨1, 1, 1, 255⟩ : Pixel)].head? = some px → px ≠ Rolling.init.prev) ∧ Rolling.init.run = 0 :=
  ⟨fun _ h => (by cases h), fun px h => by cases h; decide, rfl⟩

end Sys2Proof.Tests
end

section
/-! The decoder by first byte: one equation per opcode (R101, R102), the length of a chunk (R106), and the statements about
them. -/

namespace Sys2Proof

/-! ### The first byte's tag and fields -/

/-- The two-bit tag as a quotient. -/
theorem bitField_tag (b : Byte) : bitField b 6 2 = b.toNat / 64 := by
  rw [bitField_eq]
  have := b.isLt
  omega

/-- A first byte of at most `0xFD` is neither of the two that are told by the whole byte (R101). -/
theorem ne_eightBitTags {b : Byte} (h : b.toNat ≤ 0xFD) : b ≠ 0xFE ∧ b ≠ 0xFF := by
  constructor <;> rintro rfl <;> exact absurd h (by decide)

theorem decodeIndex_eq {b : Byte} (h : b.toNat < 64) : decodeIndex b = .index ⟨b.toNat, h⟩ := by
  have hfield : bitField b 0 6 % 64 = b.toNat := by rw [bitField_eq]; omega
  simp [decodeIndex, Fin.ofNat, hfield]

theorem decodeDiff_eq (b : Byte) : decodeDiff b =
    .diff ((b.toNat / 16 % 4 : Nat) - 2) ((b.toNat / 4 % 4 : Nat) - 2) ((b.toNat % 4 : Nat) - 2) := by
  simp [decodeDiff, bitField_eq]

theorem decodeLuma_eq (b b2 : Byte) : decodeLuma b b2 =
    .luma ((b.toNat % 64 : Nat) - 32) ((b2.toNat / 16 : Nat) - 8) ((b2.toNat % 16 : Nat) - 8) := by
  have hhigh : bitField b2 4 4 = b2.toNat / 16 := by rw [bitField_eq]; have := b2.isLt; omega
  have hgreen : bitField b 0 6 = b.toNat % 64 := by rw [bitField_eq]; omega
  have hlow : bitField b2 0 4 = b2.toNat % 16 := by rw [bitField_eq]; omega
  rw [decodeLuma, hgreen, hhigh, hlow]

theorem decodeRun_eq (b : Byte) : decodeRun b = .run (b.toNat % 64 + 1) := by
  simp [decodeRun, bitField_eq]

/-! ### One equation of `decode` per opcode -/

theorem decode_index {b : Byte} (h : b.toNat / 64 = 0) (rest : List Byte) :
    decode (b :: rest) = .ok (decodeIndex b, rest) := by
  obtain ⟨hFE, hFF⟩ := ne_eightBitTags (b := b) (by omega)
  simp only [decode, hFE, hFF, bitField_tag, h, reduceIte]

theorem decode_diff {b : Byte} (h : b.toNat / 64 = 1) (rest : List Byte) :
    decode (b :: rest) = .ok (decodeDiff b, rest) := by
  obtain ⟨hFE, hFF⟩ := ne_eightBitTags (b := b) (by omega)
  simp only [decode, hFE, hFF, bitField_tag, h, reduceIte, Nat.reduceEqDiff]

theorem decode_luma {b : Byte} (h : b.toNat / 64 = 2) (b2 : Byte) (rest : List Byte) :
    decode (b :: b2 :: rest) = .ok (decodeLuma b b2, rest) := by
  obtain ⟨hFE, hFF⟩ := ne_eightBitTags (b := b) (by omega)
  simp only [decode, hFE, hFF, bitField_tag, h, reduceIte, Nat.reduceEqDiff]

theorem decode_luma_truncated {b : Byte} (h : b.toNat / 64 = 2) : decode [b] = .error .truncatedChunk := by
  obtain ⟨hFE, hFF⟩ := ne_eightBitTags (b := b) (by omega)
  simp only [decode, hFE, hFF, bitField_tag, h, reduceIte, Nat.reduceEqDiff]

theorem decode_run {b : Byte} (h : b.toNat / 64 = 3) (hle : b.toNat ≤ 0xFD) (rest : List Byte) :
    decode (b :: rest) = .ok (decodeRun b, rest) := by
  obtain ⟨hFE, hFF⟩ := ne_eightBitTags hle
  simp only [decode, hFE, hFF, bitField_tag, h, reduceIte, Nat.reduceEqDiff]

theorem decode_rgb (r g b : Byte) (rest : List Byte) : decode (0xFE :: r :: g :: b :: rest) = .ok (.rgb r g b, rest) := rfl

theorem decode_rgb_truncated {payload : List Byte} (h : payload.length < 3) :
    decode (0xFE :: payload) = .error .truncatedChunk := by
  match payload, h with
  | [], _ | [_], _ | [_, _], _ => rfl

theorem decode_rgba (r g b a : Byte) (rest : List Byte) :
    decode (0xFF :: r :: g :: b :: a :: rest) = .ok (.rgba r g b a, rest) := rfl

theorem decode_rgba_truncated {payload : List Byte} (h : payload.length < 4) :
    decode (0xFF :: payload) = .error .truncatedChunk := by
  match payload, h with
  | [], _ | [_], _ | [_, _], _ | [_, _, _], _ => rfl

/-! ### The length of a chunk -/

/-- Every first byte falls under one of the six opcodes. -/
theorem firstByte_cases (b : Byte) :
    b.toNat / 64 = 0 ∨ b.toNat / 64 = 1 ∨ b.toNat / 64 = 2 ∨ (b.toNat / 64 = 3 ∧ b.toNat ≤ 0xFD) ∨ b = 0xFE ∨ b = 0xFF := by
  have hFE : b = 0xFE ↔ b.toNat = 0xFE := BitVec.toNat_inj.symm
  have hFF : b = 0xFF ↔ b.toNat = 0xFF := BitVec.toNat_inj.symm
  have := b.isLt
  rw [hFE, hFF]
  omega

/-- A first byte other than LUMA's, RGB's and RGBA's has no payload. -/
theorem payloadLength_eq_zero {b : Byte} (hle : b.toNat ≤ 0xFD) (h : b.toNat / 64 ≠ 2) : payloadLength b = 0 := by
  rw [payloadLength_eq, if_neg (by omega), if_neg (by omega), if_neg h]

theorem payloadLength_luma {b : Byte} (h : b.toNat / 64 = 2) : payloadLength b = 1 := by
  rw [payloadLength_eq, if_neg (by omega), if_neg (by omega), if_pos h]

/-- With the payload there, an opcode is read and exactly the payload is taken, whatever its bytes. -/
theorem decode_takes_payloadLength {b : Byte} {payload : List Byte} (hlen : payloadLength b ≤ payload.length) :
    ∃ i, decode (b :: payload) = .ok (i, payload.drop (payloadLength b)) := by
  rcases firstByte_cases b with h | h | h | ⟨h, hle⟩ | rfl | rfl
  · rw [payloadLength_eq_zero (by omega) (by omega)]
    exact ⟨_, decode_index h payload⟩
  · rw [payloadLength_eq_zero (by omega) (by omega)]
    exact ⟨_, decode_diff h payload⟩
  · rw [payloadLength_luma h] at hlen ⊢
    match payload, hlen with
    | b2 :: rest, _ => exact ⟨_, decode_luma h b2 rest⟩
  · rw [payloadLength_eq_zero hle (by omega)]
    exact ⟨_, decode_run h hle payload⟩
  · match payload, hlen with
    | r :: g :: bl :: rest, _ => exact ⟨_, decode_rgb r g bl rest⟩
  · match payload, hlen with
    | r :: g :: bl :: a :: rest, _ => exact ⟨_, decode_rgba r g bl a rest⟩

/-- With less than the payload there, the chunk is refused as cut short. -/
theorem decode_truncated_of_lt_payloadLength {b : Byte} {payload : List Byte} (hlen : payload.length < payloadLength b) :
    decode (b :: payload) = .error .truncatedChunk := by
  have hshort (hle : b.toNat ≤ 0xFD) : b.toNat / 64 = 2 := by
    by_contra h
    rw [payloadLength_eq_zero hle h] at hlen
    omega
  rcases firstByte_cases b with h | h | h | ⟨h, hle⟩ | rfl | rfl
  · exact absurd (hshort (by omega)) (by omega)
  · exact absurd (hshort (by omega)) (by omega)
  · rw [payloadLength_luma h] at hlen
    rw [List.length_eq_zero_iff.mp (Nat.lt_one_iff.mp hlen)]
    exact decode_luma_truncated h
  · exact absurd (hshort hle) (by omega)
  · exact decode_rgb_truncated hlen
  · exact decode_rgba_truncated hlen

/-- R106's table: the payload length and the first byte. -/
theorem payloadLength_add_one (b : Byte) : payloadLength b + 1 =
    if b.toNat ≤ 0x7F then 1 else if b.toNat ≤ 0xBF then 2 else if b.toNat ≤ 0xFD then 1
    else if b.toNat = 0xFE then 4 else 5 := by
  rw [payloadLength_eq]
  have := b.isLt
  split_ifs <;> omega

/-! ### The statements -/

/-- Settles O5: R102's ranges are the tags of the decoder's equations, and the fields are those of each equation's opcode. -/
theorem firstByteSelectsTheOpcode : Obligations.FirstByteSelectsTheOpcode := by
  intro b b1 b2 b3 b4 rest
  refine ⟨fun hi => ?index, fun lo hi => ?diff, fun lo hi => ?luma, fun lo hi => ?run, fun h => ?rgb, fun h => ?rgba⟩
  case index => exact ⟨⟨b.toNat, by omega⟩, rfl, by rw [decode_index (by omega), decodeIndex_eq]⟩
  case diff => rw [decode_diff (by omega), decodeDiff_eq]
  case luma => rw [decode_luma (by omega), decodeLuma_eq]
  case run => rw [decode_run (by omega) hi, decodeRun_eq]
  case rgb =>
    obtain rfl : b = 0xFE := BitVec.eq_of_toNat_eq h
    exact decode_rgb b1 b2 b3 (b4 :: rest)
  case rgba =>
    obtain rfl : b = 0xFF := BitVec.eq_of_toNat_eq h
    exact decode_rgba b1 b2 b3 b4 rest

/-- Settles O6: a chunk is its first byte and the payload whose length that byte gives. -/
theorem chunkLengthIsFixedByTheFirstByte : Obligations.ChunkLengthIsFixedByTheFirstByte := by
  intro b payload
  refine ⟨payloadLength b + 1, payloadLength_add_one b, fun hlen => ?_, fun hlen => ?_⟩
  · exact decode_takes_payloadLength (Nat.le_of_succ_le_succ hlen)
  · exact decode_truncated_of_lt_payloadLength (Nat.lt_of_succ_lt_succ hlen)

end Sys2Proof
end

section
/-! The bytes of the header (R120): the digits of a big-endian word (R66), and the statement about `writeHeader`. -/

namespace Sys2Proof.Machine

/-- The top digit needs no remainder: a 32-bit word has no digit above it. -/
theorem topDigit_mod (v : BitVec 32) : v.toNat / 2 ^ 24 % 256 = v.toNat / 2 ^ 24 :=
  Nat.mod_eq_of_lt (Nat.div_lt_of_lt_mul v.isLt)

/-- `be32` as numbers: the base-256 digits of the word, most significant first (R66). -/
theorem be32_map_toNat (v : BitVec 32) : (be32 v).map BitVec.toNat =
    [v.toNat / 2 ^ 24, v.toNat / 2 ^ 16 % 256, v.toNat / 2 ^ 8 % 256, v.toNat % 256] := by
  simp only [be32, List.map_cons, List.map_nil, extractByte_toNat, topDigit_mod, Nat.pow_zero, Nat.div_one]

/-- Settles O27: the fields stand in R120's order, and each of the two words is its four digits. -/
theorem writeHeaderBytes : Obligations.WriteHeaderBytes := by
  intro w h c s
  simp only [writeHeader, List.map_append, be32_map_toNat, List.map_cons, List.map_nil, List.append_assoc,
    List.cons_append, List.nil_append]

end Sys2Proof.Machine
end

section
/-! The pixel cache: which steps of the decoder write it (R147, R233), and the slot of a pixel (R141). -/

namespace Sys2Proof.Machine

/-- A pixel written into a cache is in its own slot and nowhere else (R145). -/
theorem Cache.storedIn_store (cache : Cache) (p : Pixel) : cache.StoredIn (cache.store p) p := cache.lookup_store p

/-- A resolved pixel is the current one, and in its slot, once it is put out (R233). -/
theorem Dec.resolve_producePixel_storedIn (d : Dec) (p : Pixel) :
    d.cache.StoredIn (d.resolve p).producePixel.cache (d.resolve p).producePixel.cur := by
  rw [Dec.producePixel_cache, Dec.producePixel_cur, Dec.resolve_cache, Dec.resolve_cur]
  exact d.cache.storedIn_store p

/-- With a run active, the decoder's step is a replay, whatever the input holds (R168). -/
theorem step_replay {s : State} (hm : s.mover = .dec) (hp : s.dec.pixelEnabled) (hr : 0 < s.dec.run) :
    step s = .next { s.takeTurn with dec := s.dec.replay } := by
  have hp' : s.takeTurn.dec.pixelEnabled := hp
  have hr' : s.takeTurn.dec.replaying := hr
  rw [step, machineStep_dec s hm, decStep, if_pos hp', decPixel, if_pos hr', State.takeTurn_dec]

/-- Settles O14: INDEX and RUN set the current pixel and the run counter alone; the other four resolve their pixel, which
stores it; a replay stores nothing. -/
theorem onlyResolvingOpcodesWriteTheCache : Obligations.OnlyResolvingOpcodesWriteTheCache := by
  refine ⟨fun i s => ⟨_, exec_eq i s, ?opcode⟩, fun s hm hp hr => ⟨_, step_replay hm hp hr, s.dec.replay_cache⟩⟩
  cases i with
  | index slot => rfl
  | run n => rfl
  | diff dr dg db => exact (s.dec.advance 1).resolve_producePixel_storedIn (diffPixel s.dec.cur dr dg db)
  | luma dg drDg dbDg => exact (s.dec.advance 2).resolve_producePixel_storedIn (lumaPixel s.dec.cur dg drDg dbDg)
  | rgb r g b => exact (s.dec.advance 4).resolve_producePixel_storedIn (rgbPixel s.dec.cur r g b)
  | rgba r g b a => exact (s.dec.advance 5).resolve_producePixel_storedIn ⟨r, g, b, a⟩

/-- The slot as a number (R141). -/
theorem pixelHash_val (p : Pixel) :
    (pixelHash p).val = (p.r.toNat * 3 + p.g.toNat * 5 + p.b.toNat * 7 + p.a.toNat * 11) % 64 := rfl

/-- Settles O38: the formula is the slot's number, and the examples are four values of it. -/
theorem hashFormula : Obligations.HashFormula := ⟨pixelHash_val, by decide⟩

end Sys2Proof.Machine
end

section
/-! The run-length accumulator on both sides: RUN and the replay in the decoder (R167, R168), counting and flushing in the
encoder (R161, R162, R164). -/

namespace Sys2Proof.Machine

/-! ### The decoder -/

/-- The replays owed fit the counter for every run an encoding exists for. -/
theorem replaysOwed_toNat {n : Nat} (hn : n ≤ 62) : (replaysOwed n).toNat = n - 1 := by
  rw [replaysOwed, BitVec.toNat_ofNat, Nat.mod_eq_of_lt (by omega)]

/-- Where a whole chunk stands at `RP` below `INLEN`, the step executes the opcode it decodes to (R225, R226). -/
theorem step_exec_of_fetchesChunk {s : State} {b : Byte} {payload rest : List Byte} {i : Instr}
    (hf : s.FetchesChunk (b :: payload)) (hlen : payload.length = payloadLength b)
    (hd : decode (b :: payload) = .ok (i, rest)) : step s = exec i s.takeTurn := by
  obtain ⟨⟨hm, hp, hrun⟩, hroom, hholds⟩ := hf
  have hsize : (b :: payload).length = 1 + payloadLength b := by rw [List.length_cons, hlen, Nat.add_comm]
  have hb : s.dec.input.read s.dec.rp.toNat = b := hholds 0 (Nat.succ_pos _)
  have hchunk : s.takeTurn.dec.fetchChunk = some (b :: payload) := by
    have hbytes := (Memory.holds_iff _ _ _).mp hholds
    rw [hsize] at hroom hbytes
    rw [State.takeTurn_dec, s.dec.fetchChunk_below (by rwa [hb]), hb, hbytes]
  have hp' : s.takeTurn.dec.pixelEnabled := hp
  have hr' : ¬ s.takeTurn.dec.replaying := by
    rw [Dec.replaying, State.takeTurn_dec, hrun]
    exact BitVec.lt_irrefl _
  rw [step, machineStep_dec s hm, decStep, if_pos hp', decPixel, if_neg hr', decFetchPixel, hchunk]
  simp only [hd]

/-- Every opcode puts its current pixel out once. -/
theorem Dec.executed_produced (d : Dec) (i : Instr) : d.Produced (d.executed i).producePixel (d.executed i).cur := by
  obtain ⟨_, _, _, hhdr, hoc, _, hk, hwc, _, hout, _⟩ := d.executed_frame i
  exact d.producePixel_produced _ hoc hhdr hout hwc hk

/-- No opcode touches the transaction's setup. -/
theorem Dec.executed_sameSetup (d : Dec) (i : Instr) : d.SameSetup (d.executed i).producePixel := by
  obtain ⟨hctl, hreq, hinlen, hhdr, hoc, hn, _, _, hinput, _⟩ := d.executed_frame i
  exact ⟨hctl, hreq, hinlen, hhdr, hoc, hn, hinput⟩

/-- Settles O11: exec of RUN by its equation; a byte of RUN's range is a whole chunk, so the step is that exec. -/
theorem runLoadsTheReplaysOwed : Obligations.RunLoadsTheReplaysOwed := by
  constructor
  · intro n s _ hn
    exact ⟨_, exec_eq (.run n) s, replaysOwed_toNat hn, rfl, rfl, rfl, s.dec.executed_produced (.run n),
      s.dec.executed_sameSetup (.run n), rfl, rfl, rfl⟩
  · intro s b ⟨hf, _⟩ htag hFE hFF
    have hle : b.toNat ≤ 0xFD := by have := b.isLt; omega
    have hstep : step s = exec (.run (b.toNat % 64 + 1)) s.takeTurn :=
      step_exec_of_fetchesChunk hf (payloadLength_eq_zero hle (by omega)).symm (by rw [decode_run htag hle, decodeRun_eq])
    exact ⟨_, hstep.trans (exec_eq _ _), hstep, replaysOwed_toNat (by omega)⟩

/-- Settles O18: the step is `replay`, which fetches nothing. -/
theorem replayNeedsNoInput : Obligations.ReplayNeedsNoInput := by
  intro s hm hp hr
  refine ⟨_, step_replay hm hp hr, rfl, rfl, rfl, rfl, ?_, ⟨rfl, rfl, rfl, rfl, rfl, rfl, rfl⟩, rfl, rfl⟩
  exact s.dec.producePixel_produced { s.dec with run := s.dec.run - 1 } rfl rfl rfl rfl rfl

/-! ### The encoder -/

/-- RUN's byte for every run an encoding exists for: the bias is taken off, and the tag and the field do not overlap (R96). -/
theorem encode_run {n : Nat} (hpos : 1 ≤ n) (hn : n ≤ 62) : encode (.run n) = [BitVec.ofNat 8 (0xC0 + (n - 1))] := by
  have hfield : biased n (-1) = BitVec.ofNat 8 (n - 1) := by
    rw [biased, show (n : Int) + -1 = ((n - 1 : Nat) : Int) by omega, BitVec.ofInt_natCast]
  have htag : 0xC0 + (n - 1) = 0xC0 ||| (n - 1) := Nat.two_pow_add_eq_or_of_lt (i := 6) (by omega) 3
  rw [encode, hfield, htag, BitVec.ofNat_or]
  rfl

/-- The byte a pending run is flushed with is the chunk of the big-step form, while the counter is one a step leaves. -/
theorem chunkBytes_runChunk {run : BitVec 6} (hrun : run.toNat ≤ 61) :
    chunkBytes (runChunk run.toNat) = pendingRunBytes run := by
  unfold pendingRunBytes
  by_cases h : run.toNat = 0
  · rw [if_pos h, h, runChunk_zero, chunkBytes_nil]
  · rw [if_neg h, runChunk_pos h, chunkBytes_singleton, encode_run (by omega) (by omega)]

/-- A pixel step appends exactly the bytes of its chunks (R183). -/
theorem Enc.became_appended (e : Enc) (bytes : List Byte) (r : Rolling) (pos : BitVec 64) :
    e.Appended { e.became bytes r with pos := pos } bytes :=
  ⟨e.out.read_writeBytes_inside _ bytes, e.out.read_writeBytes_outside _ bytes, rfl⟩

/-- A pixel step leaves the transaction's setup alone. -/
theorem Enc.became_sameSetup (e : Enc) (bytes : List Byte) (r : Rolling) (pos : BitVec 64) :
    e.SameSetup { e.became bytes r with pos := pos } := ⟨rfl, rfl, rfl, rfl, rfl⟩

/-- A running encoder's output cursor has room for a pixel: at most 5 bytes were put out for each pixel so far (R198). -/
theorem Enc.Running.outlen_room {e : Enc} (h : e.Running) : e.outlen.toNat + 6 < 2 ^ 67 := by
  obtain ⟨⟨hc, _⟩, _, _, _, hout, _⟩ := h
  have hlt : e.pos.toNat < 2 ^ 64 := e.pos.isLt
  have hc5 : e.cfg.c.toNat + 1 ≤ 5 := by rcases hc with hc | hc <;> rw [hc] <;> decide
  have hmul := Nat.mul_le_mul_right e.pos.toNat hc5
  omega

/-- A pixel step of the machine, by what the big-step form gives for the pixel (R186): its chunks appended, its rolling state
taken, `POS` one further. -/
theorem step_encPixel {s : State} (hn : s.EncPixelNext) (hinv : s.enc.Inv) {chunks : List Instr} {r : Rolling}
    (h : s.enc.rolling.encodeStep s.enc.fetchPixel (decide (s.enc.pos.toNat + 1 = s.enc.n.toNat)) = (chunks, r)) :
    step s = .next { s.takeTurn with enc := { s.enc.became (chunkBytes chunks) r with pos := s.enc.pos + 1 } } := by
  obtain ⟨hm, hp⟩ := hn
  obtain ⟨_, hrun, hbusy, _⟩ := hinv
  rw [step, machineStep_enc s hm, Enc.step, if_pos hp,
    s.enc.encodePixel_eq (hbusy hp.1).outlen_room hrun hp.2, h]

/-- Settles O28: the two cases of the big-step form for a pixel equal to the previous one. -/
theorem runPixelIsCountedOrFlushed : Obligations.RunPixelIsCountedOrFlushed := by
  intro s hn hinv hpx
  have ⟨_, hrun, _⟩ := hinv
  by_cases hflush : s.enc.run.toNat + 1 = 62 ∨ s.enc.pos.toNat + 1 = s.enc.n.toNat
  · have hstep := step_encPixel hn hinv
      (encodeStep_flush (r := s.enc.rolling) hpx (hflush.imp_right decide_eq_true))
    rw [chunkBytes_singleton, Enc.rolling_run, encode_run (by omega) (by omega)] at hstep
    refine ⟨_, hstep, ?_, rfl, rfl, rfl, s.enc.became_sameSetup _ _ _, rfl, rfl⟩
    rw [if_pos hflush]
    exact ⟨s.enc.became_appended _ _ _, rfl⟩
  · have hstep := step_encPixel hn hinv
      (encodeStep_count (r := s.enc.rolling) hpx (fun h => hflush (h.imp_right of_decide_eq_true)))
    refine ⟨_, hstep, ?_, rfl, rfl, rfl, s.enc.became_sameSetup _ _ _, rfl, rfl⟩
    rw [if_neg hflush]
    have hcount : (BitVec.ofNat 6 (s.enc.run.toNat + 1)).toNat = s.enc.run.toNat + 1 := by
      rw [BitVec.toNat_ofNat, Nat.mod_eq_of_lt (by omega)]
    exact ⟨rfl, BitVec.add_zero _, hcount⟩

/-- Settles O29: the big-step form's chunks for a differing pixel are the pending run's, then the pixel's own. -/
theorem pendingRunIsFlushedFirst : Obligations.PendingRunIsFlushedFirst := by
  intro s px hn hinv hpx hne
  subst hpx
  have ⟨_, hrun, _⟩ := hinv
  have hstep := step_encPixel hn hinv (encodeStep_change (r := s.enc.rolling) hne)
  rw [chunkBytes_append, Enc.rolling_run, chunkBytes_runChunk hrun, chunkBytes_singleton] at hstep
  exact ⟨_, _, hstep, rfl, List.length_pos_of_ne_nil (encode_ne_nil _), s.enc.became_appended _ _ _, rfl⟩

end Sys2Proof.Machine
end

section
/-! The encoder's mux (R185 to R195): what a differing pixel's step does, which opcode a miss gets, and the finish. -/

namespace Sys2Proof.Machine

/-! ### Signed deltas -/

/-- The model's signed delta meets R10. -/
theorem isDelta_sdelta (cur prev : Byte) : IsDelta (sdelta cur prev) cur prev := by
  have hcur := cur.isLt
  have hwrap := wrap8_toNat ((cur.toNat : Int) - prev.toNat)
  unfold IsDelta sdelta s8
  split <;> omega

/-- R10 leaves one number: two in -128..127 that are congruent modulo 256 are equal. -/
theorem IsDelta.unique {d d' : Int} {cur prev : Byte} (h : IsDelta d cur prev) (h' : IsDelta d' cur prev) : d = d' := by
  obtain ⟨hlo, hhi, hmod⟩ := h
  obtain ⟨hlo', hhi', hmod'⟩ := h'
  omega

/-- The mux's deltas are any three that meet R10. -/
theorem deltas_eq {px prev : Pixel} {dr dg db : Int} (hr : IsDelta dr px.r prev.r) (hg : IsDelta dg px.g prev.g)
    (hb : IsDelta db px.b prev.b) : deltas px prev = ⟨dr, dg, db⟩ := by
  rw [deltas, (isDelta_sdelta _ _).unique hr, (isDelta_sdelta _ _).unique hg, (isDelta_sdelta _ _).unique hb]

/-! ### DIFF's byte -/

/-- A biased operand that is a natural number. -/
theorem biased_eq_ofNat {v bias : Int} {n : Nat} (h : v + bias = n) : biased v bias = BitVec.ofNat 8 n := by
  rw [biased, h, BitVec.ofInt_natCast]

/-- Shifting a number, then cutting it to a word, is shifting the word. -/
theorem ofNat_shiftLeft (w n k : Nat) : BitVec.ofNat w (n <<< k) = BitVec.ofNat w n <<< k := by
  apply BitVec.eq_of_toNat_eq
  rw [BitVec.toNat_shiftLeft, BitVec.toNat_ofNat, BitVec.toNat_ofNat, Nat.shiftLeft_eq, Nat.shiftLeft_eq, Nat.mod_mul_mod]

/-- DIFF's tag and fields do not overlap: they may be added or put together bit by bit (R94). -/
theorem diffFields_add_eq_or {r g b : Nat} (hr : r < 4) (hg : g < 4) (hb : b < 4) :
    0x40 + r * 16 + g * 4 + b = 0x40 ||| r <<< 4 ||| g <<< 2 ||| b := by
  have hr4 : r <<< 4 = r * 16 := Nat.shiftLeft_eq r 4
  have hg2 : g <<< 2 = g * 4 := Nat.shiftLeft_eq g 2
  calc 0x40 + r * 16 + g * 4 + b = 1 <<< 6 + (r <<< 4 + (g <<< 2 + b)) := by omega
    _ = 1 <<< 6 ||| (r <<< 4 ||| (g <<< 2 ||| b)) := by
      rw [Nat.shiftLeft_add_eq_or_of_lt (by omega), Nat.shiftLeft_add_eq_or_of_lt (by omega),
        Nat.shiftLeft_add_eq_or_of_lt (by omega)]
    _ = 0x40 ||| r <<< 4 ||| g <<< 2 ||| b := by rw [Nat.lor_assoc, Nat.lor_assoc]; rfl

/-- DIFF's byte as R190 has it, for all deltas an encoding exists for. -/
theorem encode_diff {dr dg db : Int} (hr : -2 ≤ dr ∧ dr ≤ 1) (hg : -2 ≤ dg ∧ dg ≤ 1) (hb : -2 ≤ db ∧ db ≤ 1) :
    encode (.diff dr dg db) = [BitVec.ofInt 8 (0x40 + (dr + 2) * 16 + (dg + 2) * 4 + (db + 2))] := by
  obtain ⟨r, hr'⟩ : ∃ r : Nat, dr + 2 = r := Int.eq_ofNat_of_zero_le (by omega)
  obtain ⟨g, hg'⟩ : ∃ g : Nat, dg + 2 = g := Int.eq_ofNat_of_zero_le (by omega)
  obtain ⟨b, hb'⟩ : ∃ b : Nat, db + 2 = b := Int.eq_ofNat_of_zero_le (by omega)
  have hsum : (0x40 + (r : Int) * 16 + g * 4 + b) = ((0x40 + r * 16 + g * 4 + b : Nat) : Int) := by norm_cast
  rw [encode, biased_eq_ofNat hr', biased_eq_ofNat hg', biased_eq_ofNat hb', hr', hg', hb', hsum, BitVec.ofInt_natCast,
    diffFields_add_eq_or (by omega) (by omega) (by omega), BitVec.ofNat_or, BitVec.ofNat_or, BitVec.ofNat_or,
    ofNat_shiftLeft, ofNat_shiftLeft]
  rfl

/-! ### A pixel that differs from the previous one -/

section
variable {s : State} {px : Pixel} (hn : s.EncPixelNext) (hinv : s.enc.Inv)
  (hpx : px = pixelAt s.enc.pix s.enc.cfg.c s.enc.pos.toNat) (hne : px ≠ s.enc.prev)
include hn hinv hpx hne

/-- The step of a differing pixel, hit or miss: a pending run's byte and the pixel's chunk are appended, and the pixel is
the previous one after it (R186, R194). -/
theorem step_encChange : step s = .next { s.takeTurn with
    enc := { s.enc.became (pendingRunBytes s.enc.run ++ encode (changeChunk s.enc.rolling px))
      ⟨px, 0, changeCache s.enc.cache px⟩ with pos := s.enc.pos + 1 } } := by
  subst hpx
  have ⟨_, hrun, _⟩ := hinv
  rw [step_encPixel hn hinv (encodeStep_change (r := s.enc.rolling) hne), chunkBytes_append, Enc.rolling_run,
    chunkBytes_runChunk hrun, chunkBytes_singleton]
  rfl

/-- The step of a miss, whichever opcode the mux chooses: its bytes after a pending run's, and the pixel in its slot
(R189). -/
theorem step_encMiss (hmiss : s.enc.cache.lookup (pixelHash px) ≠ px) {bytes : List Byte}
    (hbytes : encode (changeChunk s.enc.rolling px) = bytes) :
    ∃ t, step s = .next t ∧ s.enc.Appended t.enc (pendingRunBytes s.enc.run ++ bytes) ∧
      s.enc.cache.StoredIn t.enc.cache px ∧ t.enc.prev = px ∧ t.enc.run = 0 ∧ t.enc.pos = s.enc.pos + 1 ∧
      s.enc.SameSetup t.enc ∧ t.dec = s.dec ∧ t.cmds = s.cmds := by
  subst hbytes
  refine ⟨_, step_encChange hn hinv hpx hne, s.enc.became_appended _ _ _, ?_, rfl, rfl, rfl, s.enc.became_sameSetup _ _ _,
    rfl, rfl⟩
  have hstored := s.enc.cache.storedIn_store px
  rwa [← changeCache_miss hmiss] at hstored

end

/-- Settles O30: a miss stores the pixel, and the opcode chosen plays no part in it. -/
theorem missStoresThePixel : Obligations.MissStoresThePixel := by
  intro s px hn hinv hpx hne hmiss
  obtain ⟨t, hstep, _, hstored, _⟩ := step_encMiss hn hinv hpx hne hmiss rfl
  exact ⟨t, hstep, hstored⟩

/-- Settles O32: the mux's deltas are the given ones and fit DIFF. -/
theorem smallDeltasEmitDiff : Obligations.SmallDeltasEmitDiff := by
  intro s px dr dg db hn hinv hpx hne hmiss halpha hdr hdg hdb hr hg hb
  have hdeltas := deltas_eq hdr hdg hdb
  have hdiff : diffOk px s.enc.prev := ⟨halpha, by rw [hdeltas]; exact ⟨hr, hg, hb⟩⟩
  have hchunk : changeChunk s.enc.rolling px = .diff dr dg db := by
    rw [changeChunk_diff hmiss hdiff, Enc.rolling_prev, hdeltas]
  exact step_encMiss hn hinv hpx hne hmiss (by rw [hchunk, encode_diff hr hg hb])

/-- Settles O34: the mux's deltas are the given ones and fit neither DIFF nor LUMA. -/
theorem largeDeltasEmitRgb : Obligations.LargeDeltasEmitRgb := by
  intro s px dr dg db hn hinv hpx hne hmiss halpha hdr hdg hdb hnotDiff hnotLuma
  have hdeltas := deltas_eq hdr hdg hdb
  have hdiff : ¬ diffOk px s.enc.prev := fun h => hnotDiff (by simpa only [hdeltas] using h.2)
  have hluma : ¬ lumaOk px s.enc.prev := fun h => hnotLuma (by simpa only [hdeltas] using h.2)
  exact step_encMiss hn hinv hpx hne hmiss (by rw [changeChunk_rgb hmiss hdiff hluma halpha]; rfl)

/-- Settles O35: with alpha changed the mux has no other opcode left. -/
theorem alphaChangeEmitsRgba : Obligations.AlphaChangeEmitsRgba := by
  intro s px hn hinv hpx hne hmiss halpha
  exact step_encMiss hn hinv hpx hne hmiss (by rw [changeChunk_rgba hmiss halpha]; rfl)

/-! ### The pixel fetch and the finish -/

/-- Settles O36: the base is `i` times the channel count, and only 4 channels read a fourth byte. -/
theorem pixelFetchLayout : Obligations.PixelFetchLayout := fun _ _ => ⟨rfl, rfl⟩

/-- With every pixel processed, the encoder's step is `enc_finish` (R195). -/
theorem step_encFinish {s : State} (hm : s.mover = .enc) (hf : s.enc.finishEnabled) :
    step s = .next { s.takeTurn with enc := s.enc.finish } := by
  have hp : ¬ s.enc.pixelEnabled := fun hp => absurd hp.2 (by rw [hf.2]; exact BitVec.lt_irrefl _)
  rw [step, machineStep_enc s hm, Enc.step, if_neg hp, if_pos hf]

/-- The finish appends exactly the end marker (R183). -/
theorem Enc.finish_appended (e : Enc) : e.Appended e.finish Config.endMarker :=
  ⟨e.out.read_writeBytes_inside _ _, e.out.read_writeBytes_outside _ _, rfl⟩

/-- Settles O37: the step is `enc_finish`, which writes the marker, `OUTLEN` and STATUS alone. -/
theorem encoderFinishAppendsTheEndMarker : Obligations.EncoderFinishAppendsTheEndMarker := by
  intro s hm hbusy hpos
  exact ⟨_, step_encFinish hm ⟨hbusy, hpos⟩, s.enc.finish_appended, rfl, rfl, rfl, rfl, rfl, rfl, rfl, rfl, rfl, rfl, rfl⟩

end Sys2Proof.Machine
end

section
/-! The decoder's opcodes (R227 to R231), a chunk with a byte missing (R237), and the finish (R235). -/

namespace Sys2Proof.Machine

/-! ### What the decoder's steps share -/

/-- A component plus a delta, as a number (R230, R231). -/
theorem addDelta_toNat (c : Byte) (d : Int) : ((addDelta c d).toNat : Int) = (c.toNat + d) % 256 := wrap8_toNat _

/-- About to fetch, the decoder's step is the part of `dec_pixel` that fetches (R225). -/
theorem step_decFetch {s : State} (hn : s.DecFetchNext) : step s = decFetchPixel s.takeTurn := by
  obtain ⟨hm, hp, hrun⟩ := hn
  have hp' : s.takeTurn.dec.pixelEnabled := hp
  have hr' : ¬ s.takeTurn.dec.replaying := by
    rw [Dec.replaying, State.takeTurn_dec, hrun]
    exact BitVec.lt_irrefl _
  rw [step, machineStep_dec s hm, decStep, if_pos hp', decPixel, if_neg hr']

/-- A fetching step with a byte of its chunk at or beyond `INLEN` raises TRUNCATED_STREAM, and nothing else of it takes
effect (R237, R270). -/
theorem step_truncatesTo {s : State} (hn : s.DecFetchNext)
    (h : s.dec.inlen.toNat ≤ s.dec.rp.toNat ∨
      s.dec.inlen.toNat < s.dec.rp.toNat + (1 + payloadLength (s.dec.input.read s.dec.rp.toNat))) :
    ∃ t, step s = .next t ∧ s.TruncatesTo t := by
  have hchunk : s.takeTurn.dec.fetchChunk = none := s.dec.fetchChunk_beyond h
  refine ⟨{ s.takeTurn with dec := s.dec.truncated }, ?_, rfl, rfl, rfl, rfl, rfl, rfl, rfl, rfl, rfl, rfl⟩
  rw [step_decFetch hn, decFetchPixel, hchunk, State.takeTurn_dec]

/-- The same, where the chunk's first byte is given and its payload does not fit below `INLEN`. -/
theorem step_truncatesTo_of_firstByte {s : State} {b : Byte} (hf : s.FetchesChunk [b])
    (h : s.dec.inlen.toNat < s.dec.rp.toNat + (1 + payloadLength b)) : ∃ t, step s = .next t ∧ s.TruncatesTo t := by
  obtain ⟨hn, _, hholds⟩ := hf
  have hb : s.dec.input.read s.dec.rp.toNat = b := hholds 0 Nat.zero_lt_one
  exact step_truncatesTo hn (.inr (by rwa [hb]))

/-- With every pixel put out, the decoder's step is `dec_finish` (R235). -/
theorem step_decFinish {s : State} (hm : s.mover = .dec) (hf : s.dec.finishEnabled) :
    step s = .next { s.takeTurn with dec := s.dec.finish } := by
  have hp : ¬ s.takeTurn.dec.pixelEnabled := fun hp => absurd hp.2 (by
    rw [State.takeTurn_dec, hf.2]
    exact BitVec.lt_irrefl _)
  have hf' : s.takeTurn.dec.finishEnabled := hf
  rw [step, machineStep_dec s hm, decStep, if_neg hp, if_pos hf', State.takeTurn_dec]

/-! ### The statements -/

/-- Settles O8: exec of INDEX by its equation; a byte with top bits 00 is a whole chunk, its slot the byte itself. -/
theorem indexTakesTheSlotsPixel : Obligations.IndexTakesTheSlotsPixel := by
  constructor
  · intro slot s
    exact ⟨_, exec_eq (.index slot) s, rfl, rfl, rfl, rfl, s.dec.executed_produced (.index slot),
      s.dec.executed_sameSetup (.index slot), rfl, rfl, rfl⟩
  · intro s b slot ⟨hf, _⟩ htag hslot
    have hdecode : decodeIndex b = .index slot := by
      rw [decodeIndex_eq (by omega)]
      exact congrArg Instr.index (Fin.ext (show b.toNat = slot.val by omega))
    exact step_exec_of_fetchesChunk hf (payloadLength_eq_zero (by omega) (by omega)).symm (by rw [decode_index htag, hdecode])

/-- Settles O9: exec of DIFF by its equation, whose pixel is resolved; a byte with top bits 01 is a whole chunk. -/
theorem diffAddsItsDeltas : Obligations.DiffAddsItsDeltas := by
  constructor
  · intro dr dg db s
    exact ⟨_, exec_eq (.diff dr dg db) s, addDelta_toNat _ _, addDelta_toNat _ _, addDelta_toNat _ _, rfl,
      (s.dec.advance 1).resolve_producePixel_storedIn _, rfl, rfl, s.dec.executed_produced (.diff dr dg db),
      s.dec.executed_sameSetup (.diff dr dg db), rfl, rfl, rfl⟩
  · intro s b ⟨hf, _⟩ htag
    exact step_exec_of_fetchesChunk hf (payloadLength_eq_zero (by omega) (by omega)).symm
      (by rw [decode_diff htag, decodeDiff_eq])

/-- Settles O10: exec of LUMA by its equation; with both bytes there the chunk is whole, with the second missing the fetch
fails. -/
theorem lumaAddsGreenRelativeDeltas : Obligations.LumaAddsGreenRelativeDeltas := by
  refine ⟨?exec, ?step, ?truncated⟩
  case exec =>
    intro dg drDg dbDg s
    refine ⟨_, exec_eq (.luma dg drDg dbDg) s, ?red, addDelta_toNat _ _, ?blue, rfl,
      (s.dec.advance 2).resolve_producePixel_storedIn _, rfl, rfl, s.dec.executed_produced (.luma dg drDg dbDg),
      s.dec.executed_sameSetup (.luma dg drDg dbDg), rfl, rfl, rfl⟩
    case red => rw [Int.add_assoc]; exact addDelta_toNat _ _
    case blue => rw [Int.add_assoc]; exact addDelta_toNat _ _
  case step =>
    intro s b b2 ⟨hf, _⟩ htag
    exact step_exec_of_fetchesChunk hf (payloadLength_luma htag).symm (by rw [decode_luma htag, decodeLuma_eq])
  case truncated =>
    intro s b ⟨hf, _⟩ htag hmissing
    exact step_truncatesTo_of_firstByte hf (by rwa [payloadLength_luma htag])

/-- Settles O12: exec of RGB by its equation; `0xFE` and three bytes are a whole chunk, with one missing the fetch fails. -/
theorem rgbKeepsAlpha : Obligations.RgbKeepsAlpha := by
  refine ⟨?exec, ?step, ?truncated⟩
  case exec =>
    intro r g b s
    exact ⟨_, exec_eq (.rgb r g b) s, rfl, (s.dec.advance 4).resolve_producePixel_storedIn _, rfl, rfl,
      s.dec.executed_produced (.rgb r g b), s.dec.executed_sameSetup (.rgb r g b), rfl, rfl, rfl⟩
  case step => exact fun s r g b ⟨hf, _⟩ => step_exec_of_fetchesChunk hf rfl (decode_rgb r g b [])
  case truncated => exact fun s ⟨hf, _⟩ hmissing => step_truncatesTo_of_firstByte hf hmissing

/-- Settles O13: exec of RGBA by its equation; `0xFF` and four bytes are a whole chunk, with one missing the fetch fails. -/
theorem rgbaSetsAllComponents : Obligations.RgbaSetsAllComponents := by
  refine ⟨?exec, ?step, ?truncated⟩
  case exec =>
    intro r g b a s
    exact ⟨_, exec_eq (.rgba r g b a) s, rfl, (s.dec.advance 5).resolve_producePixel_storedIn _, rfl, rfl,
      s.dec.executed_produced (.rgba r g b a), s.dec.executed_sameSetup (.rgba r g b a), rfl, rfl, rfl⟩
  case step => exact fun s r g b a ⟨hf, _⟩ => step_exec_of_fetchesChunk hf rfl (decode_rgba r g b a [])
  case truncated => exact fun s ⟨hf, _⟩ hmissing => step_truncatesTo_of_firstByte hf hmissing

/-- Settles O20: the step is `dec_finish`, and in DONE HOST sees the header and the output. -/
theorem decoderFinishesAtTheLastPixel : Obligations.DecoderFinishesAtTheLastPixel := by
  intro s hm hbusy hk
  exact ⟨_, step_decFinish hm ⟨hbusy, hk⟩, rfl, rfl, rfl⟩

end Sys2Proof.Machine
end

section
/-! Decoding and encoding as inverses (R92 to R100): the bytes of INDEX and LUMA, and the two statements about round trips. -/

namespace Sys2Proof

open Machine

/-! ### The bytes of a chunk as numbers -/

/-- A byte made of a number that fits it. -/
theorem ofInt_byte_toNat {v : Int} (h : 0 ≤ v ∧ v < 256) : ((BitVec.ofInt 8 v).toNat : Int) = v :=
  (wrap8_toNat v).trans (Int.emod_eq_of_lt h.1 h.2)

/-- A byte is made of its own number. -/
theorem ofInt_eq_byte {v : Int} {b : Byte} (h : v = b.toNat) : BitVec.ofInt 8 v = b := by
  rw [h, BitVec.ofInt_natCast, BitVec.ofNat_toNat, BitVec.setWidth_eq]

/-- INDEX's byte is its slot (R93). -/
theorem encode_index (slot : Fin 64) : encode (.index slot) = [BitVec.ofNat 8 slot.val] := by
  rw [encode, show (0x00 : Byte) = 0#8 from rfl, BitVec.zero_or]

/-- LUMA's bytes as R191 has them, for all deltas an encoding exists for. -/
theorem encode_luma {dg drDg dbDg : Int} (hg : -32 ≤ dg ∧ dg ≤ 31) (hr : -8 ≤ drDg ∧ drDg ≤ 7) (hb : -8 ≤ dbDg ∧ dbDg ≤ 7) :
    encode (.luma dg drDg dbDg) =
      [BitVec.ofInt 8 (0x80 + (dg + 32)), BitVec.ofInt 8 ((drDg + 8) * 16 + (dbDg + 8))] := by
  obtain ⟨g, hg'⟩ : ∃ g : Nat, dg + 32 = g := Int.eq_ofNat_of_zero_le (by omega)
  obtain ⟨r, hr'⟩ : ∃ r : Nat, drDg + 8 = r := Int.eq_ofNat_of_zero_le (by omega)
  obtain ⟨b, hb'⟩ : ∃ b : Nat, dbDg + 8 = b := Int.eq_ofNat_of_zero_le (by omega)
  have hfirst : 0x80 + g = 0x80 ||| g := Nat.two_pow_add_eq_or_of_lt (i := 6) (by omega) 2
  have hsecond : r * 16 + b = r <<< 4 ||| b := by
    rw [← Nat.shiftLeft_add_eq_or_of_lt (show b < 2 ^ 4 by omega), Nat.shiftLeft_eq]
  have hsum : (0x80 + (g : Int)) = ((0x80 + g : Nat) : Int) := by norm_cast
  have hsum2 : ((r : Int) * 16 + b) = ((r * 16 + b : Nat) : Int) := by norm_cast
  rw [encode, biased_eq_ofNat hg', biased_eq_ofNat hr', biased_eq_ofNat hb', hg', hr', hb', hsum, hsum2,
    BitVec.ofInt_natCast, BitVec.ofInt_natCast, hfirst, hsecond, BitVec.ofNat_or, BitVec.ofNat_or, ofNat_shiftLeft]
  rfl

/-! ### Which operands an encoding exists for -/

theorem wellFormed_diff_iff {dr dg db : Int} : (Instr.diff dr dg db).WellFormed ↔
    (-2 ≤ dr ∧ dr ≤ 1) ∧ (-2 ≤ dg ∧ dg ≤ 1) ∧ (-2 ≤ db ∧ db ≤ 1) := by
  simp only [Instr.WellFormed, Instr.wellFormed, Bool.and_eq_true, decide_eq_true_eq, and_assoc]

theorem wellFormed_luma_iff {dg drDg dbDg : Int} : (Instr.luma dg drDg dbDg).WellFormed ↔
    (-32 ≤ dg ∧ dg ≤ 31) ∧ (-8 ≤ drDg ∧ drDg ≤ 7) ∧ (-8 ≤ dbDg ∧ dbDg ≤ 7) := by
  simp only [Instr.WellFormed, Instr.wellFormed, Bool.and_eq_true, decide_eq_true_eq, and_assoc]

theorem wellFormed_run_iff {n : Nat} : (Instr.run n).WellFormed ↔ 1 ≤ n ∧ n ≤ 62 := decide_eq_true_iff

/-! ### The statements -/

/-- Settles O3: each opcode's bytes are numbers in its range of R102, whose fields are the operands. -/
theorem decodeOfEncodeIsTheInstruction : Obligations.DecodeOfEncodeIsTheInstruction := by
  intro i rest hwf
  cases i with
  | index slot =>
    have hb : (BitVec.ofNat 8 slot.val).toNat = slot.val := by
      rw [BitVec.toNat_ofNat, Nat.mod_eq_of_lt (by omega)]
    rw [encode_index, List.singleton_append, decode_index (by omega), decodeIndex_eq (by omega)]
    exact congrArg (fun x => Except.ok (Instr.index x, rest)) (Fin.ext hb)
  | diff dr dg db =>
    obtain ⟨hr, hg, hb⟩ := wellFormed_diff_iff.mp hwf
    have hbyte := ofInt_byte_toNat (v := 0x40 + (dr + 2) * 16 + (dg + 2) * 4 + (db + 2)) (by omega)
    rw [encode_diff hr hg hb, List.singleton_append, decode_diff (by omega), decodeDiff_eq]
    congr 3 <;> omega
  | luma dg drDg dbDg =>
    obtain ⟨hg, hr, hb⟩ := wellFormed_luma_iff.mp hwf
    have hfirst := ofInt_byte_toNat (v := 0x80 + (dg + 32)) (by omega)
    have hsecond := ofInt_byte_toNat (v := (drDg + 8) * 16 + (dbDg + 8)) (by omega)
    rw [encode_luma hg hr hb, List.cons_append, List.singleton_append, decode_luma (by omega), decodeLuma_eq]
    congr 3 <;> omega
  | run n =>
    obtain ⟨hpos, hn⟩ := wellFormed_run_iff.mp hwf
    have hbyte : (BitVec.ofNat 8 (0xC0 + (n - 1))).toNat = 0xC0 + (n - 1) := by
      rw [BitVec.toNat_ofNat, Nat.mod_eq_of_lt (by omega)]
    rw [encode_run hpos hn, List.singleton_append, decode_run (by omega) (by omega), decodeRun_eq]
    congr 3
    omega
  | rgb r g b => exact decode_rgb r g b rest
  | rgba r g b a => exact decode_rgba r g b a rest

/-- Settles O4: each range of R102 gives operands in range, and their encoding puts the fields back in their places. -/
theorem encodeOfDecodeIsTheBytes : Obligations.EncodeOfDecodeIsTheBytes := by
  intro bytes rest i hd
  cases bytes with
  | nil => exact absurd hd nofun
  | cons b payload =>
    have hshort : payloadLength b ≤ payload.length := by
      by_contra hlt
      rw [decode_truncated_of_lt_payloadLength (Nat.lt_of_not_le hlt)] at hd
      exact absurd hd nofun
    rcases firstByte_cases b with h | h | h | ⟨h, hle⟩ | rfl | rfl
    · rw [decode_index h, decodeIndex_eq (by omega)] at hd
      obtain ⟨rfl, rfl⟩ := Prod.mk.inj (Except.ok.inj hd)
      refine ⟨rfl, ?_⟩
      rw [encode_index, BitVec.ofNat_toNat, BitVec.setWidth_eq, List.singleton_append]
    · rw [decode_diff h, decodeDiff_eq] at hd
      obtain ⟨rfl, rfl⟩ := Prod.mk.inj (Except.ok.inj hd)
      refine ⟨wellFormed_diff_iff.mpr (by omega), ?_⟩
      rw [encode_diff (by omega) (by omega) (by omega), ofInt_eq_byte (b := b) (by omega), List.singleton_append]
    · rw [payloadLength_luma h] at hshort
      obtain ⟨b2, tail, rfl⟩ := List.exists_cons_of_length_pos hshort
      have hb2 := b2.isLt
      rw [decode_luma h, decodeLuma_eq] at hd
      obtain ⟨rfl, rfl⟩ := Prod.mk.inj (Except.ok.inj hd)
      refine ⟨wellFormed_luma_iff.mpr (by omega), ?_⟩
      rw [encode_luma (by omega) (by omega) (by omega), ofInt_eq_byte (b := b) (by omega), ofInt_eq_byte (b := b2) (by omega),
        List.cons_append, List.singleton_append]
    · rw [decode_run h hle, decodeRun_eq] at hd
      obtain ⟨rfl, rfl⟩ := Prod.mk.inj (Except.ok.inj hd)
      refine ⟨wellFormed_run_iff.mpr (by omega), ?_⟩
      rw [encode_run (by omega) (by omega), show 0xC0 + (b.toNat % 64 + 1 - 1) = b.toNat by omega, BitVec.ofNat_toNat,
        BitVec.setWidth_eq, List.singleton_append]
    · match payload, hshort with
      | r :: g :: bl :: tail, _ =>
        obtain ⟨rfl, rfl⟩ := Prod.mk.inj (Except.ok.inj hd)
        exact ⟨rfl, rfl⟩
    · match payload, hshort with
      | r :: g :: bl :: a :: tail, _ =>
        obtain ⟨rfl, rfl⟩ := Prod.mk.inj (Except.ok.inj hd)
        exact ⟨rfl, rfl⟩

/-- Settles O7: each word by its opcode's equation in the decoder, its fields read off. -/
theorem sampleWordsDecode : Obligations.SampleWordsDecode :=
  ⟨decode_index (by decide) [], decode_diff (by decide) [], decode_luma (by decide) 0x67 [], decode_run (by decide) (by decide) [],
    decode_run (by decide) (by decide) [], decode_rgb 200 100 50 [], decode_rgba 200 100 50 128 []⟩

end Sys2Proof
end

section
/-! The header codec (R120 to R129): what `readHeader` answers, and that it and `writeHeader` are inverse. -/

namespace Sys2Proof.Machine

/-- The fields of the header that stands at the front of a buffer (R121, R126). -/
def headerAt (m : Memory) : Header :=
  ⟨unbe32 (m.read 4) (m.read 5) (m.read 6) (m.read 7), unbe32 (m.read 8) (m.read 9) (m.read 10) (m.read 11), m.read 12,
    m.read 13⟩

theorem readHeader_short {m : Memory} {inlen : BitVec 64} (h : inlen.toNat < 14) :
    readHeader m inlen = .error .headerTooShort := if_pos h

/-- With 14 bytes there, the answer is a matter of the buffer's bytes (R125, D4). -/
theorem readHeader_eq {m : Memory} {inlen : BitVec 64} (h : 14 ≤ inlen.toNat) : readHeader m inlen =
    if m.readBytes 0 4 ≠ Config.magic then .error .badMagic
    else if m.read 12 ≠ 3 ∧ m.read 12 ≠ 4 then .error .badChannels
    else if 1 < m.read 13 then .error .badColorspace
    else .ok (headerAt m) := if_neg (Nat.not_lt.mpr h)

/-- A header is accepted exactly when it is whole, has the magic and legal channels and colorspace. -/
theorem readHeader_ok_iff {m : Memory} {inlen : BitVec 64} {hdr : Header} : readHeader m inlen = .ok hdr ↔
    14 ≤ inlen.toNat ∧ m.Holds 0 Config.magic ∧ (m.read 12 = 3 ∨ m.read 12 = 4) ∧ (m.read 13).toNat ≤ 1 ∧
      headerAt m = hdr := by
  have hmagic : m.Holds 0 Config.magic ↔ m.readBytes 0 4 = Config.magic := m.holds_iff 0 Config.magic
  by_cases hlen : 14 ≤ inlen.toNat
  · have hcolor : 1 < m.read 13 ↔ 1 < (m.read 13).toNat := Iff.rfl
    rw [readHeader_eq hlen, hmagic]
    split_ifs with hm hc hs
    · exact ⟨nofun, fun ⟨_, hm', _⟩ => absurd hm' hm⟩
    · exact ⟨nofun, fun ⟨_, _, hc', _⟩ => absurd hc' (by tauto)⟩
    · exact ⟨nofun, fun ⟨_, _, _, hs', _⟩ => absurd hs' (Nat.not_le.mpr (hcolor.mp hs))⟩
    · exact ⟨fun h => ⟨hlen, not_not.mp hm, by tauto, Nat.not_lt.mp hs, Except.ok.inj h⟩,
        fun ⟨_, _, _, _, hhdr⟩ => congrArg _ hhdr⟩
  · rw [readHeader_short (Nat.lt_of_not_le hlen)]
    exact ⟨nofun, fun h => absurd h.1 hlen⟩

/-- Every cause the header check fails with is a FormatError's (R262). -/
theorem readHeader_error_kind {m : Memory} {inlen : BitVec 64} {c : Cause} (h : readHeader m inlen = .error c) :
    c.kind = .format := by
  by_cases hlen : 14 ≤ inlen.toNat
  · rw [readHeader_eq hlen] at h
    split_ifs at h <;> cases h <;> rfl
  · rw [readHeader_short (Nat.lt_of_not_le hlen)] at h
    cases h
    rfl

/-- Bytes that stand in a row stand one part after the other. -/
theorem Memory.holds_append_iff {m : Memory} {a : Nat} {xs ys : List Byte} :
    m.Holds a (xs ++ ys) ↔ m.Holds a xs ∧ m.Holds (a + xs.length) ys := by
  rw [Memory.holds_iff, Memory.holds_iff, Memory.holds_iff, List.length_append, Memory.readBytes_append]
  exact ⟨fun h => List.append_inj h (m.length_readBytes a _), fun ⟨hx, hy⟩ => congrArg₂ _ hx hy⟩

/-- Settles O23: the checks one by one, and the fields of the header that passes them. -/
theorem readHeaderChecksAndFields : Obligations.ReadHeaderChecksAndFields := by
  intro m inlen
  have hmagic : m.Holds 0 [0x71, 0x6F, 0x69, 0x66] ↔ m.readBytes 0 4 = Config.magic := m.holds_iff 0 Config.magic
  refine ⟨readHeader_short, fun hlen hm => ?_, fun hlen hm h3 h4 => ?_, fun hlen hm hc hs => ?_, fun hlen hm hc hs => ?_⟩
  · rw [readHeader_eq hlen, if_pos (fun h => hm (hmagic.mpr h))]
  · rw [readHeader_eq hlen, if_neg (not_not.mpr (hmagic.mp hm)), if_pos ⟨h3, h4⟩]
  · rw [readHeader_eq hlen, if_neg (not_not.mpr (hmagic.mp hm)), if_neg (by tauto), if_pos (show 1 < m.read 13 from hs)]
  · refine ⟨headerAt m, readHeader_ok_iff.mpr ⟨hlen, hm, hc, hs, rfl⟩, unbe32_toNat _ _ _ _, unbe32_toNat _ _ _ _, rfl, rfl⟩

/-- The bytes of the header at the front of a buffer, put together again, are the 14 bytes there. -/
theorem writeHeader_headerAt {m : Memory} (h : m.Holds 0 Config.magic) :
    writeHeader (headerAt m).width (headerAt m).height (headerAt m).channels (headerAt m).colorspace = m.readBytes 0 14 := by
  rw [writeHeader, headerAt, be32_unbe32, be32_unbe32, ← (m.holds_iff 0 Config.magic).mp h]
  rfl

/-- The header at the front of a buffer that begins with a written header. -/
theorem headerAt_of_holds {m : Memory} {w h : BitVec 32} {c s : BitVec 8} (hm : m.Holds 0 (writeHeader w h c s)) :
    headerAt m = ⟨w, h, c, s⟩ := by
  have hread : ∀ j (hj : j < 14), m.read j = (writeHeader w h c s)[j] := fun j hj => by rw [← hm j hj, Nat.zero_add]
  rw [headerAt, hread 4 (by decide), hread 5 (by decide), hread 6 (by decide), hread 7 (by decide), hread 8 (by decide),
    hread 9 (by decide), hread 10 (by decide), hread 11 (by decide), hread 12 (by decide), hread 13 (by decide)]
  exact congrArg₂ (fun x y => Header.mk x y c s) (unbe32_be32 w) (unbe32_be32 h)

/-- Settles O24: what was written is what stands in the buffer, and `unbe32` and `be32` are inverse. -/
theorem headerRoundTrip : Obligations.HeaderRoundTrip := by
  refine ⟨fun m inlen w h c s hlen hc hs hm => ?_, fun m inlen hdr hok => ?_⟩
  · have hchannels : m.read 12 = c := hm 12 (by decide : 12 < 14)
    have hcolorspace : m.read 13 = s := hm 13 (by decide : 13 < 14)
    have hmagic := hm
    rw [writeHeader, List.append_assoc, List.append_assoc, Memory.holds_append_iff] at hmagic
    exact readHeader_ok_iff.mpr ⟨hlen, hmagic.1, hchannels ▸ hc, hcolorspace ▸ hs, headerAt_of_holds hm⟩
  · obtain ⟨_, hmagic, _, _, rfl⟩ := readHeader_ok_iff.mp hok
    rw [Memory.holds_iff, writeHeader_headerAt hmagic, Memory.length_readBytes]

end Sys2Proof.Machine
end

section
/-! HOST's commands (R20, R300 to R307): what START answers, what reset leaves, and the statements about them. -/

namespace Sys2Proof.Machine

/-! ### Taking a command -/

@[simp] theorem State.afterCommand_enc (s : State) : s.afterCommand.enc = s.enc := rfl
@[simp] theorem State.afterCommand_dec (s : State) : s.afterCommand.dec = s.dec := rfl

/-- HOST's step is its oldest command, on the state with turn and command taken. -/
theorem step_command {s : State} {c : HostCmd} (h : s.HostNext c) : step s = s.afterCommand.command c :=
  machineStep_command s c h.1 h.2

theorem command_store (s : State) (buf : Buffer) (a : Nat) (v : Byte) : s.command (.store buf a v) =
    if s.isOwnerBusy buf then .fault .hostWriteRace else .next (s.storeByte buf a v) := rfl

theorem command_startEnc (s : State) :
    s.command .startEnc = if s.enc.ctl.status = .busy then .next s else encStart s := rfl

theorem command_startDec (s : State) :
    s.command .startDec = if s.dec.ctl.status = .busy then .next s else decStart s := rfl

/-- START of a decoder that is not BUSY is `dec_start`. -/
theorem step_startDec {s : State} (h : s.HostNext .startDec) (hb : s.dec.ctl.status ≠ .busy) :
    step s = decStart s.afterCommand := by
  rw [step_command h, command_startDec, State.afterCommand_dec, if_neg hb]

/-- START of an encoder that is not BUSY is `enc_start`. -/
theorem step_startEnc {s : State} (h : s.HostNext .startEnc) (hb : s.enc.ctl.status ≠ .busy) :
    step s = encStart s.afterCommand := by
  rw [step_command h, command_startEnc, State.afterCommand_enc, if_neg hb]

/-- Settles O40: either START is its own no-operation while the engine is BUSY. -/
theorem startWhileBusyIsIgnored : Obligations.StartWhileBusyIsIgnored := by
  intro s
  refine ⟨fun h hb => ?_, fun h hb => ?_⟩
  · rw [step_command h, command_startEnc, State.afterCommand_enc, if_pos hb]
  · rw [step_command h, command_startDec, State.afterCommand_dec, if_pos hb]

/-! ### Reset -/

/-- Settles O1: the registers by the definition of reset, the slots by the initial cache. -/
theorem resetGivesTheSpecValues : Obligations.ResetGivesTheSpecValues :=
  ⟨rfl, rfl, rfl, rfl, rfl, rfl, rfl, rfl, rfl, rfl, fun x => ⟨Cache.lookup_init x, Cache.lookup_init x⟩, rfl, rfl, rfl,
    rfl, rfl⟩

/-- Settles O2: the command puts both engines into the state of power-on. -/
theorem hardResetStopsBothEngines : Obligations.HardResetStopsBothEngines := fun _ h =>
  ⟨_, step_command h, rfl, rfl, rfl, rfl, rfl, rfl, rfl, rfl, fun x => ⟨Cache.lookup_init x, Cache.lookup_init x⟩, rfl, rfl,
    rfl, rfl, rfl, rfl⟩

/-! ### START of the decoder -/

theorem Dec.checkRequest_badHeader {d : Dec} {c : Cause} (h : readHeader d.input d.req.inlen = .error c) :
    d.checkRequest = .error c := by
  rw [Dec.checkRequest, h]

theorem Dec.checkRequest_badOutput {d : Dec} {hdr : Header} (h : readHeader d.input d.req.inlen = .ok hdr)
    (hoc : d.req.outChannels ≠ 0 ∧ d.req.outChannels ≠ 3 ∧ d.req.outChannels ≠ 4) :
    d.checkRequest = .error .badOutputChannels := by
  rw [Dec.checkRequest, h]
  exact if_pos hoc

theorem Dec.checkRequest_good {d : Dec} {hdr : Header} (h : readHeader d.input d.req.inlen = .ok hdr)
    (hoc : d.req.outChannels = 0 ∨ d.req.outChannels = 3 ∨ d.req.outChannels = 4) : d.checkRequest = .ok hdr := by
  rw [Dec.checkRequest, h]
  exact if_neg (by tauto)

/-- A request passes exactly when its header and its output channel argument do. -/
theorem Dec.checkRequest_ok_iff {d : Dec} {hdr : Header} : d.checkRequest = .ok hdr ↔
    readHeader d.input d.req.inlen = .ok hdr ∧
      (d.req.outChannels = 0 ∨ d.req.outChannels = 3 ∨ d.req.outChannels = 4) := by
  refine ⟨fun h => ?_, fun h => Dec.checkRequest_good h.1 h.2⟩
  cases hr : readHeader d.input d.req.inlen with
  | error c => rw [Dec.checkRequest_badHeader hr] at h; cases h
  | ok hdr' =>
    by_cases hoc : d.req.outChannels = 0 ∨ d.req.outChannels = 3 ∨ d.req.outChannels = 4
    · rw [Dec.checkRequest_good hr hoc] at h
      exact ⟨h, hoc⟩
    · rw [Dec.checkRequest_badOutput hr (by tauto)] at h
      cases h

/-- No check fails without a cause. -/
theorem Dec.checkRequest_error_cause {d : Dec} {c : Cause} (h : d.checkRequest = .error c) : c ≠ .none := by
  rintro rfl
  cases hr : readHeader d.input d.req.inlen with
  | error c =>
    rw [Dec.checkRequest_badHeader hr] at h
    obtain rfl := Except.error.inj h
    exact absurd (readHeader_error_kind hr) (by decide)
  | ok hdr =>
    rw [Dec.checkRequest, hr] at h
    dsimp only at h
    split_ifs at h
    cases h

theorem decStart_rejected {s : State} {c : Cause} (h : s.dec.checkRequest = .error c) :
    decStart s = .next { s with dec := { s.dec with ctl := raised c } } := by
  rw [decStart, h]

theorem decStart_accepted {s : State} {hdr : Header} (h : s.dec.checkRequest = .ok hdr)
    (hcap : hdr.width.toNat * hdr.height.toNat ≤ Config.maxPixels) :
    decStart s = .next { s with dec := s.dec.accept hdr } := by
  rw [decStart, h]
  exact if_pos hcap

theorem decStart_refused {s : State} {hdr : Header} (h : s.dec.checkRequest = .ok hdr)
    (hcap : ¬ hdr.width.toNat * hdr.height.toNat ≤ Config.maxPixels) : decStart s = .refused .beyondMaxPixels := by
  rw [decStart, h]
  exact if_neg hcap

/-- The pixel count of two 32-bit dimensions fits 64 bits (R26, R37). -/
theorem pixelCount_toNat (w h : BitVec 32) : (BitVec.ofNat 64 (w.toNat * h.toNat)).toNat = w.toNat * h.toNat := by
  rw [BitVec.toNat_ofNat, Nat.mod_eq_of_lt]
  exact (Nat.mul_lt_mul'' w.isLt h.isLt : _ < 2 ^ 32 * 2 ^ 32)

/-- Settles O21: `dec_start` of a request that passes, and what it leaves in each register. -/
theorem decoderStartInitialises : Obligations.DecoderStartInitialises := by
  intro s hdr hn hb hread hoc hcap
  have hstart : decStart s.afterCommand = .next { s.afterCommand with dec := s.dec.accept hdr } :=
    decStart_accepted (s := s.afterCommand) (Dec.checkRequest_good hread hoc) hcap
  exact ⟨_, (step_startDec hn hb).trans hstart, rfl, rfl, rfl, rfl, pixelCount_toNat _ _, rfl, rfl, rfl, Cache.lookup_init,
    rfl, rfl, rfl, rfl, rfl, rfl, rfl, rfl⟩

/-- Settles O22: the first failing check is the one `dec_start` raises; every header cause is a FormatError's. -/
theorem decoderStartRejects : Obligations.DecoderStartRejects := by
  intro s hn hb
  refine ⟨fun c hread => ?_, fun hdr hread h0 h3 h4 => ?_⟩
  · rw [step_startDec hn hb, decStart_rejected (s := s.afterCommand) (Dec.checkRequest_badHeader hread), raised,
      readHeader_error_kind hread]
    rfl
  · rw [step_startDec hn hb, decStart_rejected (s := s.afterCommand) (Dec.checkRequest_badOutput hread ⟨h0, h3, h4⟩)]
    rfl

/-! ### START of the encoder -/

theorem encStart_rejected {s : State} {c : Cause} (h : s.enc.req.failure = some c) :
    encStart s = .next { s with enc := { s.enc with ctl := raised c } } := by
  rw [encStart, h]

theorem encStart_accepted {s : State} (h : s.enc.req.failure = none)
    (hcap : s.enc.req.width.toNat * s.enc.req.height.toNat ≤ Config.maxPixels) :
    encStart s = .next { s with enc := s.enc.accept } := by
  rw [encStart, h]
  exact if_pos hcap

theorem encStart_refused {s : State} (h : s.enc.req.failure = none)
    (hcap : ¬ s.enc.req.width.toNat * s.enc.req.height.toNat ≤ Config.maxPixels) :
    encStart s = .refused .beyondMaxPixels := by
  rw [encStart, h]
  exact if_neg hcap

/-- What a request has to meet (R181). -/
def EncReq.Good (r : EncReq) : Prop :=
  r.width.toNat < 2 ^ 32 ∧ r.height.toNat < 2 ^ 32 ∧ (r.channels = 3 ∨ r.channels = 4) ∧ r.colorspace.toNat ≤ 1 ∧
  r.pixlen.toNat = r.width.toNat * r.height.toNat * r.channels.toNat

section
variable {r : EncReq}

theorem EncReq.failure_dimensions (h : ¬ (r.width.toNat < 2 ^ 32 ∧ r.height.toNat < 2 ^ 32)) :
    r.failure = some .dimensionRange := if_pos (by omega)

theorem EncReq.failure_channels (hdim : r.width.toNat < 2 ^ 32 ∧ r.height.toNat < 2 ^ 32)
    (h : ¬ (r.channels = 3 ∨ r.channels = 4)) : r.failure = some .badChannelsArg := by
  rw [EncReq.failure, if_neg (by omega), if_pos (by tauto)]

theorem EncReq.failure_colorspace (hdim : r.width.toNat < 2 ^ 32 ∧ r.height.toNat < 2 ^ 32)
    (hc : r.channels = 3 ∨ r.channels = 4) (h : 1 < r.colorspace.toNat) : r.failure = some .badColorspaceArg := by
  rw [EncReq.failure, if_neg (by omega), if_neg (by tauto), if_pos (show 1 < r.colorspace from h)]

theorem EncReq.failure_length (hdim : r.width.toNat < 2 ^ 32 ∧ r.height.toNat < 2 ^ 32)
    (hc : r.channels = 3 ∨ r.channels = 4) (hs : r.colorspace.toNat ≤ 1)
    (h : r.pixlen.toNat ≠ r.width.toNat * r.height.toNat * r.channels.toNat) : r.failure = some .lengthMismatch := by
  rw [EncReq.failure, if_neg (by omega), if_neg (by tauto), if_neg (show ¬ 1 < r.colorspace from Nat.not_lt.mpr hs),
    if_pos h]

theorem EncReq.failure_good (h : r.Good) : r.failure = none := by
  obtain ⟨hw, hh, hc, hs, hlen⟩ := h
  rw [EncReq.failure, if_neg (by omega), if_neg (by tauto), if_neg (show ¬ 1 < r.colorspace from Nat.not_lt.mpr hs),
    if_neg (not_not.mpr hlen)]

/-- A request passes the checks exactly when it is good; one that does not fails with the cause of the first check. -/
theorem EncReq.failure_cases (r : EncReq) : (r.Good ∧ r.failure = none) ∨
    ∃ c, r.failure = some c ∧ c.kind = .validation := by
  by_cases hdim : r.width.toNat < 2 ^ 32 ∧ r.height.toNat < 2 ^ 32
  · by_cases hc : r.channels = 3 ∨ r.channels = 4
    · by_cases hs : r.colorspace.toNat ≤ 1
      · by_cases hlen : r.pixlen.toNat = r.width.toNat * r.height.toNat * r.channels.toNat
        · have hgood : r.Good := ⟨hdim.1, hdim.2, hc, hs, hlen⟩
          exact .inl ⟨hgood, EncReq.failure_good hgood⟩
        · exact .inr ⟨_, EncReq.failure_length hdim hc hs hlen, rfl⟩
      · exact .inr ⟨_, EncReq.failure_colorspace hdim hc (Nat.lt_of_not_le hs), rfl⟩
    · exact .inr ⟨_, EncReq.failure_channels hdim hc, rfl⟩
  · exact .inr ⟨_, EncReq.failure_dimensions hdim, rfl⟩

end

/-- Settles O25: each clause is the check that fails first, and `enc_start` raises its cause. -/
theorem encoderStartRejects : Obligations.EncoderStartRejects := by
  intro s hn hb
  have hrejects {c : Cause} (hf : s.enc.req.failure = some c) (hk : c.kind = .validation) :
      step s = .next { s.afterCommand with enc := { s.enc with ctl := ⟨.fault, ⟨.validation, c⟩⟩ } } := by
    rw [step_startEnc hn hb, encStart_rejected (s := s.afterCommand) hf, raised, hk]
    rfl
  exact ⟨fun hdim => hrejects (EncReq.failure_dimensions hdim) rfl,
    fun hdim hc => hrejects (EncReq.failure_channels hdim hc) rfl,
    fun hdim hc hs => hrejects (EncReq.failure_colorspace hdim hc hs) rfl,
    fun hdim hc hs hlen => hrejects (EncReq.failure_length hdim hc hs hlen) rfl⟩

/-- A dimension that passes its check is latched whole. -/
theorem setWidth_toNat_of_lt {v : BitVec 64} (h : v.toNat < 2 ^ 32) : (v.setWidth 32).toNat = v.toNat := by
  rw [BitVec.toNat_setWidth, Nat.mod_eq_of_lt h]

/-- An accepted encoder's output begins with the header of its configuration (R182). -/
theorem Enc.accept_header (e : Enc) :
    e.accept.out.Holds 0 (writeHeader e.accept.cfg.w e.accept.cfg.h e.accept.cfg.c e.accept.cfg.s) :=
  e.out.read_writeBytes_inside 0 _

/-- Settles O26: `enc_start` of a request that passes; what it writes of `ENC.OUT` is the header, at offset 0. -/
theorem encoderStartInitialises : Obligations.EncoderStartInitialises := by
  intro s hn hb hw hh hc hs hlen hcap
  have hstart : encStart s.afterCommand = .next { s.afterCommand with enc := s.enc.accept } :=
    encStart_accepted (s := s.afterCommand) (EncReq.failure_good ⟨hw, hh, hc, hs, hlen⟩) hcap
  refine ⟨_, (step_startEnc hn hb).trans hstart, rfl, rfl, setWidth_toNat_of_lt hw, setWidth_toNat_of_lt hh, rfl, rfl, ?_,
    rfl, rfl, Cache.lookup_init, rfl, rfl, s.enc.accept_header, s.enc.out.read_writeBytes_outside 0 (writeHeader _ _ _ _), rfl, rfl, rfl,
    rfl⟩
  exact (pixelCount_toNat _ _).trans (congrArg₂ _ (setWidth_toNat_of_lt hw) (setWidth_toNat_of_lt hh))

/-! ### Nothing is carried over (R302) -/

/-- `enc_start` answers a next state in two ways: a check failed, or the request is good and within the capacity. -/
theorem encStart_next {s t : State} (h : encStart s = .next t) :
    (∃ c, c.kind = .validation ∧ t = { s with enc := { s.enc with ctl := raised c } }) ∨
    (s.enc.req.Good ∧ s.enc.req.width.toNat * s.enc.req.height.toNat ≤ Config.maxPixels ∧
      t = { s with enc := s.enc.accept }) := by
  obtain ⟨hgood, hf⟩ | ⟨c, hf, hk⟩ := s.enc.req.failure_cases
  · by_cases hcap : s.enc.req.width.toNat * s.enc.req.height.toNat ≤ Config.maxPixels
    · rw [encStart_accepted hf hcap] at h
      exact .inr ⟨hgood, hcap, (Host.Outcome.next.inj h).symm⟩
    · rw [encStart_refused hf hcap] at h
      cases h
  · rw [encStart_rejected hf] at h
    exact .inl ⟨c, hk, (Host.Outcome.next.inj h).symm⟩

/-- `dec_start` answers a next state in two ways: a check failed, or the request passed and is within the capacity. -/
theorem decStart_next {s t : State} (h : decStart s = .next t) :
    (∃ c, c ≠ .none ∧ t = { s with dec := { s.dec with ctl := raised c } }) ∨
    (∃ hdr, s.dec.checkRequest = .ok hdr ∧ hdr.width.toNat * hdr.height.toNat ≤ Config.maxPixels ∧
      t = { s with dec := s.dec.accept hdr }) := by
  cases hr : s.dec.checkRequest with
  | error c =>
    rw [decStart_rejected hr] at h
    exact .inl ⟨c, Dec.checkRequest_error_cause hr, (Host.Outcome.next.inj h).symm⟩
  | ok hdr =>
    by_cases hcap : hdr.width.toNat * hdr.height.toNat ≤ Config.maxPixels
    · rw [decStart_accepted hr hcap] at h
      exact .inr ⟨hdr, rfl, hcap, (Host.Outcome.next.inj h).symm⟩
    · rw [decStart_refused hr hcap] at h
      cases h

/-- An accepted decoder is a matter of its request, its input and its header, but for what `DEC.OUT` holds. -/
theorem Dec.accept_congr {d d' : Dec} (hreq : d.req = d'.req) (hinput : d.input = d'.input) (hdr : Header) :
    { d'.accept hdr with out := d.out } = d.accept hdr := by
  simp only [Dec.accept, Ctl.clearErr, hreq, hinput]

/-- Settles O46: the STARTs are accepted alike, and `accept` reads nothing but the request and the decoder's input; of
`ENC.OUT` the bytes below `OUTLEN` are the header. -/
theorem startForgetsThePast : Obligations.StartForgetsThePast := by
  constructor
  · intro s s' t t' hn hn' hstep hstep' hb hb' hreq ht
    rw [step_startEnc hn hb] at hstep
    obtain ⟨c, _, rfl⟩ | ⟨hgood, hcap, rfl⟩ := encStart_next hstep
    · cases ht
    · rw [State.afterCommand_enc, hreq] at hgood hcap
      rw [step_startEnc hn' hb', encStart_accepted (s := s'.afterCommand) (EncReq.failure_good hgood) hcap] at hstep'
      obtain rfl := Host.Outcome.next.inj hstep'
      have hcfg : s'.enc.accept.cfg = s.enc.accept.cfg := by simp only [Enc.accept, Enc.emit_cfg, hreq]
      refine ⟨rfl, hcfg, congrArg (fun c : EncCfg => BitVec.ofNat 64 (c.w.toNat * c.h.toNat)) hcfg, rfl, rfl, rfl, rfl, rfl,
        fun a (ha : a < 14) => ?_⟩
      have hread (e : Enc) := e.accept_header a ha
      simp only [Nat.zero_add] at hread
      rw [State.afterCommand_enc, State.afterCommand_enc, hread, hread, hcfg]
  · intro s s' t t' hn hn' hstep hstep' hb hb' hreq hinput ht
    rw [step_startDec hn hb] at hstep
    obtain ⟨c, _, rfl⟩ | ⟨hdr, hok, hcap, rfl⟩ := decStart_next hstep
    · cases ht
    · have hok' : s'.dec.checkRequest = .ok hdr := by
        rw [State.afterCommand_dec, Dec.checkRequest_ok_iff, hreq, hinput] at hok
        exact Dec.checkRequest_ok_iff.mpr hok
      rw [step_startDec hn' hb', decStart_accepted (s := s'.afterCommand) hok' hcap] at hstep'
      obtain rfl := Host.Outcome.next.inj hstep'
      exact Dec.accept_congr hreq hinput hdr

/-! ### What HOST can read (R45) -/

theorem visibleIn_same {α : Type} {st : Status} {c : Ctl} (h : c.status = st) (v : α) : visibleIn st c v = some v := if_pos h

theorem visibleIn_other {α : Type} {st : Status} {c : Ctl} (h : c.status ≠ st) (v : α) : visibleIn st c v = none := if_neg h

/-- Two values are seen alike when they agree wherever they are seen. -/
theorem visibleIn_congr {α : Type} {st : Status} {c c' : Ctl} {v v' : α} (hc : c.status = c'.status)
    (hv : c.status = st → v = v') : visibleIn st c v = visibleIn st c' v' := by
  by_cases h : c.status = st
  · rw [visibleIn_same h, visibleIn_same (hc ▸ h), hv h]
  · rw [visibleIn_other h, visibleIn_other (hc ▸ h)]

/-- Settles O48: each part of a view is seen in one STATUS; in DONE the invariant makes `N` the header's pixel count. -/
theorem hostSeesOnlyResults : Obligations.HostSeesOnlyResults := by
  refine ⟨fun e => ?_, fun d => ?_, fun e e' hst herr hout => ?_, fun d d' hinv hinv' hst herr hout => ?_⟩
  · exact ⟨rfl, fun h => visibleIn_same h _, fun h => visibleIn_other h _, fun h => visibleIn_same h _,
      fun h => visibleIn_other h _⟩
  · exact ⟨rfl, fun h => visibleIn_same h _, fun h => visibleIn_other h _,
      fun h => ⟨visibleIn_same h _, visibleIn_same h _, visibleIn_same h _, visibleIn_same h _⟩,
      fun h => ⟨visibleIn_other h _, visibleIn_other h _, visibleIn_other h _, visibleIn_other h _⟩⟩
  · have hbytes (h : e.ctl.status = .done) : e.out.readBytes 0 e.outlen.toNat = e'.out.readBytes 0 e'.outlen.toNat := by
      obtain ⟨hlen, hread⟩ := hout h
      rw [← hlen]
      exact Memory.readBytes_congr fun j hj => by rw [Nat.zero_add, hread j hj]
    rw [Enc.view, Enc.view, visibleIn_congr hst herr, visibleIn_congr hst hbytes, hst]
  · have hbytes (h : d.ctl.status = .done) :
        d.out.readBytes 0 (d.n.toNat * d.oc.toNat) = d'.out.readBytes 0 (d'.n.toNat * d'.oc.toNat) := by
      obtain ⟨_, _, _, hfin⟩ := hinv
      obtain ⟨_, _, _, hfin'⟩ := hinv'
      obtain ⟨⟨_, _, _, hn⟩, _⟩ := hfin h
      obtain ⟨⟨_, _, _, hn'⟩, _⟩ := hfin' (hst ▸ h)
      obtain ⟨hhdr, hoc, _, hread⟩ := hout h
      rw [hn, hn', ← hhdr, ← hoc]
      exact Memory.readBytes_congr fun j hj => by rw [Nat.zero_add, hread j hj]
    rw [Dec.view, Dec.view, visibleIn_congr hst herr, visibleIn_congr hst (fun h => let ⟨hhdr, _⟩ := hout h; hhdr),
      visibleIn_congr hst (fun h => let ⟨_, hoc, _⟩ := hout h; hoc),
      visibleIn_congr hst (fun h => let ⟨_, _, hrp, _⟩ := hout h; hrp), visibleIn_congr hst hbytes, hst]

end Sys2Proof.Machine
end

section
/-! What is left of the opcodes: INDEX and LUMA in the encoder's mux (R188, R191), the restored channel (R10), the forced
alpha byte (D11), and that a fetching step runs the opcode decoded or ends in TRUNCATED_STREAM (R226, R237). -/

namespace Sys2Proof.Machine

/-! ### The encoder's mux -/

/-- Settles O31: the chunk of a hit is INDEX, whose byte is the slot, and a hit writes no slot. -/
theorem cacheHitEmitsIndex : Obligations.CacheHitEmitsIndex := by
  intro s px hn hinv hpx hne hhit
  have hchunk : encode (changeChunk s.enc.rolling px) = [BitVec.ofNat 8 (pixelHash px).val] := by
    rw [changeChunk_hit hhit, encode_index]
  have hstep := step_encChange hn hinv hpx hne
  rw [hchunk, changeCache_hit hhit] at hstep
  exact ⟨_, hstep, s.enc.became_appended _ _ _, rfl, rfl, rfl, rfl, s.enc.became_sameSetup _ _ _, rfl, rfl⟩

/-- Settles O33: the mux's deltas are the given ones, which fit LUMA and not DIFF. -/
theorem greenRelativeDeltasEmitLuma : Obligations.GreenRelativeDeltasEmitLuma := by
  intro s px dr dg db hn hinv hpx hne hmiss halpha hdr hdg hdb hnotDiff hg hr hb
  have hdeltas := deltas_eq hdr hdg hdb
  have hdiff : ¬ diffOk px s.enc.prev := fun h => hnotDiff (by simpa only [hdeltas] using h.2)
  have hluma : lumaOk px s.enc.prev := ⟨halpha, by rw [hdeltas]; exact ⟨hg, hr, hb⟩⟩
  have hchunk : changeChunk s.enc.rolling px = .luma dg (dr - dg) (db - dg) := by
    rw [changeChunk_luma hmiss hdiff hluma, Enc.rolling_prev, hdeltas]
  exact step_encMiss hn hinv hpx hne hmiss (by rw [hchunk, encode_luma hg hr hb])

/-- Adding a signed delta to the channel it was taken against gives the channel (R10). -/
theorem addDelta_sdelta (cur prev : Byte) : addDelta prev (sdelta cur prev) = cur := by
  obtain ⟨_, _, hmod⟩ := isDelta_sdelta cur prev
  exact BitVec.eq_of_toNat_eq (Int.ofNat_inj.mp ((addDelta_toNat prev (sdelta cur prev)).trans hmod))

/-- Settles O39: the delta meets R10, and its congruence is the restoration. -/
theorem signedDeltaRestoresTheChannel : Obligations.SignedDeltaRestoresTheChannel := fun cur prev =>
  ⟨isDelta_sdelta cur prev, addDelta_sdelta cur prev⟩

/-! ### The decoder -/

/-- What an opcode puts out: its pixel's bytes at the write cursor (R234). -/
theorem Dec.executed_producePixel_out (d : Dec) (i : Instr) : (d.executed i).producePixel.out =
    d.out.writeBytes d.wc.toNat (outputBytes d.oc d.hdr.channels (d.executed i).cur) := by
  obtain ⟨_, _, _, hhdr, hoc, _, _, hwc, _, hout, _⟩ := d.executed_frame i
  rw [Dec.producePixel_out, hhdr, hoc, hwc, hout]

/-- Settles O15: the fourth byte written is the forced one, while RGBA's pixel keeps its alpha. -/
theorem forcedAlphaByte : Obligations.ForcedAlphaByte := by
  intro i s hoc hch
  refine ⟨_, exec_eq i s, ?_, by rintro r g b a rfl; rfl⟩
  have hbytes (p : Pixel) : outputBytes 4 3 p = [p.r, p.g, p.b, 255] := rfl
  rw [Dec.executed_producePixel_out, hoc, hch, hbytes]
  exact Memory.read_writeBytes_inside _ _ [_, _, _, 255] 3 (Nat.lt_succ_self 3)

/-- A chunk that decodes with nothing left over is its first byte and the payload that byte asks for (R106). -/
theorem payload_length_of_decode {b : Byte} {payload : List Byte} {i : Instr} (h : decode (b :: payload) = .ok (i, [])) :
    payload.length = payloadLength b := by
  by_cases hlen : payloadLength b ≤ payload.length
  · obtain ⟨i', hd⟩ := decode_takes_payloadLength hlen
    have hrest := (Prod.mk.inj (Except.ok.inj (hd.symm.trans h))).2
    exact Nat.le_antisymm (List.drop_eq_nil_iff.mp hrest) hlen
  · rw [decode_truncated_of_lt_payloadLength (Nat.lt_of_not_le hlen)] at h
    cases h

/-- Settles O16: the encoding decodes to its instruction and leaves nothing over, so it is the whole chunk at `RP`. -/
theorem stepRunsTheDecodedInstruction : Obligations.StepRunsTheDecodedInstruction := by
  intro i s hwf hf
  obtain ⟨b, payload, hbytes⟩ := List.exists_cons_of_ne_nil (encode_ne_nil i)
  have hdecode : decode (b :: payload) = .ok (i, []) := by
    rw [← hbytes, ← decodeOfEncodeIsTheInstruction i [] hwf, List.append_nil]
  rw [hbytes] at hf
  exact step_exec_of_fetchesChunk hf (payload_length_of_decode hdecode) hdecode

/-- The encoding of an opcode has its length (R92). -/
theorem encode_length (i : Instr) : (encode i).length = i.length := by cases i <;> rfl

/-- Where a whole chunk is below `INLEN`, the bytes from `RP` to `INLEN` begin with an opcode, of the chunk's length, and
that opcode is what the fetch gives (R106, R226). -/
theorem Dec.fetchChunk_decodes {d : Dec}
    (h : d.rp.toNat + (1 + payloadLength (d.input.read d.rp.toNat)) ≤ d.inlen.toNat) :
    ∃ chunk i, d.fetchChunk = some chunk ∧ decode chunk = .ok (i, []) ∧ i.WellFormed ∧
      d.rp.toNat + i.length ≤ d.inlen.toNat ∧
      d.input.readBytes d.rp.toNat (d.inlen.toNat - d.rp.toNat) =
        encode i ++ d.input.readBytes (d.rp.toNat + i.length) (d.inlen.toNat - (d.rp.toNat + i.length)) := by
  have hfetch := d.fetchChunk_below h
  generalize hb : d.input.read d.rp.toNat = b at h hfetch
  have hchunk : d.input.readBytes d.rp.toNat (1 + payloadLength b) =
      b :: d.input.readBytes (d.rp.toNat + 1) (payloadLength b) := by
    rw [Nat.add_comm 1, Memory.readBytes, hb]
  obtain ⟨i, hd⟩ := decode_takes_payloadLength (b := b) (payload := d.input.readBytes (d.rp.toNat + 1) (payloadLength b))
    (Memory.length_readBytes _ _ _).ge
  rw [List.drop_eq_nil_of_le (Memory.length_readBytes _ _ _).le, ← hchunk] at hd
  obtain ⟨hwf, henc⟩ := encodeOfDecodeIsTheBytes _ _ _ hd
  rw [List.append_nil] at henc
  have hlen : i.length = 1 + payloadLength b := by
    rw [← encode_length, henc, Memory.length_readBytes]
  refine ⟨_, i, hfetch, hd, hwf, hlen ▸ h, ?_⟩
  rw [henc, hlen, ← Memory.readBytes_append]
  congr 1
  omega

/-- Where it is cut short, the bytes from `RP` to `INLEN` begin with no opcode (R237). -/
theorem Dec.decode_cutShort {d : Dec}
    (h : d.inlen.toNat < d.rp.toNat + (1 + payloadLength (d.input.read d.rp.toNat))) :
    decode (d.input.readBytes d.rp.toNat (d.inlen.toNat - d.rp.toNat)) = .error .truncatedChunk := by
  cases hk : d.inlen.toNat - d.rp.toNat with
  | zero => rfl
  | succ k => exact decode_truncated_of_lt_payloadLength (by rw [Memory.length_readBytes]; omega)

/-! ### The decoder's own step, one rule per case -/

theorem Dec.not_replaying {d : Dec} (h : d.run = 0) : ¬ d.replaying := by
  rw [Dec.replaying, h]
  exact BitVec.lt_irrefl _

theorem Dec.not_pixelEnabled_of_finishEnabled {d : Dec} (h : d.finishEnabled) : ¬ d.pixelEnabled := fun hp =>
  absurd hp.2 (by rw [h.2]; exact BitVec.lt_irrefl _)

section
variable {d : Dec}

theorem Dec.stepped_replay (hp : d.pixelEnabled) (hr : 0 < d.run) : d.stepped = d.replay := by
  rw [Dec.stepped, if_pos hp, if_pos hr]

theorem Dec.stepped_of_fetchChunk_none (hp : d.pixelEnabled) (hrun : d.run = 0) (hf : d.fetchChunk = none) :
    d.stepped = d.truncated := by
  rw [Dec.stepped, if_pos hp, if_neg (Dec.not_replaying hrun), hf]

theorem Dec.stepped_of_decode (hp : d.pixelEnabled) (hrun : d.run = 0) {chunk rest : List Byte} {i : Instr}
    (hf : d.fetchChunk = some chunk) (hd : decode chunk = .ok (i, rest)) : d.stepped = (d.executed i).producePixel := by
  rw [Dec.stepped, if_pos hp, if_neg (Dec.not_replaying hrun), hf]
  simp only [hd]

theorem Dec.stepped_of_decode_error (hp : d.pixelEnabled) (hrun : d.run = 0) {chunk : List Byte}
    (hf : d.fetchChunk = some chunk) (hd : decode chunk = .error .truncatedChunk) : d.stepped = d.truncated := by
  rw [Dec.stepped, if_pos hp, if_neg (Dec.not_replaying hrun), hf]
  simp only [hd]

theorem Dec.stepped_finish (h : d.finishEnabled) : d.stepped = d.finish := by
  rw [Dec.stepped, if_neg (Dec.not_pixelEnabled_of_finishEnabled h), if_pos h]

theorem Dec.stepped_disabled (hp : ¬ d.pixelEnabled) (hf : ¬ d.finishEnabled) : d.stepped = d := by
  rw [Dec.stepped, if_neg hp, if_neg hf]

end

/-- The bytes the decoder has not fetched yet. -/
def Dec.unread (d : Dec) : List Byte := d.input.readBytes d.rp.toNat (d.inlen.toNat - d.rp.toNat)

/-- A fetching step, by what the unread bytes decode to: the opcode runs and its chunk is read, or the step is TRUNCATED_STREAM
(R226, R237). -/
theorem Dec.stepped_fetch {d : Dec} (hp : d.pixelEnabled) (hrun : d.run = 0) :
    (∃ i, i.WellFormed ∧ d.rp.toNat + i.length ≤ d.inlen.toNat ∧
      decode d.unread = .ok (i, d.input.readBytes (d.rp.toNat + i.length) (d.inlen.toNat - (d.rp.toNat + i.length))) ∧
      d.stepped = (d.executed i).producePixel) ∨
    (decode d.unread = .error .truncatedChunk ∧ d.stepped = d.truncated) := by
  by_cases h : d.rp.toNat + (1 + payloadLength (d.input.read d.rp.toNat)) ≤ d.inlen.toNat
  · obtain ⟨chunk, i, hfetch, hd, hwf, hroom, hunread⟩ := Dec.fetchChunk_decodes h
    refine .inl ⟨i, hwf, hroom, ?_, Dec.stepped_of_decode hp hrun hfetch hd⟩
    rw [Dec.unread, hunread, decodeOfEncodeIsTheInstruction i _ hwf]
  · exact .inr ⟨Dec.decode_cutShort (Nat.lt_of_not_le h),
      Dec.stepped_of_fetchChunk_none hp hrun (d.fetchChunk_beyond (.inr (Nat.lt_of_not_le h)))⟩

/-- The decoder's next step, the fetching one told by what the unread bytes decode to. -/
theorem Dec.stepped_unread_cases (d : Dec) :
    (d.pixelEnabled ∧ 0 < d.run ∧ d.stepped = d.replay) ∨
    (d.pixelEnabled ∧ d.run = 0 ∧ ∃ i, i.WellFormed ∧ d.rp.toNat + i.length ≤ d.inlen.toNat ∧
      decode d.unread = .ok (i, d.input.readBytes (d.rp.toNat + i.length) (d.inlen.toNat - (d.rp.toNat + i.length))) ∧
      d.stepped = (d.executed i).producePixel) ∨
    (d.pixelEnabled ∧ d.run = 0 ∧ decode d.unread = .error .truncatedChunk ∧ d.stepped = d.truncated) ∨
    (d.finishEnabled ∧ d.stepped = d.finish) ∨
    (¬ (d.pixelEnabled ∨ d.finishEnabled) ∧ d.stepped = d) := by
  by_cases hp : d.pixelEnabled
  · by_cases hrun : d.run = 0
    · obtain h | h := Dec.stepped_fetch hp hrun
      · exact .inr (.inl ⟨hp, hrun, h⟩)
      · exact .inr (.inr (.inl ⟨hp, hrun, h⟩))
    · have hpos : 0 < d.run := BitVec.lt_def.mpr (Nat.pos_of_ne_zero fun h => hrun (BitVec.eq_of_toNat_eq h))
      exact .inl ⟨hp, hpos, Dec.stepped_replay hp hpos⟩
  · by_cases hf : d.finishEnabled
    · exact .inr (.inr (.inr (.inl ⟨hf, Dec.stepped_finish hf⟩)))
    · exact .inr (.inr (.inr (.inr ⟨by tauto, Dec.stepped_disabled hp hf⟩)))

/-- Settles O17: with a byte missing the step raises; with the chunk whole it is exec of the decoded opcode, which leaves
STATUS and ERR alone. -/
theorem truncationExactlyWhenBytesAreMissing : Obligations.TruncationExactlyWhenBytesAreMissing := by
  intro s hn
  split_ifs with hmissing
  · exact step_truncatesTo hn (by omega)
  · obtain ⟨chunk, i, hfetch, hd, _⟩ := Dec.fetchChunk_decodes (d := s.takeTurn.dec) (by rw [State.takeTurn_dec]; omega)
    refine ⟨{ s.takeTurn with dec := (s.dec.executed i).producePixel }, (step_decFetch hn).trans ?_, (s.dec.executed_sameSetup i).1⟩
    rw [decFetchPixel, hfetch]
    simp only [hd, exec_eq, State.takeTurn_dec]

end Sys2Proof.Machine
end

section
/-! What a step of the machine can do to each engine, said once (R20, R22), and what follows from it: which steps stop, that
the engines are independent, and how STATUS moves. -/

namespace Sys2Proof.Machine

/-! ### The encoder's own step -/

theorem Enc.step_pixel {e : Enc} (h : e.pixelEnabled) : e.step = e.encodePixel := if_pos h

theorem Enc.not_pixelEnabled_of_finishEnabled {e : Enc} (h : e.finishEnabled) : ¬ e.pixelEnabled := fun hp =>
  absurd hp.2 (by rw [h.2]; exact BitVec.lt_irrefl _)

theorem Enc.step_finish {e : Enc} (h : e.finishEnabled) : e.step = e.finish := by
  rw [Enc.step, if_neg (Enc.not_pixelEnabled_of_finishEnabled h), if_pos h]

theorem Enc.step_disabled {e : Enc} (hp : ¬ e.pixelEnabled) (hf : ¬ e.finishEnabled) : e.step = e := by
  rw [Enc.step, if_neg hp, if_neg hf]

/-- The encoder's next step, case by case. -/
theorem Enc.step_cases (e : Enc) : (e.pixelEnabled ∧ e.step = e.encodePixel) ∨ (e.finishEnabled ∧ e.step = e.finish) ∨
    (¬ (e.pixelEnabled ∨ e.finishEnabled) ∧ e.step = e) := by
  by_cases hp : e.pixelEnabled
  · exact .inl ⟨hp, Enc.step_pixel hp⟩
  · by_cases hf : e.finishEnabled
    · exact .inr (.inl ⟨hf, Enc.step_finish hf⟩)
    · exact .inr (.inr ⟨by tauto, Enc.step_disabled hp hf⟩)

/-- What a pixel step is for any encoder, whatever its cursor and counter hold: bytes emitted at most twice, the pixel now
the previous one, the cache as it was or with the pixel stored, `POS` one further (R186). -/
theorem Enc.encodePixel_shape (e : Enc) : ∃ bytes bytes' run cache,
    e.encodePixel =
      { (e.emit bytes).emit bytes' with prev := e.fetchPixel, run := run, cache := cache, pos := e.pos + 1 } ∧
    (cache = e.cache ∨ cache = e.cache.store e.fetchPixel) := by
  unfold Enc.encodePixel
  by_cases hm : e.matchPrev e.fetchPixel
  · simp only [if_pos hm]
    unfold Enc.accumulate
    by_cases hc : e.runFull ∨ e.lastPixel
    · refine ⟨encode (.run (e.run + 1).toNat), [], 0, e.cache, ?_, .inl rfl⟩
      rw [if_pos hc, Enc.emit_nil, hm]
      rfl
    · refine ⟨[], [], e.run + 1, e.cache, ?_, .inl rfl⟩
      rw [if_neg hc, Enc.emit_nil, Enc.emit_nil, hm]
  · simp only [if_neg hm]
    unfold Enc.encodeChange
    simp only [Enc.flushPending_eq]
    generalize chunkBytes (runChunk e.run.toNat) = pending
    by_cases hh : ({ e.emit pending with run := 0 } : Enc).cacheHit e.fetchPixel
    · rw [if_pos hh]
      exact ⟨pending, _, 0, e.cache, rfl, .inl rfl⟩
    · rw [if_neg hh, Enc.encodeMiss_eq _ _ hh]
      exact ⟨pending, _, 0, _, rfl, .inr rfl⟩

/-- What no pixel step touches, and the one register every pixel step moves. -/
theorem Enc.encodePixel_frame (e : Enc) : e.SameSetup e.encodePixel ∧ e.encodePixel.pos = e.pos + 1 := by
  obtain ⟨bytes, bytes', run, cache, h, _⟩ := e.encodePixel_shape
  rw [h]
  exact ⟨⟨rfl, rfl, rfl, rfl, rfl⟩, rfl⟩

/-- What no step of the encoder touches: the request, the configuration and the input buffer (R25, R78). -/
theorem Enc.step_frame (e : Enc) : e.step.req = e.req ∧ e.step.cfg = e.cfg ∧ e.step.n = e.n ∧ e.step.pix = e.pix := by
  obtain ⟨_, h⟩ | ⟨_, h⟩ | ⟨_, h⟩ := e.step_cases
  · obtain ⟨⟨hreq, hcfg, hn, hpix, _⟩, _⟩ := e.encodePixel_frame
    rw [h]
    exact ⟨hreq, hcfg, hn, hpix⟩
  · rw [h]
    exact ⟨rfl, rfl, rfl, rfl⟩
  · rw [h]
    exact ⟨rfl, rfl, rfl, rfl⟩

/-- What no step of the decoder touches: the request, the latched header and counts, the input buffer (R34, R78). -/
theorem Dec.stepped_frame (d : Dec) : d.stepped.req = d.req ∧ d.stepped.inlen = d.inlen ∧ d.stepped.hdr = d.hdr ∧
    d.stepped.oc = d.oc ∧ d.stepped.n = d.n ∧ d.stepped.input = d.input := by
  obtain ⟨_, _, h⟩ | ⟨_, _, _, h⟩ | ⟨_, _, _, i, _, _, _, h⟩ | ⟨_, _, _, h⟩ | ⟨_, h⟩ | ⟨_, _, h⟩ := d.stepped_cases <;> rw [h]
  case inr.inr.inl =>
    obtain ⟨_, hreq, hinlen, hhdr, hoc, hn, hinput⟩ := d.executed_sameSetup i
    exact ⟨hreq, hinlen, hhdr, hoc, hn, hinput⟩
  all_goals exact ⟨rfl, rfl, rfl, rfl, rfl, rfl⟩

/-! ### Everything a step can do to an engine -/

/-- What a step of the machine can make of the encoder: HOST writes its request or, while it is not BUSY, a buffer, starts it or
resets it; or the encoder takes its own step. -/
inductive State.EncBecomes (s : State) : Enc → Prop
  | request (req : EncReq) : EncBecomes s { s.enc with req := req }
  | storePix (a : Nat) (v : Byte) (hidle : s.enc.ctl.status ≠ .busy) :
      EncBecomes s { s.enc with pix := s.enc.pix.write a v }
  | storeOut (a : Nat) (v : Byte) (hidle : s.enc.ctl.status ≠ .busy) :
      EncBecomes s { s.enc with out := s.enc.out.write a v }
  | rejected (c : Cause) (hn : s.HostNext .startEnc) (hidle : s.enc.ctl.status ≠ .busy) (hc : c.kind = .validation) :
      EncBecomes s { s.enc with ctl := raised c }
  | accepted (hn : s.HostNext .startEnc) (hidle : s.enc.ctl.status ≠ .busy) (hgood : s.enc.req.Good) :
      EncBecomes s s.enc.accept
  | reset (hn : s.HostNext .hardReset) : EncBecomes s Enc.reset
  | stepped (hm : s.mover = .enc) : EncBecomes s s.enc.step

theorem State.EncBecomes.same {s : State} : s.EncBecomes s.enc := .request s.enc.req

/-- The same for the decoder. -/
inductive State.DecBecomes (s : State) : Dec → Prop
  | request (req : DecReq) : DecBecomes s { s.dec with req := req }
  | storeIn (a : Nat) (v : Byte) (hidle : s.dec.ctl.status ≠ .busy) :
      DecBecomes s { s.dec with input := s.dec.input.write a v }
  | storeOut (a : Nat) (v : Byte) (hidle : s.dec.ctl.status ≠ .busy) :
      DecBecomes s { s.dec with out := s.dec.out.write a v }
  | rejected (c : Cause) (hn : s.HostNext .startDec) (hidle : s.dec.ctl.status ≠ .busy) (hc : c ≠ .none) :
      DecBecomes s { s.dec with ctl := raised c }
  | accepted (hdr : Header) (hn : s.HostNext .startDec) (hidle : s.dec.ctl.status ≠ .busy)
      (hgood : s.dec.checkRequest = .ok hdr) : DecBecomes s (s.dec.accept hdr)
  | reset (hn : s.HostNext .hardReset) : DecBecomes s Dec.reset
  | stepped (hm : s.mover = .dec) : DecBecomes s s.dec.stepped

theorem State.DecBecomes.same {s : State} : s.DecBecomes s.dec := .request s.dec.req

/-- A store of HOST that is no race changes one buffer of an engine at rest (R305). -/
theorem storeByte_becomes {s : State} {buf : Buffer} (hidle : ¬ s.isOwnerBusy buf = true) (a : Nat) (v : Byte) :
    s.EncBecomes (s.afterCommand.storeByte buf a v).enc ∧ s.DecBecomes (s.afterCommand.storeByte buf a v).dec := by
  cases buf with
  | encPix => exact ⟨.storePix a v (by simpa [State.isOwnerBusy] using hidle), .same⟩
  | encOut => exact ⟨.storeOut a v (by simpa [State.isOwnerBusy] using hidle), .same⟩
  | decIn => exact ⟨.same, .storeIn a v (by simpa [State.isOwnerBusy] using hidle)⟩
  | decOut => exact ⟨.same, .storeOut a v (by simpa [State.isOwnerBusy] using hidle)⟩

/-- A command of HOST does to each engine what `EncBecomes` and `DecBecomes` say. -/
theorem command_becomes {s t : State} {c : HostCmd} (hn : s.HostNext c) (h : s.afterCommand.command c = .next t) :
    s.EncBecomes t.enc ∧ s.DecBecomes t.dec := by
  cases c with
  | encWidth v | encHeight v | encChannels v | encColorspace v | encPixlen v =>
    obtain rfl := Host.Outcome.next.inj h
    exact ⟨.request _, .same⟩
  | decInlen v | decOutChannels v =>
    obtain rfl := Host.Outcome.next.inj h
    exact ⟨.same, .request _⟩
  | store buf a v =>
    rw [command_store] at h
    split_ifs at h with hbusy
    obtain rfl := Host.Outcome.next.inj h
    exact storeByte_becomes (s := s) hbusy a v
  | startEnc =>
    rw [command_startEnc] at h
    split_ifs at h with hbusy
    · obtain rfl := Host.Outcome.next.inj h
      exact ⟨.same, .same⟩
    · obtain ⟨c, hk, rfl⟩ | ⟨hgood, _, rfl⟩ := encStart_next h
      · exact ⟨.rejected c hn hbusy hk, .same⟩
      · exact ⟨.accepted hn hbusy hgood, .same⟩
  | startDec =>
    rw [command_startDec] at h
    split_ifs at h with hbusy
    · obtain rfl := Host.Outcome.next.inj h
      exact ⟨.same, .same⟩
    · obtain ⟨c, hc, rfl⟩ | ⟨hdr, hok, _, rfl⟩ := decStart_next h
      · exact ⟨.same, .rejected c hn hbusy hc⟩
      · exact ⟨.same, .accepted hdr hn hbusy hok⟩
  | hardReset =>
    obtain rfl := Host.Outcome.next.inj h
    exact ⟨.reset hn, .reset hn⟩

/-- Every step of the machine does to each engine what `EncBecomes` and `DecBecomes` say. -/
theorem step_becomes {s t : State} (h : step s = .next t) : s.EncBecomes t.enc ∧ s.DecBecomes t.dec := by
  obtain ⟨_, _, rfl⟩ | ⟨hm, c, hc, h⟩ | ⟨hm, rfl⟩ | ⟨hm, rfl⟩ := machineStep_cases s t h
  · exact ⟨.same, .same⟩
  · exact command_becomes ⟨hm, hc⟩ h
  · exact ⟨.stepped hm, .same⟩
  · exact ⟨.same, .stepped hm⟩

/-! ### STATUS (R23) -/

/-- Settles O47: of all that can become of an engine, only START, reset and its own finish or error write STATUS. -/
theorem statusMovesAsItsTableSays : Obligations.StatusMovesAsItsTableSays := by
  intro s t hstep
  obtain ⟨henc, hdec⟩ := step_becomes hstep
  generalize t.enc = e, t.dec = d at henc hdec
  refine ⟨fun hne => ?enc, fun hne => ?dec⟩
  case enc =>
    cases henc with
    | request | storePix | storeOut => exact absurd rfl hne
    | rejected c hn hidle => exact .inr (.inl ⟨hn, hidle, .inr rfl⟩)
    | accepted hn hidle => exact .inr (.inl ⟨hn, hidle, .inl rfl⟩)
    | reset hn => exact .inl ⟨hn, rfl⟩
    | stepped hm =>
      obtain ⟨_, h⟩ | ⟨hf, h⟩ | ⟨_, h⟩ := s.enc.step_cases <;> rw [h] at hne ⊢
      · obtain ⟨⟨_, _, _, _, hctl⟩, _⟩ := s.enc.encodePixel_frame
        exact absurd (congrArg Ctl.status hctl).symm hne
      · exact .inr (.inr ⟨hm, hf.1, rfl⟩)
      · exact absurd rfl hne
  case dec =>
    cases hdec with
    | request | storeIn | storeOut => exact absurd rfl hne
    | rejected c hn hidle => exact .inr (.inl ⟨hn, hidle, .inr rfl⟩)
    | accepted hdr hn hidle => exact .inr (.inl ⟨hn, hidle, .inl rfl⟩)
    | reset hn => exact .inl ⟨hn, rfl⟩
    | stepped hm =>
      obtain ⟨_, _, h⟩ | ⟨hp, _, _, h⟩ | ⟨_, _, _, i, _, _, _, h⟩ | ⟨hp, _, _, h⟩ | ⟨hf, h⟩ | ⟨_, _, h⟩ :=
        s.dec.stepped_cases <;> rw [h] at hne ⊢
      · exact absurd rfl hne
      · exact .inr (.inr ⟨hm, hp.1, .inr rfl⟩)
      · exact absurd (congrArg Ctl.status (s.dec.executed_sameSetup i).1).symm hne
      · exact .inr (.inr ⟨hm, hp.1, .inr rfl⟩)
      · exact .inr (.inr ⟨hm, hf.1, .inl rfl⟩)
      · exact absurd rfl hne

/-! ### Which steps stop -/

/-- `enc_start` never faults, and refuses only what is beyond the capacity (R80). -/
theorem encStart_stops {s : State} : (∀ r, encStart s ≠ .fault r) ∧ ∀ r, encStart s = .refused r →
    r = .beyondMaxPixels ∧ Config.maxPixels < s.enc.req.width.toNat * s.enc.req.height.toNat := by
  obtain ⟨_, hf⟩ | ⟨c, hf, _⟩ := s.enc.req.failure_cases
  · by_cases hcap : s.enc.req.width.toNat * s.enc.req.height.toNat ≤ Config.maxPixels
    · rw [encStart_accepted hf hcap]
      exact ⟨nofun, nofun⟩
    · rw [encStart_refused hf hcap]
      exact ⟨nofun, fun r h => ⟨(Host.Outcome.refused.inj h).symm, Nat.lt_of_not_le hcap⟩⟩
  · rw [encStart_rejected hf]
    exact ⟨nofun, nofun⟩

/-- `dec_start` never faults, and refuses only what is beyond the capacity (R80). -/
theorem decStart_stops {s : State} : (∀ r, decStart s ≠ .fault r) ∧ ∀ r, decStart s = .refused r →
    r = .beyondMaxPixels ∧ ∃ hdr, readHeader s.dec.input s.dec.req.inlen = .ok hdr ∧
      Config.maxPixels < hdr.width.toNat * hdr.height.toNat := by
  cases hr : s.dec.checkRequest with
  | error c =>
    rw [decStart_rejected hr]
    exact ⟨nofun, nofun⟩
  | ok hdr =>
    by_cases hcap : hdr.width.toNat * hdr.height.toNat ≤ Config.maxPixels
    · rw [decStart_accepted hr hcap]
      exact ⟨nofun, nofun⟩
    · rw [decStart_refused hr hcap]
      exact ⟨nofun, fun r h => ⟨(Host.Outcome.refused.inj h).symm, hdr, (Dec.checkRequest_ok_iff.mp hr).1,
        Nat.lt_of_not_le hcap⟩⟩

/-- The one command that faults: a store into a buffer of a BUSY engine (R305, log 9). -/
theorem command_fault {s : State} {c : HostCmd} {r : Fault} (h : s.command c = .fault r) :
    ∃ buf a v, c = .store buf a v ∧ s.isOwnerBusy buf = true := by
  cases c with
  | store buf a v =>
    rw [command_store] at h
    split_ifs at h with hbusy
    exact ⟨buf, a, v, rfl, hbusy⟩
  | startEnc =>
    rw [command_startEnc] at h
    split_ifs at h
    exact absurd h (encStart_stops.1 r)
  | startDec =>
    rw [command_startDec] at h
    split_ifs at h
    exact absurd h (decStart_stops.1 r)
  | _ => cases h

/-- The two commands that are refused: a START of more than MAX_PIXELS pixels (R80, log 3). -/
theorem command_refused {s : State} {c : HostCmd} {r : Refusal} (h : s.command c = .refused r) :
    (c = .startEnc ∧ encStart s = .refused r) ∨ (c = .startDec ∧ decStart s = .refused r) := by
  cases c with
  | store buf a v =>
    rw [command_store] at h
    split_ifs at h
  | startEnc =>
    rw [command_startEnc] at h
    split_ifs at h
    exact .inl ⟨rfl, h⟩
  | startDec =>
    rw [command_startDec] at h
    split_ifs at h
    exact .inr ⟨rfl, h⟩
  | _ => cases h

/-- A step that answers no next state is a command of HOST. -/
theorem step_stops {s : State} (h : ∀ t, step s ≠ .next t) : ∃ c, s.HostNext c ∧ step s = s.afterCommand.command c := by
  cases hm : s.mover with
  | host =>
    cases hc : s.cmds with
    | nil =>
      refine absurd ?_ (h s.takeTurn)
      rw [step, machineStep_host s hm, hostStep, State.takeTurn_cmds, hc]
    | cons c rest =>
      have hn : s.HostNext c := ⟨hm, by rw [hc]; rfl⟩
      exact ⟨c, hn, step_command hn⟩
  | enc => exact (h _ (machineStep_enc s hm)).elim
  | dec => exact (h _ ((machineStep_dec s hm).trans (decStep_eq _))).elim

/-- Settles O41: a step that stops is a command of HOST, and of those one faults and two are refused. -/
theorem stopsOnlyOnHostCommands : Obligations.StopsOnlyOnHostCommands := by
  intro s
  refine ⟨fun r h => ?_, fun r h => ?_⟩
  · obtain ⟨c, hn, hstep⟩ := step_stops (s := s) (fun t ht => nomatch h.symm.trans ht)
    obtain ⟨buf, a, v, rfl, hbusy⟩ := command_fault (hstep.symm.trans h)
    exact ⟨buf, a, v, hn, hbusy⟩
  · obtain ⟨c, hn, hstep⟩ := step_stops (s := s) (fun t ht => nomatch h.symm.trans ht)
    obtain ⟨rfl, hr⟩ | ⟨rfl, hr⟩ := command_refused (hstep.symm.trans h)
    · obtain ⟨hr, hcap⟩ := encStart_stops.2 r hr
      exact ⟨hr, .inl ⟨hn, hcap⟩⟩
    · obtain ⟨hr, hcap⟩ := decStart_stops.2 r hr
      exact ⟨hr, .inr ⟨hn, hcap⟩⟩

/-! ### The engines' steps -/

/-- A step that is not HOST's is one engine's own, and the turn. -/
theorem step_engine {s t : State} (h : step s = .next t) (hm : s.mover ≠ .host) :
    (s.mover = .enc ∧ t = { s.takeTurn with enc := s.enc.step }) ∨
    (s.mover = .dec ∧ t = { s.takeTurn with dec := s.dec.stepped }) := by
  obtain ⟨hm', _⟩ | ⟨hm', _⟩ | h | h := machineStep_cases s t h
  · exact absurd hm' hm
  · exact absurd hm' hm
  · exact .inl h
  · exact .inr h

/-- Settles O42: an engine's step is a function of that engine, and writes nothing else but the turn. -/
theorem enginesDoNotTouchEachOther : Obligations.EnginesDoNotTouchEachOther := by
  intro s t hstep
  refine ⟨fun hm => ?_, fun hm => ?_⟩
  · obtain ⟨_, rfl⟩ | ⟨hd, _⟩ := step_engine hstep (by rw [hm]; exact nofun)
    · exact ⟨rfl, rfl⟩
    · rw [hm] at hd; cases hd
  · obtain ⟨he, _⟩ | ⟨_, rfl⟩ := step_engine hstep (by rw [hm]; exact nofun)
    · rw [hm] at he; cases he
    · exact ⟨rfl, rfl⟩

/-- Settles O43: neither engine's step touches its input or its request. -/
theorem engineStepsKeepInputs : Obligations.EngineStepsKeepInputs := by
  intro s t hstep hm
  obtain ⟨_, rfl⟩ | ⟨_, rfl⟩ := step_engine hstep hm
  · obtain ⟨hreq, _, _, hpix⟩ := s.enc.step_frame
    exact ⟨hpix, rfl, hreq, rfl⟩
  · obtain ⟨hreq, _, _, _, _, hinput⟩ := s.dec.stepped_frame
    exact ⟨rfl, hinput, rfl, hreq⟩

/-! ### What an engine's step does not read -/

/-- The encoder with another request and another colorspace tag. -/
def Enc.relabel (e : Enc) (req : EncReq) (tag : BitVec 8) : Enc := { e with req := req, cfg := { e.cfg with s := tag } }

/-- The decoder with another request and another colorspace tag. -/
def Dec.relabel (d : Dec) (req : DecReq) (tag : BitVec 8) : Dec :=
  { d with req := req, hdr := { d.hdr with colorspace := tag } }

section
variable (e : Enc) (d : Dec) (re : EncReq) (rd : DecReq) (tag : BitVec 8) (px : Pixel)

variable {e d re rd tag} in
theorem Enc.relabel_sameTag (h : e.cfg.s = tag) : e.relabel re tag = { e with req := re } := by
  subst h
  rfl

variable {e d re rd tag} in
theorem Enc.relabel_sameReq (h : e.req = re) : e.relabel re tag = { e with cfg := { e.cfg with s := tag } } := by
  subst h
  rfl

variable {e d re rd tag} in
theorem Dec.relabel_sameTag (h : d.hdr.colorspace = tag) : d.relabel rd tag = { d with req := rd } := by
  subst h
  rfl

variable {e d re rd tag} in
theorem Dec.relabel_sameReq (h : d.req = rd) : d.relabel rd tag = { d with hdr := { d.hdr with colorspace := tag } } := by
  subst h
  rfl

theorem Enc.accumulate_relabel : (e.relabel re tag).accumulate = e.accumulate.relabel re tag := by
  unfold Enc.accumulate
  by_cases hc : e.runFull ∨ e.lastPixel
  · rw [if_pos hc, if_pos (show (e.relabel re tag).runFull ∨ (e.relabel re tag).lastPixel from hc)]
    rfl
  · rw [if_neg hc, if_neg (show ¬ ((e.relabel re tag).runFull ∨ (e.relabel re tag).lastPixel) from hc)]
    rfl

theorem Enc.flushPending_relabel : (e.relabel re tag).flushPending = e.flushPending.relabel re tag := by
  rw [Enc.flushPending_eq, Enc.flushPending_eq]
  rfl

theorem Enc.encodeMiss_relabel (h : ¬ e.cacheHit px) :
    (e.relabel re tag).encodeMiss px = (e.encodeMiss px).relabel re tag := by
  rw [Enc.encodeMiss_eq _ _ h, Enc.encodeMiss_eq _ _ (show ¬ (e.relabel re tag).cacheHit px from h)]
  rfl

theorem Enc.encodeChange_relabel : (e.relabel re tag).encodeChange px = (e.encodeChange px).relabel re tag := by
  unfold Enc.encodeChange
  simp only [Enc.flushPending_relabel]
  generalize e.flushPending = flushed
  by_cases hh : flushed.cacheHit px
  · rw [if_pos hh, if_pos (show (flushed.relabel re tag).cacheHit px from hh)]
    rfl
  · rw [if_neg hh, if_neg (show ¬ (flushed.relabel re tag).cacheHit px from hh), flushed.encodeMiss_relabel re tag px hh]
    rfl

theorem Enc.encodePixel_relabel : (e.relabel re tag).encodePixel = e.encodePixel.relabel re tag := by
  unfold Enc.encodePixel
  have hpx : (e.relabel re tag).fetchPixel = e.fetchPixel := rfl
  simp only [hpx, Enc.accumulate_relabel, Enc.encodeChange_relabel]
  by_cases hm : e.matchPrev e.fetchPixel
  · rw [if_pos hm, if_pos (show (e.relabel re tag).matchPrev e.fetchPixel from hm)]
    rfl
  · rw [if_neg hm, if_neg (show ¬ (e.relabel re tag).matchPrev e.fetchPixel from hm)]
    rfl

/-- The encoder's step reads neither its request nor the tag. -/
theorem Enc.step_relabel : (e.relabel re tag).step = e.step.relabel re tag := by
  obtain ⟨hp, h⟩ | ⟨hf, h⟩ | ⟨hno, h⟩ := e.step_cases <;> rw [h]
  · rw [Enc.step_pixel (show (e.relabel re tag).pixelEnabled from hp), Enc.encodePixel_relabel]
  · rw [Enc.step_finish (show (e.relabel re tag).finishEnabled from hf)]
    rfl
  · exact Enc.step_disabled (fun hp => hno (.inl hp)) (fun hf => hno (.inr hf))

theorem Dec.fetchChunk_relabel : (d.relabel rd tag).fetchChunk = d.fetchChunk := by
  by_cases h : d.rp.toNat + (1 + payloadLength (d.input.read d.rp.toNat)) ≤ d.inlen.toNat
  · exact ((d.relabel rd tag).fetchChunk_below h).trans (d.fetchChunk_below h).symm
  · rw [d.fetchChunk_beyond (.inr (Nat.lt_of_not_le h)), (d.relabel rd tag).fetchChunk_beyond (.inr (Nat.lt_of_not_le h))]

theorem Dec.executed_relabel (i : Instr) : (d.relabel rd tag).executed i = (d.executed i).relabel rd tag := by
  cases i <;> rfl

/-- The decoder's step reads neither its request nor the tag. -/
theorem Dec.stepped_relabel : (d.relabel rd tag).stepped = d.stepped.relabel rd tag := by
  obtain ⟨hp, hr, h⟩ | ⟨hp, hz, hf, h⟩ | ⟨hp, hz, chunk, i, rest, hf, hd, h⟩ | ⟨hp, hz, ⟨chunk, hf, hd⟩, h⟩ | ⟨hfin, h⟩ |
    ⟨hp, hfin, h⟩ := d.stepped_cases <;> rw [h]
  · exact Dec.stepped_replay (d := d.relabel rd tag) hp hr
  · exact Dec.stepped_of_fetchChunk_none (d := d.relabel rd tag) hp hz ((d.fetchChunk_relabel rd tag).trans hf)
  · rw [Dec.stepped_of_decode (d := d.relabel rd tag) hp hz ((d.fetchChunk_relabel rd tag).trans hf) hd,
      Dec.executed_relabel]
    rfl
  · exact Dec.stepped_of_decode_error (d := d.relabel rd tag) hp hz ((d.fetchChunk_relabel rd tag).trans hf) hd
  · exact Dec.stepped_finish (d := d.relabel rd tag) hfin
  · exact Dec.stepped_disabled (d := d.relabel rd tag) hp hfin

end

/-- Engine steps commute with writes to the request registers and the colorspace tags. -/
theorem step_relabel {s t : State} (re : EncReq) (rd : DecReq) (ce cd : BitVec 8) (h : step s = .next t)
    (hm : s.mover ≠ .host) :
    step { s with enc := s.enc.relabel re ce, dec := s.dec.relabel rd cd } =
      .next { t with enc := t.enc.relabel re ce, dec := t.dec.relabel rd cd } := by
  have hmover : State.mover { s with enc := s.enc.relabel re ce, dec := s.dec.relabel rd cd } = s.mover := rfl
  obtain ⟨hm', rfl⟩ | ⟨hm', rfl⟩ := step_engine h hm
  · rw [step, machineStep_enc _ (hmover.trans hm'), Enc.step_relabel]
    rfl
  · rw [step, machineStep_dec _ (hmover.trans hm'), decStep_eq, State.takeTurn_dec, Dec.stepped_relabel]
    rfl

/-- An engine's step keeps the latched configuration and header (R25, R35). -/
theorem step_engine_keeps_latched {s t : State} (h : step s = .next t) (hm : s.mover ≠ .host) :
    t.enc.cfg = s.enc.cfg ∧ t.dec.hdr = s.dec.hdr := by
  obtain ⟨_, rfl⟩ | ⟨_, rfl⟩ := step_engine h hm
  · obtain ⟨_, hcfg, _⟩ := s.enc.step_frame
    exact ⟨hcfg, rfl⟩
  · obtain ⟨_, _, hhdr, _⟩ := s.dec.stepped_frame
    exact ⟨rfl, hhdr⟩

/-- Settles O44: with the tags written as they are, the commuting writes are those to the request registers. -/
theorem runningTransactionIgnoresRequestWrites : Obligations.RunningTransactionIgnoresRequestWrites := by
  intro s t re rd hstep hm
  obtain ⟨hcfg, hhdr⟩ := step_engine_keeps_latched hstep hm
  have h := step_relabel re rd s.enc.cfg.s s.dec.hdr.colorspace hstep hm
  rwa [Enc.relabel_sameTag rfl, Dec.relabel_sameTag rfl, Enc.relabel_sameTag (congrArg EncCfg.s hcfg),
    Dec.relabel_sameTag (congrArg Header.colorspace hhdr)] at h

/-- Settles O45: with the request registers written as they are, the commuting writes are those to the tags. -/
theorem colorspaceHasNoEffect : Obligations.ColorspaceHasNoEffect := by
  intro s t ce cd hstep hm
  obtain ⟨_, _, hre, hrd⟩ := engineStepsKeepInputs s t hstep hm
  have h := step_relabel s.enc.req s.dec.req ce cd hstep hm
  rwa [Enc.relabel_sameReq rfl, Dec.relabel_sameReq rfl, Enc.relabel_sameReq hre, Dec.relabel_sameReq hrd] at h

end Sys2Proof.Machine
end

section
/-! The invariants that every step keeps: buffers and caches in canonical form (log 5, R149), and what each engine's registers
are while it runs and when it is done (R28, R31, R38, R40, R163, R198, R199). -/

namespace Sys2Proof.Machine

/-! ### Buffers in canonical form -/

theorem Enc.step_out_wf {e : Enc} (h : e.out.wf = true) : e.step.out.wf = true := by
  obtain ⟨_, hs⟩ | ⟨_, hs⟩ | ⟨_, hs⟩ := e.step_cases <;> rw [hs]
  · obtain ⟨bytes, bytes', run, cache, hshape, _⟩ := e.encodePixel_shape
    rw [hshape]
    exact Memory.wf_writeBytes _ _ _ (Memory.wf_writeBytes _ _ _ h)
  · exact Memory.wf_writeBytes _ _ _ h
  · exact h

theorem Dec.stepped_out_wf {d : Dec} (h : d.out.wf = true) : d.stepped.out.wf = true := by
  obtain ⟨_, _, hs⟩ | ⟨_, _, i, _, _, _, hs⟩ | ⟨_, _, _, hs⟩ | ⟨_, hs⟩ | ⟨_, hs⟩ := d.stepped_unread_cases <;> rw [hs]
  · exact Memory.wf_writeBytes _ _ _ h
  · rw [Dec.executed_producePixel_out]
    exact Memory.wf_writeBytes _ _ _ h
  · exact h
  · exact h
  · exact h

/-- Settles O50: HOST's stores and the engines' appends are `write`s, which keep the form; reset empties the buffers. -/
theorem stepKeepsBuffersCanonical : Obligations.StepKeepsBuffersCanonical := by
  intro s t ⟨hpix, hencOut, hin, hdecOut⟩ hstep
  obtain ⟨henc, hdec⟩ := step_becomes hstep
  have hE : t.enc.pix.wf = true ∧ t.enc.out.wf = true := by
    generalize t.enc = e at henc
    cases henc with
    | request | rejected => exact ⟨hpix, hencOut⟩
    | storePix a v => exact ⟨Memory.wf_write _ a v hpix, hencOut⟩
    | storeOut a v => exact ⟨hpix, Memory.wf_write _ a v hencOut⟩
    | accepted => exact ⟨hpix, Memory.wf_writeBytes _ _ _ hencOut⟩
    | reset => exact ⟨rfl, rfl⟩
    | stepped =>
      obtain ⟨_, _, _, hkept⟩ := s.enc.step_frame
      exact ⟨hkept ▸ hpix, Enc.step_out_wf hencOut⟩
  have hD : t.dec.input.wf = true ∧ t.dec.out.wf = true := by
    generalize t.dec = d at hdec
    cases hdec with
    | request | rejected | accepted => exact ⟨hin, hdecOut⟩
    | storeIn a v => exact ⟨Memory.wf_write _ a v hin, hdecOut⟩
    | storeOut a v => exact ⟨hin, Memory.wf_write _ a v hdecOut⟩
    | reset => exact ⟨rfl, rfl⟩
    | stepped =>
      obtain ⟨_, _, _, _, _, hkept⟩ := s.dec.stepped_frame
      exact ⟨hkept ▸ hin, Dec.stepped_out_wf hdecOut⟩
  exact ⟨hE.1, hE.2, hD.1, hD.2⟩

/-! ### Caches -/

theorem Cache.canonical_init : Cache.init.Canonical := fun x => .inl (Cache.lookup_init x)

/-- A write puts a pixel into its own slot, so every slot stays the home of its pixel (R149). -/
theorem Cache.Canonical.store {cache : Cache} (h : cache.Canonical) (p : Pixel) : (cache.store p).Canonical := by
  intro x
  rw [Cache.lookup_store]
  split_ifs with hx
  · exact .inr hx.symm
  · exact h x

theorem Enc.step_cache_canonical {e : Enc} (h : e.cache.Canonical) : e.step.cache.Canonical := by
  obtain ⟨_, hs⟩ | ⟨_, hs⟩ | ⟨_, hs⟩ := e.step_cases <;> rw [hs]
  · obtain ⟨bytes, bytes', run, cache, hshape, rfl | rfl⟩ := e.encodePixel_shape <;> rw [hshape]
    · exact h
    · exact h.store _
  · exact h
  · exact h

theorem Dec.executed_cache_canonical {d : Dec} (h : d.cache.Canonical) (i : Instr) : (d.executed i).cache.Canonical := by
  cases i with
  | index | run => exact h
  | diff | luma | rgb | rgba => exact h.store _

theorem Dec.stepped_cache_canonical {d : Dec} (h : d.cache.Canonical) : d.stepped.cache.Canonical := by
  obtain ⟨_, _, hs⟩ | ⟨_, _, i, _, _, _, hs⟩ | ⟨_, _, _, hs⟩ | ⟨_, hs⟩ | ⟨_, hs⟩ := d.stepped_unread_cases <;> rw [hs]
  · exact h
  · exact Dec.executed_cache_canonical h i
  · exact h
  · exact h
  · exact h

/-- Settles O51: caches are initial, kept, or written with a pixel in its own slot. -/
theorem stepKeepsCachesCanonical : Obligations.StepKeepsCachesCanonical := by
  intro s t ⟨hencCache, hdecCache⟩ hstep
  obtain ⟨henc, hdec⟩ := step_becomes hstep
  constructor
  · generalize t.enc = e at henc
    cases henc with
    | request | storePix | storeOut | rejected => exact hencCache
    | accepted | reset => exact Cache.canonical_init
    | stepped => exact Enc.step_cache_canonical hencCache
  · generalize t.dec = d at hdec
    cases hdec with
    | request | storeIn | storeOut | rejected => exact hdecCache
    | accepted | reset => exact Cache.canonical_init
    | stepped => exact Dec.stepped_cache_canonical hdecCache

/-! ### STATUS and ERR -/

theorem Ctl.consistent_clear {st : Status} (h : st ≠ .fault) : (⟨st, Err.clear⟩ : Ctl).Consistent :=
  ⟨rfl, fun hst => absurd hst h, fun hc => absurd rfl hc⟩

theorem raised_consistent {c : Cause} (h : c ≠ .none) : (raised c).Consistent := ⟨rfl, fun _ => h, fun _ => rfl⟩

/-- An engine that is BUSY has no error, and none when it goes to DONE. -/
theorem Ctl.Consistent.done {c : Ctl} (h : c.Consistent) (hb : c.status = .busy) : (⟨.done, c.err⟩ : Ctl).Consistent := by
  obtain ⟨hkind, hfault⟩ := h
  refine ⟨hkind, nofun, fun hc => ?_⟩
  have := hfault.mpr hc
  rw [hb] at this
  cases this

/-- An index below a bound counts up without wrapping. -/
theorem add_one_toNat {a b : BitVec 64} (h : a < b) : (a + 1).toNat = a.toNat + 1 := by
  have hb := b.isLt
  rw [BitVec.lt_def] at h
  rw [BitVec.toNat_add, show (1 : BitVec 64).toNat = 1 from rfl, Nat.mod_eq_of_lt (by omega)]

/-! ### The encoder -/

/-- The run counter after a pixel of the big-step form is one a step leaves, and 0 after the last (R28, R163). -/
theorem encodeStep_run {r : Rolling} (hrun : r.run ≤ 61) (px : Pixel) (isLast : Bool) :
    (r.encodeStep px isLast).2.run ≤ 61 ∧ (isLast = true → (r.encodeStep px isLast).2.run = 0) := by
  by_cases hpx : px = r.prev
  · by_cases hflush : r.run + 1 = 62 ∨ isLast = true
    · rw [encodeStep_flush hpx hflush]
      exact ⟨Nat.zero_le _, fun _ => rfl⟩
    · rw [encodeStep_count hpx hflush]
      exact ⟨show r.run + 1 ≤ 61 by omega, fun h => absurd (.inr h) hflush⟩
  · rw [encodeStep_change hpx]
    exact ⟨Nat.zero_le _, fun _ => rfl⟩

/-- The bytes a pixel costs, a pending run's byte counted when the run is begun and not when it is put out: at most `room`,
where the pixel's own chunk fits it (R198). -/
theorem encodeStep_length {r : Rolling} {px : Pixel} {room : Nat} (hpos : 1 ≤ room)
    (hroom : (changeChunk r px).length ≤ room) (isLast : Bool) :
    (chunkBytes (r.encodeStep px isLast).1).length + (if (r.encodeStep px isLast).2.run = 0 then 0 else 1) ≤
      (if r.run = 0 then 0 else 1) + room := by
  by_cases hpx : px = r.prev
  · by_cases hflush : r.run + 1 = 62 ∨ isLast = true
    · rw [encodeStep_flush hpx hflush, chunkBytes_singleton, if_pos rfl, encode_length]
      exact Nat.le_add_left_of_le hpos
    · rw [encodeStep_count hpx hflush, chunkBytes_nil, List.length_nil, Nat.zero_add]
      exact Nat.le_add_left_of_le (le_trans (by split_ifs <;> omega) hpos)
  · have hpending : (chunkBytes (runChunk r.run)).length ≤ if r.run = 0 then 0 else 1 := by
      split_ifs with h
      · rw [h, runChunk_zero, chunkBytes_nil, List.length_nil]
      · exact chunkBytes_runChunk_length r.run
    rw [encodeStep_change hpx, chunkBytes_append, chunkBytes_singleton, List.length_append, if_pos rfl, encode_length,
      Nat.add_zero]
    exact Nat.add_le_add hpending hroom

/-- No chunk of the mux is longer than a channel count and a tag: RGBA is not chosen where alpha cannot change (R198). -/
theorem changeChunk_length_le {r : Rolling} {px : Pixel} {c : BitVec 8} (hc : c = 3 ∨ c = 4)
    (halpha : c = 3 → alphaSame px r.prev) : (changeChunk r px).length ≤ c.toNat + 1 := by
  have hc4 : 4 ≤ c.toNat + 1 := by obtain rfl | rfl := hc <;> decide
  by_cases hhit : r.cache.lookup (pixelHash px) = px
  · rw [changeChunk_hit hhit]
    exact le_trans (show 1 ≤ 4 by decide) hc4
  · by_cases hdiff : diffOk px r.prev
    · rw [changeChunk_diff hhit hdiff]
      exact le_trans (show 1 ≤ 4 by decide) hc4
    · by_cases hluma : lumaOk px r.prev
      · rw [changeChunk_luma hhit hdiff hluma]
        exact le_trans (show 2 ≤ 4 by decide) hc4
      · by_cases hsame : alphaSame px r.prev
        · rw [changeChunk_rgb hhit hdiff hluma hsame]
          exact hc4
        · obtain rfl | rfl := hc
          · exact absurd (halpha rfl) hsame
          · rw [changeChunk_rgba hhit hsame]
            exact le_refl 5

/-- The previous pixel and the cache after a pixel step, whatever the pixel. -/
theorem Enc.encodePixel_prev_cache (e : Enc) : e.encodePixel.prev = e.fetchPixel ∧
    (e.encodePixel.cache = e.cache ∨ e.encodePixel.cache = e.cache.store e.fetchPixel) := by
  obtain ⟨bytes, bytes', run, cache, hshape, hcache⟩ := e.encodePixel_shape
  rw [hshape]
  exact ⟨rfl, hcache⟩

/-- The big-step form's chunks and rolling state for the encoder's pixel. -/
def Enc.pixelStep (e : Enc) : List Instr × Rolling :=
  e.rolling.encodeStep e.fetchPixel (decide (e.pos.toNat + 1 = e.n.toNat))

/-- The rolling state a pixel step takes, while its run counter fits the register. -/
theorem Enc.became_rolling (e : Enc) (bytes : List Byte) {r : Rolling} (h : r.run < 2 ^ 6) (pos : BitVec 64) :
    ({ e.became bytes r with pos := pos } : Enc).rolling = r := by
  have hrun : (BitVec.ofNat 6 r.run).toNat = r.run := by rw [BitVec.toNat_ofNat, Nat.mod_eq_of_lt h]
  exact congrArg (Rolling.mk r.prev · r.cache) hrun

/-- The output and the rolling state after a pixel step are those of the big-step form. -/
theorem Enc.encodePixel_counters {e : Enc} (hinv : e.Inv) (hp : e.pixelEnabled) :
    e.encodePixel.outlen.toNat = e.outlen.toNat + (chunkBytes e.pixelStep.1).length ∧
    e.encodePixel.rolling = e.pixelStep.2 ∧ e.encodePixel.out = (e.emit (chunkBytes e.pixelStep.1)).out := by
  obtain ⟨_, hrun, hbusy, _⟩ := hinv
  have hroom := (hbusy hp.1).outlen_room
  have hlen : (changeChunk e.rolling e.fetchPixel).length ≤ 5 := changeChunk_length_le (.inr rfl) nofun
  have hspent := encodeStep_length (by decide) hlen (decide (e.pos.toNat + 1 = e.n.toNat))
  have hcount := (encodeStep_run (r := e.rolling) hrun e.fetchPixel (decide (e.pos.toNat + 1 = e.n.toNat))).1
  have heq := e.encodePixel_eq hroom hrun hp.2
  rw [← Enc.pixelStep] at hspent hcount heq
  have hpending : (if e.rolling.run = 0 then 0 else 1) ≤ 1 := by split_ifs <;> decide
  have houtlen := e.outlen_emit (chunkBytes e.pixelStep.1) (by omega)
  rw [heq]
  exact ⟨houtlen, e.became_rolling _ (by omega) _, rfl⟩

/-- With 3 channels a pixel step keeps every alpha at 255: the pixel's own is implied (R185, R199). -/
theorem Enc.OpaqueAlpha.encodePixel {e : Enc} (h : e.OpaqueAlpha) (hc : e.cfg.c = 3) : e.encodePixel.OpaqueAlpha := by
  have halpha : e.fetchPixel.a = 255 := by rw [Enc.fetchPixel, hc]; rfl
  obtain ⟨_, hslots⟩ := h
  obtain ⟨hprev, hcache⟩ := e.encodePixel_prev_cache
  refine ⟨hprev ▸ halpha, fun x => ?_⟩
  obtain hcache | hcache := hcache <;> rw [hcache]
  · exact hslots x
  · rw [Cache.lookup_store]
    split_ifs
    · exact .inr halpha
    · exact hslots x

/-- A pixel step keeps the invariant: the pixel's bytes are paid for by the pixel, the last one flushes (R163, R198). -/
theorem Enc.encodePixel_inv {e : Enc} (hinv : e.Inv) (hp : e.pixelEnabled) : e.encodePixel.Inv := by
  obtain ⟨houtlen, hrolling, _⟩ := Enc.encodePixel_counters hinv hp
  obtain ⟨hctl, hrun, hbusy, _⟩ := hinv
  obtain ⟨hcfg, _, _, hlow, hhigh, hopaque⟩ := hbusy hp.1
  obtain ⟨⟨_, hcfg', hn', _, hctl'⟩, hpos'⟩ := e.encodePixel_frame
  have hpos := add_one_toNat hp.2
  have hlt := BitVec.lt_def.mp hp.2
  have hrun' : e.encodePixel.run.toNat = e.pixelStep.2.run := congrArg Rolling.run hrolling
  obtain ⟨hrunLe, hrunLast⟩ := encodeStep_run (r := e.rolling) hrun e.fetchPixel (decide (e.pos.toNat + 1 = e.n.toNat))
  rw [← Enc.pixelStep, ← hrun'] at hrunLe hrunLast
  have halpha (hc : e.cfg.c = 3) : alphaSame e.fetchPixel e.prev := by
    have hpx : e.fetchPixel.a = 255 := by rw [Enc.fetchPixel, hc]; rfl
    exact hpx.trans (hopaque hc).1.symm
  have hspent := encodeStep_length (Nat.le_add_left 1 e.cfg.c.toNat)
    (changeChunk_length_le (r := e.rolling) (px := e.fetchPixel) hcfg.1 halpha) (decide (e.pos.toNat + 1 = e.n.toNat))
  rw [← Enc.pixelStep, ← hrun', Enc.rolling_run] at hspent
  have hzero (b : BitVec 6) : b = 0 ↔ b.toNat = 0 := BitVec.toNat_inj.symm
  simp only [hzero] at hhigh
  refine ⟨hctl' ▸ hctl, hrunLe, fun _ => ?_, fun hdone => ?_⟩
  · refine ⟨?_, ?_, fun hlast => ?_, ?_, ?_, fun hc => ?_⟩
    · rw [Enc.Configured, hcfg', hn']
      exact hcfg
    · rw [hpos', hn', hpos]
      exact hlt
    · rw [hpos', hn'] at hlast
      exact BitVec.eq_of_toNat_eq (hrunLast (decide_eq_true (by rw [← hpos, hlast])))
    · rw [houtlen]
      exact Nat.le_add_right_of_le hlow
    · rw [hcfg', hpos', hpos, houtlen, Nat.mul_add_one]
      simp only [hzero]
      omega
    · exact Enc.OpaqueAlpha.encodePixel (hopaque (hcfg' ▸ hc)) (hcfg' ▸ hc)
  · rw [hctl', hp.1] at hdone
    cases hdone

/-- A running encoder has put out at most 5 bytes a pixel after the header, so the end marker fits too (R198). -/
theorem Enc.Running.outlen_marker_room {e : Enc} (h : e.Running) : e.outlen.toNat + 8 < 2 ^ 67 := by
  obtain ⟨⟨hc, _⟩, _, _, _, hout, _⟩ := h
  have hlt : e.pos.toNat < 2 ^ 64 := e.pos.isLt
  have hc5 : e.cfg.c.toNat + 1 ≤ 5 := by obtain hc | hc := hc <;> rw [hc] <;> decide
  have hmul := Nat.mul_le_mul_right e.pos.toNat hc5
  omega

theorem Enc.Running.finish_outlen {e : Enc} (h : e.Running) : e.finish.outlen.toNat = e.outlen.toNat + 8 :=
  e.outlen_emit Config.endMarker h.outlen_marker_room

/-- The finish keeps the invariant: the end marker is 8 bytes more (R195). -/
theorem Enc.finish_inv {e : Enc} (hinv : e.Inv) (hf : e.finishEnabled) : e.finish.Inv := by
  obtain ⟨hctl, hrun, hbusy, _⟩ := hinv
  have hrunning := hbusy hf.1
  have hout := hrunning.finish_outlen
  obtain ⟨hcfg, _, hlast, hlow, hhigh, _⟩ := hrunning
  rw [hlast hf.2, if_pos rfl, hf.2] at hhigh
  refine ⟨hctl.done hf.1, hrun, nofun, fun _ => ⟨hcfg, hf.2, hlast hf.2, ?_, ?_⟩⟩
  · rw [hout]
    omega
  · rw [hout, Enc.finish_cfg, Enc.finish_n]
    omega

theorem Enc.accept_inv {e : Enc} (hgood : e.req.Good) : e.accept.Inv := by
  obtain ⟨_, _, hc, hs, _⟩ := hgood
  refine ⟨Ctl.consistent_clear nofun, Nat.zero_le _, fun _ => ?_, nofun⟩
  exact ⟨⟨hc, hs, pixelCount_toNat _ _⟩, Nat.zero_le _, fun _ => rfl, le_refl 14, Nat.le_add_right 14 _,
    fun _ => ⟨rfl, fun x => .inl (Cache.lookup_init x)⟩⟩

theorem Enc.reset_inv : Enc.reset.Inv := ⟨Ctl.consistent_clear nofun, Nat.zero_le _, nofun, nofun⟩

/-- The encoder's own step keeps its invariant. -/
theorem Enc.step_inv {e : Enc} (hinv : e.Inv) : e.step.Inv := by
  obtain ⟨hp, hs⟩ | ⟨hf, hs⟩ | ⟨_, hs⟩ := e.step_cases <;> rw [hs]
  · exact Enc.encodePixel_inv hinv hp
  · exact Enc.finish_inv hinv hf
  · exact hinv

/-- Settles O52: a START establishes the invariant, the encoder's own step keeps it, and it speaks of nothing HOST writes. -/
theorem stepKeepsEncoderInvariant : Obligations.StepKeepsEncoderInvariant := by
  intro s t hinv hstep
  have henc := (step_becomes hstep).1
  generalize t.enc = e at henc
  cases henc with
  | request | storePix | storeOut => exact hinv
  | rejected c hn hidle hk =>
    obtain ⟨_, hrun, _⟩ := hinv
    exact ⟨raised_consistent (by rintro rfl; cases hk), hrun, nofun, nofun⟩
  | accepted hn hidle hgood => exact Enc.accept_inv hgood
  | reset => exact Enc.reset_inv
  | stepped => exact Enc.step_inv hinv

end Sys2Proof.Machine
end

section
/-! The decoder's invariant (R28, R31, R37, R38, R40), its rolling state, and that reset meets every invariant. -/

namespace Sys2Proof.Machine

/-! ### The decoder's rolling state -/

/-- The decoder's rolling state. -/
def Dec.rolling (d : Dec) : Rolling := ⟨d.cur, d.run.toNat, d.cache⟩

/-- An opcode does to the decoder's rolling state what the big-step form says (R227 to R232). -/
theorem Dec.rolling_executed {i : Instr} (hwf : i.WellFormed) (d : Dec) :
    (d.executed i).producePixel.rolling = d.rolling.decodeStep i := by
  cases i with
  | run n =>
    obtain ⟨_, hn⟩ := wellFormed_run_iff.mp hwf
    rw [show (d.executed (.run n)).producePixel.rolling = ⟨d.cur, (replaysOwed n).toNat, d.cache⟩ from rfl,
      replaysOwed_toNat hn]
    rfl
  | index | diff | luma | rgb | rgba => rfl

/-- The replays owed after an opcode are at most 61 (R40). -/
theorem decodeStep_run {r : Rolling} {i : Instr} (hwf : i.WellFormed) (hrun : r.run ≤ 61) : (r.decodeStep i).run ≤ 61 := by
  cases i with
  | run n =>
    obtain ⟨_, hn⟩ := wellFormed_run_iff.mp hwf
    exact Nat.sub_le_sub_right hn 1
  | index | diff | luma | rgb | rgba => exact hrun

/-- A replay is one fewer owed. -/
theorem Dec.replay_run_toNat {d : Dec} (hr : 0 < d.run) : d.replay.run.toNat = d.run.toNat - 1 :=
  BitVec.toNat_sub_of_le (BitVec.le_def.mpr (BitVec.lt_def.mp hr))

/-- The read pointer past a chunk that ends below `INLEN` does not wrap. -/
theorem Dec.executed_rp {d : Dec} {i : Instr} (hroom : d.rp.toNat + i.length ≤ d.inlen.toNat) :
    (d.executed i).producePixel.rp.toNat = d.rp.toNat + i.length := by
  obtain ⟨_, _, _, _, _, _, _, _, _, _, hrp⟩ := d.executed_frame i
  have := d.inlen.isLt
  rw [Dec.producePixel_rp, hrp, BitVec.toNat_add, BitVec.toNat_ofNat, Nat.mod_eq_of_lt (a := i.length) (by omega),
    Nat.mod_eq_of_lt (by omega)]

/-! ### The invariant -/

/-- A pixel put out moves the write cursor to the next pixel's place (R38). -/
theorem Dec.Running.produced {d d' : Dec} {p : Pixel} (h : d.Running) (hk : d.k < d.n) (hset : d.SameSetup d')
    (hprod : d.Produced d' p) (hrp : 14 ≤ d'.rp.toNat ∧ d'.rp.toNat ≤ d.inlen.toNat) : d'.Running := by
  obtain ⟨⟨hch, hcs, hoc, hn⟩, _, _, _, hwc⟩ := h
  obtain ⟨_, _, hinlen', hhdr', hoc', hn', _⟩ := hset
  obtain ⟨_, _, _, hwc', hk'⟩ := hprod
  have hsucc := add_one_toNat hk
  have hlt := BitVec.lt_def.mp hk
  have hoc4 : (d.oc.setWidth 66).toNat = d.oc.toNat ∧ d.oc.toNat ≤ 4 := by
    obtain hoc | hoc := hoc <;> rw [hoc] <;> decide
  refine ⟨?_, hrp.1, hinlen' ▸ hrp.2, ?_, ?_⟩
  · rw [Dec.Configured, hhdr', hoc', hn']
    exact ⟨hch, hcs, hoc, hn⟩
  · rw [hk', hn', hsucc]
    exact hlt
  · have hk64 : d.k.toNat + 1 ≤ 2 ^ 64 - 1 := by
      have := d.n.isLt
      omega
    have hfits : (d.k.toNat + 1) * d.oc.toNat < 2 ^ 66 := lt_of_le_of_lt (Nat.mul_le_mul hk64 hoc4.2) (by decide)
    rw [hk', hoc', hsucc, hwc', BitVec.toNat_add, hoc4.1, hwc, ← Nat.succ_mul, Nat.mod_eq_of_lt hfits]

theorem Dec.replay_produced (d : Dec) : d.Produced d.replay d.cur :=
  d.producePixel_produced { d with run := d.run - 1 } rfl rfl rfl rfl rfl

theorem Dec.replay_sameSetup (d : Dec) : d.SameSetup d.replay := ⟨rfl, rfl, rfl, rfl, rfl, rfl, rfl⟩

theorem Dec.truncated_inv {d : Dec} (hinv : d.Inv) : d.truncated.Inv := by
  obtain ⟨_, hrun, _⟩ := hinv
  exact ⟨raised_consistent (c := .truncatedStream) nofun, hrun, nofun, nofun⟩

/-- The finish keeps the invariant: `K` is `N`, so `WC` is past the last pixel (R235). -/
theorem Dec.finish_inv {d : Dec} (hinv : d.Inv) (hf : d.finishEnabled) : d.finish.Inv := by
  obtain ⟨hctl, hrun, hbusy, _⟩ := hinv
  obtain ⟨hcfg, hlow, hhigh, _, hwc⟩ := hbusy hf.1
  refine ⟨hctl.done hf.1, hrun, nofun, fun _ => ⟨hcfg, hf.2, ?_, hlow, hhigh⟩⟩
  rw [Dec.finish_wc, hwc, hf.2]
  rfl

/-- A pixel step keeps the invariant, replay or opcode. -/
theorem Dec.Inv.produced {d d' : Dec} {p : Pixel} (hinv : d.Inv) (hp : d.pixelEnabled) (hset : d.SameSetup d')
    (hprod : d.Produced d' p) (hrun : d'.run.toNat ≤ 61) (hrp : d.rp.toNat ≤ d'.rp.toNat ∧ d'.rp.toNat ≤ d.inlen.toNat) :
    d'.Inv := by
  obtain ⟨hctl, _, hbusy, _⟩ := hinv
  have hrunning := hbusy hp.1
  have hctl' : d'.ctl = d.ctl := hset.1
  have ⟨_, hlow, _⟩ := hrunning
  refine ⟨hctl' ▸ hctl, hrun, fun _ => hrunning.produced hp.2 hset hprod ⟨le_trans hlow hrp.1, hrp.2⟩, fun hdone => ?_⟩
  rw [hctl', hp.1] at hdone
  cases hdone

/-- The decoder's own step keeps its invariant. -/
theorem Dec.stepped_inv {d : Dec} (hinv : d.Inv) : d.stepped.Inv := by
  have ⟨_, hrun, hbusy, _⟩ := hinv
  obtain ⟨hp, hr, hs⟩ | ⟨hp, _, i, hwf, hroom, _, hs⟩ | ⟨_, _, _, hs⟩ | ⟨hf, hs⟩ | ⟨_, hs⟩ := d.stepped_unread_cases <;>
    rw [hs]
  · obtain ⟨_, _, hhigh, _⟩ := hbusy hp.1
    refine hinv.produced hp d.replay_sameSetup d.replay_produced ?_ ⟨le_refl _, hhigh⟩
    rw [Dec.replay_run_toNat hr]
    omega
  · refine hinv.produced hp (d.executed_sameSetup i) (d.executed_produced i) ?_ ?_
    · have hrolling := congrArg Rolling.run (d.rolling_executed hwf)
      rw [show (d.executed i).producePixel.run.toNat = _ from hrolling]
      exact decodeStep_run hwf hrun
    · rw [Dec.executed_rp hroom]
      exact ⟨Nat.le_add_right _ _, hroom⟩
  · exact Dec.truncated_inv hinv
  · exact Dec.finish_inv hinv hf
  · exact hinv

/-- The effective output channel count (R36, D24). -/
theorem Dec.accept_oc (d : Dec) (hdr : Header) :
    (d.accept hdr).oc = if d.req.outChannels = 0 then hdr.channels else d.req.outChannels := rfl

/-- A START that passes the checks establishes the invariant. -/
theorem Dec.accept_inv {d : Dec} {hdr : Header} (hok : d.checkRequest = .ok hdr) : (d.accept hdr).Inv := by
  obtain ⟨hread, hoc⟩ := Dec.checkRequest_ok_iff.mp hok
  obtain ⟨hlen, _, hch, hcs, rfl⟩ := readHeader_ok_iff.mp hread
  have heff : (d.accept (headerAt d.input)).oc = 3 ∨ (d.accept (headerAt d.input)).oc = 4 := by
    by_cases h0 : d.req.outChannels = 0
    · rwa [Dec.accept_oc, if_pos h0]
    · rw [Dec.accept_oc, if_neg h0]
      exact hoc.resolve_left h0
  exact ⟨Ctl.consistent_clear nofun, Nat.zero_le _,
    fun _ => ⟨⟨hch, hcs, heff, pixelCount_toNat _ _⟩, le_refl 14, hlen, Nat.zero_le _, (Nat.zero_mul _).symm⟩, nofun⟩

theorem Dec.reset_inv : Dec.reset.Inv := ⟨Ctl.consistent_clear nofun, Nat.zero_le _, nofun, nofun⟩

/-- Settles O53: a START establishes the invariant, the decoder's own step keeps it, and it speaks of nothing HOST writes. -/
theorem stepKeepsDecoderInvariant : Obligations.StepKeepsDecoderInvariant := by
  intro s t hinv hstep
  have hdec := (step_becomes hstep).2
  generalize t.dec = d at hdec
  cases hdec with
  | request | storeIn | storeOut => exact hinv
  | rejected c hn hidle hc =>
    obtain ⟨_, hrun, _⟩ := hinv
    exact ⟨raised_consistent hc, hrun, nofun, nofun⟩
  | accepted hdr hn hidle hok => exact Dec.accept_inv hok
  | reset => exact Dec.reset_inv
  | stepped => exact Dec.stepped_inv hinv

/-- Settles O49: empty buffers, initial caches, and engines that are IDLE with no error. -/
theorem resetMeetsTheInvariants : Obligations.ResetMeetsTheInvariants :=
  ⟨⟨rfl, rfl, rfl, rfl⟩, ⟨Cache.canonical_init, Cache.canonical_init⟩, Enc.reset_inv, Dec.reset_inv⟩

end Sys2Proof.Machine
end

section
/-! The big-step forms (R201, R240): `scan` one pixel at a time, long runs (R166), and that decoding the chunks of `scan` gives the
pixels back (R241). -/

namespace Sys2Proof.Machine

/-! ### `scan`, one pixel at a time -/

section
variable {r : Rolling} {px : Pixel} {rest : List Pixel}

theorem scan_flush (h : px = r.prev) (hflush : r.run + 1 = 62 ∨ rest = []) :
    scan r (px :: rest) = .run (r.run + 1) :: scan { r with run := 0 } rest := by
  rw [scan, encodeStep_flush h (hflush.imp_right List.isEmpty_iff.mpr)]
  rfl

theorem scan_count (h : px = r.prev) (hfull : r.run + 1 ≠ 62) (hrest : rest ≠ []) :
    scan r (px :: rest) = scan { r with run := r.run + 1 } rest := by
  rw [scan, encodeStep_count h (not_or.mpr ⟨hfull, fun he => hrest (List.isEmpty_iff.mp he)⟩)]
  rfl

theorem scan_change (h : px ≠ r.prev) :
    scan r (px :: rest) = runChunk r.run ++ changeChunk r px :: scan ⟨px, 0, changeCache r.cache px⟩ rest := by
  rw [scan, encodeStep_change h, List.append_assoc, List.singleton_append]

end

theorem chunkBytes_cons (i : Instr) (chunks : List Instr) : chunkBytes (i :: chunks) = encode i ++ chunkBytes chunks :=
  List.flatMap_cons

/-! ### Long runs -/

/-- Pixels equal to the previous one are counted, while the run is not full and more pixels follow (R161). -/
theorem scan_counts {r : Rolling} {rest : List Pixel} (hrest : rest ≠ []) {j : Nat} (hj : r.run + j ≤ 61) :
    scan r (List.replicate j r.prev ++ rest) = scan { r with run := r.run + j } rest := by
  induction j generalizing r with
  | zero => rfl
  | succ j ih =>
    rw [List.replicate_succ, List.cons_append, scan_count rfl (by omega) (List.append_ne_nil_of_right_ne_nil _ hrest)]
    refine (ih (r := { r with run := r.run + 1 }) (by rw [Nat.add_assoc, Nat.add_comm 1]; exact hj)).trans ?_
    rw [Nat.add_assoc, Nat.add_comm 1]

section
variable {r : Rolling} (h0 : r.run = 0) {rest : List Pixel}
include h0

theorem Rolling.with_run_zero : { r with run := 0 } = r := by rw [← h0]

/-- Sixty-two equal pixels are one full run, whatever follows (R162). -/
theorem scan_fullRun : scan r (List.replicate 62 r.prev ++ rest) = .run 62 :: scan r rest := by
  have hsplit : List.replicate 62 r.prev ++ rest = List.replicate 61 r.prev ++ (r.prev :: rest) := by
    rw [List.replicate_succ', List.append_assoc, List.singleton_append]
  rw [hsplit, scan_counts (List.cons_ne_nil _ _) (by omega), scan_flush rfl (.inl (by rw [h0])), h0,
    Rolling.with_run_zero h0]

/-- Every 62 equal pixels are one full run. -/
theorem scan_fullRuns (q t : Nat) : scan r (List.replicate (62 * q + t) r.prev ++ rest) =
    List.replicate q (.run 62) ++ scan r (List.replicate t r.prev ++ rest) := by
  induction q with
  | zero => rw [Nat.mul_zero, Nat.zero_add, List.replicate_zero, List.nil_append]
  | succ q ih =>
    rw [show 62 * (q + 1) + t = 62 + (62 * q + t) by omega, List.replicate_add, List.append_assoc, scan_fullRun h0, ih,
      List.replicate_succ, List.cons_append]

/-- Fewer than 62 equal pixels, followed by a different one or by none, are one run (R163, R164). -/
theorem scan_shortRun (hrest : ∀ px, rest.head? = some px → px ≠ r.prev) {t : Nat} (hpos : 1 ≤ t) (ht : t ≤ 61) :
    scan r (List.replicate t r.prev ++ rest) = .run t :: scan r rest := by
  cases rest with
  | nil =>
    obtain ⟨j, rfl⟩ : ∃ j, t = j + 1 := ⟨t - 1, by omega⟩
    rw [List.append_nil, List.replicate_succ', scan_counts (List.cons_ne_nil _ _) (by omega), scan_flush rfl (.inr rfl), h0,
      Nat.zero_add]
    rfl
  | cons px rest =>
    have hne : px ≠ r.prev := hrest px rfl
    rw [scan_counts (List.cons_ne_nil _ _) (by omega), scan_change (r := { r with run := r.run + t }) hne, scan_change hne, h0, Nat.zero_add,
      runChunk_pos (Nat.pos_iff_ne_zero.mp hpos), runChunk_zero]
    rfl

end

/-- The bytes of full runs (R166). -/
theorem chunkBytes_fullRuns (q : Nat) : chunkBytes (List.replicate q (.run 62)) = List.replicate q 0xFD := by
  induction q with
  | zero => rfl
  | succ q ih =>
    rw [List.replicate_succ, chunkBytes_cons, ih, encode_run (by decide) (by decide), List.replicate_succ]
    rfl

/-- Settles O60: the run is cut into full runs and what is left over, which is one short run or nothing. -/
theorem longRunsSplitAt62 : Obligations.LongRunsSplitAt62 := by
  intro r m rest h0 hrest
  have hsplit : m = 62 * (m / 62) + m % 62 := (Nat.div_add_mod m 62).symm
  have hlt : m % 62 < 62 := Nat.mod_lt m (by decide)
  have hfull := scan_fullRuns h0 (rest := rest) (m / 62) (m % 62)
  rw [← hsplit] at hfull
  rw [hfull, chunkBytes_append, chunkBytes_fullRuns, List.append_assoc]
  split_ifs with hzero
  · rw [hzero, List.replicate_zero, List.nil_append, List.nil_append]
  · rw [scan_shortRun h0 hrest (Nat.pos_of_ne_zero hzero) (by omega), chunkBytes_cons,
      encode_run (Nat.pos_of_ne_zero hzero) (by omega)]

/-! ### `decodePixels`, one pixel at a time -/

section
variable {r : Rolling} {bytes rest : List Byte} {n : Nat}

theorem decodePixels_replay (h : 0 < r.run) :
    decodePixels r bytes (n + 1) = (decodePixels { r with run := r.run - 1 } bytes n).map (r.prev :: ·) := by
  rw [decodePixels, if_pos h]

theorem decodePixels_opcode (h : r.run = 0) {i : Instr} (hd : decode bytes = .ok (i, rest)) :
    decodePixels r bytes (n + 1) = (decodePixels (r.decodeStep i) rest n).map ((r.decodeStep i).prev :: ·) := by
  rw [decodePixels, if_neg (by omega)]
  simp only [hd]

theorem decodePixels_truncated (h : r.run = 0) (hd : decode bytes = .error .truncatedChunk) :
    decodePixels r bytes (n + 1) = .error .truncatedStream := by
  rw [decodePixels, if_neg (by omega)]
  simp only [hd]

end

/-! ### Each chunk decodes to what it was made of -/

/-- Every chunk of the mux is one an encoding exists for. -/
theorem changeChunk_wellFormed (r : Rolling) (px : Pixel) : (changeChunk r px).WellFormed := by
  by_cases hhit : r.cache.lookup (pixelHash px) = px
  · rw [changeChunk_hit hhit]
    rfl
  · by_cases hdiff : diffOk px r.prev
    · rw [changeChunk_diff hhit hdiff]
      exact wellFormed_diff_iff.mpr hdiff.2
    · by_cases hluma : lumaOk px r.prev
      · rw [changeChunk_luma hhit hdiff hluma]
        exact wellFormed_luma_iff.mpr hluma.2
      · by_cases hsame : alphaSame px r.prev
        · rw [changeChunk_rgb hhit hdiff hluma hsame]
          rfl
        · rw [changeChunk_rgba hhit hsame]
          rfl

/-- DIFF with the mux's deltas leads to the pixel they were taken from (R190, R230). -/
theorem diffPixel_deltas {px prev : Pixel} (h : alphaSame px prev) :
    diffPixel prev (deltas px prev).dr (deltas px prev).dg (deltas px prev).db = px := by
  simp only [diffPixel, deltas, addDelta_sdelta, ← h]

/-- LUMA with the mux's relative deltas leads to the pixel they were taken from (R191, R231). -/
theorem lumaPixel_deltas {px prev : Pixel} (h : alphaSame px prev) :
    lumaPixel prev (deltas px prev).dg ((deltas px prev).dr - (deltas px prev).dg)
      ((deltas px prev).db - (deltas px prev).dg) = px := by
  simp only [lumaPixel, deltas, add_sub_cancel, addDelta_sdelta, ← h]

/-- The decoder, whose cache agrees with the encoder's, takes from the chunk of a differing pixel that pixel, and its cache
agrees again (R150, R232). -/
theorem decodeStep_changeChunk (r : Rolling) (px : Pixel) :
    Rolling.decodeStep { r with run := 0 } (changeChunk r px) = ⟨px, 0, changeCache r.cache px⟩ := by
  by_cases hhit : r.cache.lookup (pixelHash px) = px
  · rw [changeChunk_hit hhit, changeCache_hit hhit]
    exact congrArg (Rolling.mk · 0 r.cache) hhit
  · rw [changeCache_miss hhit]
    by_cases hdiff : diffOk px r.prev
    · rw [changeChunk_diff hhit hdiff, Rolling.decodeStep, diffPixel_deltas hdiff.1]
      rfl
    · by_cases hluma : lumaOk px r.prev
      · rw [changeChunk_luma hhit hdiff hluma, Rolling.decodeStep, lumaPixel_deltas hluma.1]
        rfl
      · by_cases hsame : alphaSame px r.prev
        · rw [changeChunk_rgb hhit hdiff hluma hsame, Rolling.decodeStep, rgbPixel, ← hsame]
          rfl
        · rw [changeChunk_rgba hhit hsame]
          rfl

section
variable {r : Rolling} {bytes : List Byte} {n : Nat} {pixels : List Pixel}

/-- The replays owed give the current pixel that many times. -/
theorem decodePixels_replays {q : Nat} (h : decodePixels { r with run := 0 } bytes n = .ok pixels) :
    decodePixels { r with run := q } bytes (q + n) = .ok (List.replicate q r.prev ++ pixels) := by
  induction q with
  | zero => rwa [Nat.zero_add, List.replicate_zero, List.nil_append]
  | succ q ih =>
    rw [Nat.add_right_comm, decodePixels_replay (Nat.succ_pos q), Nat.add_sub_cancel, ih, List.replicate_succ]
    rfl

/-- A pending run's chunk gives the run's pixels (R169). -/
theorem decodePixels_runChunk {m : Nat} (hm : m ≤ 62) (h : decodePixels { r with run := 0 } bytes n = .ok pixels) :
    decodePixels { r with run := 0 } (chunkBytes (runChunk m) ++ bytes) (m + n) =
      .ok (List.replicate m r.prev ++ pixels) := by
  cases m with
  | zero => rwa [runChunk_zero, chunkBytes_nil, List.nil_append, Nat.zero_add, List.replicate_zero, List.nil_append]
  | succ q =>
    have hdecode := decodeOfEncodeIsTheInstruction (.run (q + 1)) bytes (wellFormed_run_iff.mpr ⟨Nat.succ_pos q, hm⟩)
    rw [runChunk_pos (Nat.succ_ne_zero q), chunkBytes_singleton, Nat.add_right_comm, decodePixels_opcode rfl hdecode,
      List.replicate_succ]
    exact congrArg (Except.map _) (decodePixels_replays h)

/-- The chunk of a differing pixel gives that pixel. -/
theorem decodePixels_changeChunk {px : Pixel}
    (h : decodePixels ⟨px, 0, changeCache r.cache px⟩ bytes n = .ok pixels) :
    decodePixels { r with run := 0 } (encode (changeChunk r px) ++ bytes) (n + 1) = .ok (px :: pixels) := by
  have hdecode := decodeOfEncodeIsTheInstruction (changeChunk r px) bytes (changeChunk_wellFormed r px)
  rw [decodePixels_opcode rfl hdecode, decodeStep_changeChunk, h]
  rfl

end

/-! ### The round trip -/

/-- The decoder is behind the encoder by the pending run: from there on it gives that run's pixels, then the others. -/
theorem decodePixels_scan (pixels : List Pixel) (after : List Byte) (r : Rolling) (hrun : r.run ≤ 61)
    (hlast : pixels = [] → r.run = 0) :
    decodePixels { r with run := 0 } (chunkBytes (scan r pixels) ++ after) (r.run + pixels.length) =
      .ok (List.replicate r.run r.prev ++ pixels) := by
  induction pixels generalizing r with
  | nil =>
    rw [hlast rfl]
    rfl
  | cons px rest ih =>
    have hcount : r.run + (px :: rest).length = r.run + 1 + rest.length := by rw [List.length_cons]; omega
    by_cases hpx : px = r.prev
    · have hpixels : List.replicate r.run r.prev ++ px :: rest = List.replicate (r.run + 1) r.prev ++ rest := by
        rw [List.replicate_succ', List.append_assoc, List.singleton_append, hpx]
      rw [hpixels, hcount]
      by_cases hflush : r.run + 1 = 62 ∨ rest = []
      · have htail := ih { r with run := 0 } (Nat.zero_le _) fun _ => rfl
        rw [List.replicate_zero, List.nil_append, Nat.zero_add] at htail
        rw [scan_flush hpx hflush, chunkBytes_cons, List.append_assoc, ← chunkBytes_singleton,
          ← runChunk_pos (Nat.succ_ne_zero r.run)]
        exact decodePixels_runChunk (by omega) htail
      · obtain ⟨hfull, hrest⟩ := not_or.mp hflush
        rw [scan_count hpx hfull hrest]
        exact ih { r with run := r.run + 1 } (show r.run + 1 ≤ 61 by omega) fun h => absurd h hrest
    · have htail := ih ⟨px, 0, changeCache r.cache px⟩ (Nat.zero_le _) fun _ => rfl
      rw [List.replicate_zero, List.nil_append, Nat.zero_add] at htail
      rw [scan_change hpx, chunkBytes_append, chunkBytes_cons, List.append_assoc, List.append_assoc, List.length_cons]
      exact decodePixels_runChunk (by omega) (decodePixels_changeChunk htail)

/-- Settles O58: at the start nothing is pending, and both sides start from the same rolling state. -/
theorem scanRoundTrip : Obligations.ScanRoundTrip := by
  intro pixels after
  have h := decodePixels_scan pixels after Rolling.init (Nat.zero_le _) fun _ => rfl
  rwa [show Rolling.init.run = 0 from rfl, Nat.zero_add] at h

end Sys2Proof.Machine
end

section
/-! Whole transactions: an engine alone is its own step iterated (log 7), a running engine reaches its end (R202, R243), and the
steps give what the big-step forms say (R201, R240, R241). -/

namespace Sys2Proof.Machine

/-! ### An engine alone -/

/-- Where no engine has a step and HOST no command, nothing changes. -/
theorem step_nothing {s : State} (hs : s.sched = []) (hc : s.cmds = []) (hd : ¬ (s.dec.pixelEnabled ∨ s.dec.finishEnabled))
    (he : ¬ (s.enc.pixelEnabled ∨ s.enc.finishEnabled)) : step s = .next s := by
  have hm : s.mover = .host := by
    unfold State.mover
    rw [hs]
    dsimp only
    rw [if_neg hd, if_neg he]
  have hturn : s.takeTurn = s := by rw [State.takeTurn, hs, List.tail_nil, ← hs]
  rw [step, machineStep_host s hm, hturn, hostStep, hc]

/-- The machine's step is the encoder's, where only the encoder has a move. -/
theorem step_encAlone {s : State} (h : s.EncAlone) : step s = .next { s with enc := s.enc.step } := by
  obtain ⟨hs, hc, hd⟩ := h
  by_cases he : s.enc.pixelEnabled ∨ s.enc.finishEnabled
  · exact step_enc_alone s hs hd he
  · rw [step_nothing hs hc (Dec.notBusy_idle _ hd) he,
      Enc.step_disabled (fun hp => he (.inl hp)) (fun hf => he (.inr hf))]

/-- The machine's step is the decoder's, where only the decoder has a move. -/
theorem step_decAlone {s : State} (h : s.DecAlone) : step s = .next { s with dec := s.dec.stepped } := by
  obtain ⟨hs, hc, he⟩ := h
  by_cases hd : s.dec.pixelEnabled ∨ s.dec.finishEnabled
  · exact step_dec_alone s hs hd
  · rw [step_nothing hs hc hd (Enc.notBusy_idle _ he),
      Dec.stepped_disabled (fun hp => hd (.inl hp)) (fun hf => hd (.inr hf))]

/-- A run of the encoder alone is its step iterated. -/
theorem run_encAlone (k : Nat) {s : State} (h : s.EncAlone) :
    Sys2Proof.core.run k s = .next { s with enc := Enc.step^[k] s.enc } := by
  induction k generalizing s with
  | zero => exact run_zero s
  | succ k ih => exact (run_succ k _ _ (step_encAlone h)).trans (ih (s := { s with enc := s.enc.step }) h)

/-- A run of the decoder alone is its step iterated. -/
theorem run_decAlone (k : Nat) {s : State} (h : s.DecAlone) :
    Sys2Proof.core.run k s = .next { s with dec := Dec.stepped^[k] s.dec } := by
  induction k generalizing s with
  | zero => exact run_zero s
  | succ k ih => exact (run_succ k _ _ (step_decAlone h)).trans (ih (s := { s with dec := s.dec.stepped }) h)

/-! ### A running encoder reaches DONE -/

/-- As long as pixels remain the encoder stays BUSY and moves on by one a step. -/
theorem Enc.iterate_step {e : Enc} (hb : e.ctl.status = .busy) {j : Nat} (hj : e.pos.toNat + j ≤ e.n.toNat) :
    e.SameSetup (Enc.step^[j] e) ∧ (Enc.step^[j] e).pos.toNat = e.pos.toNat + j := by
  induction j with
  | zero => exact ⟨⟨rfl, rfl, rfl, rfl, rfl⟩, rfl⟩
  | succ j ih =>
    obtain ⟨⟨hreq, hcfg, hn, hpix, hctl⟩, hpos⟩ := ih (by omega)
    rw [Function.iterate_succ_apply']
    generalize Enc.step^[j] e = e' at hreq hcfg hn hpix hctl hpos
    have hp : e'.pixelEnabled := ⟨hctl ▸ hb, BitVec.lt_def.mpr (by rw [hn, hpos]; omega)⟩
    obtain ⟨⟨hreq', hcfg', hn', hpix', hctl'⟩, hpos'⟩ := e'.encodePixel_frame
    rw [Enc.step_pixel hp]
    refine ⟨⟨hreq'.trans hreq, hcfg'.trans hcfg, hn'.trans hn, hpix'.trans hpix, hctl'.trans hctl⟩, ?_⟩
    rw [hpos', add_one_toNat hp.2, hpos, Nat.add_assoc]

/-- With no pixel left the encoder can finish. -/
theorem Enc.iterate_step_finishEnabled {e : Enc} (hb : e.ctl.status = .busy) {m : Nat} (hm : e.pos.toNat + m = e.n.toNat) :
    (Enc.step^[m] e).finishEnabled := by
  obtain ⟨⟨_, _, hn, _, hctl⟩, hpos⟩ := Enc.iterate_step hb hm.le
  exact ⟨hctl ▸ hb, BitVec.eq_of_toNat_eq (by rw [hpos, hn, hm])⟩

/-- Settles O54: one step a pixel, and then the finish. -/
theorem encoderReachesDone : Obligations.EncoderReachesDone := by
  intro s halone hb hpos
  refine ⟨fun j hj => ?_, ?_⟩
  · obtain ⟨⟨_, _, _, _, hctl⟩, hpos'⟩ := Enc.iterate_step hb hj
    exact ⟨_, run_encAlone j halone, (congrArg Ctl.status hctl).trans hb, hpos'⟩
  · refine ⟨_, run_encAlone _ halone, ?_⟩
    have hf := Enc.iterate_step_finishEnabled hb (Nat.add_sub_cancel' hpos)
    rw [Function.iterate_succ_apply', Enc.step_finish hf]
    rfl

/-! ### A running decoder reaches an end -/

/-- A decoder at rest stays as it is. -/
theorem Dec.iterate_stepped_atRest {d : Dec} (h : d.ctl.status ≠ .busy) (j : Nat) : Dec.stepped^[j] d = d :=
  Function.iterate_fixed (Dec.stepped_disabled (fun hp => h hp.1) (fun hf => h hf.1)) j

/-- A pixel step puts a pixel out or is TRUNCATED_STREAM. -/
theorem Dec.stepped_pixel {d : Dec} (hp : d.pixelEnabled) :
    (d.SameSetup d.stepped ∧ d.stepped.k = d.k + 1) ∨ d.stepped = d.truncated := by
  obtain ⟨_, _, hs⟩ | ⟨_, _, i, _, _, _, hs⟩ | ⟨_, _, _, hs⟩ | ⟨hf, _⟩ | ⟨hno, _⟩ := d.stepped_unread_cases
  · rw [hs]
    exact .inl ⟨d.replay_sameSetup, rfl⟩
  · obtain ⟨_, _, _, _, hk⟩ := d.executed_produced i
    rw [hs]
    exact .inl ⟨d.executed_sameSetup i, hk⟩
  · exact .inr hs
  · exact absurd hp (Dec.not_pixelEnabled_of_finishEnabled hf)
  · exact absurd (.inl hp) hno

/-- One step a pixel and one more end the decoder's transaction, in DONE with all pixels or in TRUNCATED_STREAM (R243). -/
theorem Dec.iterate_stepped_ends {m : Nat} {d : Dec} (hb : d.ctl.status = .busy) (hm : d.k.toNat + m = d.n.toNat) :
    ((Dec.stepped^[m + 1] d).ctl.status = .done ∧ (Dec.stepped^[m + 1] d).k = d.n) ∨
    (Dec.stepped^[m + 1] d).ctl = ⟨.fault, ⟨.format, .truncatedStream⟩⟩ := by
  induction m generalizing d with
  | zero =>
    have hf : d.finishEnabled := ⟨hb, BitVec.eq_of_toNat_eq hm⟩
    rw [Function.iterate_one, Dec.stepped_finish hf]
    exact .inl ⟨rfl, hf.2⟩
  | succ m ih =>
    have hp : d.pixelEnabled := ⟨hb, BitVec.lt_def.mpr (by omega)⟩
    rw [Function.iterate_succ_apply]
    obtain ⟨⟨hctl, _, _, _, _, hn, _⟩, hk⟩ | hs := Dec.stepped_pixel hp
    · have h := ih (d := d.stepped) (hctl ▸ hb) (by rw [hk, add_one_toNat hp.2, hn]; omega)
      rwa [hn] at h
    · rw [hs, Dec.iterate_stepped_atRest (d := d.truncated) nofun]
      exact .inr rfl

/-- Settles O55: the run is the decoder's step iterated, and the iteration ends. -/
theorem decoderReachesAnEnd : Obligations.DecoderReachesAnEnd := by
  intro s halone hb hk
  refine ⟨_, run_decAlone _ halone, ?_⟩
  obtain hdone | hfault := Dec.iterate_stepped_ends hb (Nat.add_sub_cancel' hk)
  · exact .inl hdone
  · exact .inr ⟨congrArg Ctl.status hfault, congrArg Ctl.err hfault⟩

/-! ### Bytes appended to a buffer -/

/-- Reading up to the end of bytes just written gives what stood before them, and them. -/
theorem Memory.readBytes_writeBytes_end (m : Memory) (a : Nat) (bytes : List Byte) :
    (m.writeBytes a bytes).readBytes 0 (a + bytes.length) = m.readBytes 0 a ++ bytes := by
  rw [Memory.readBytes_append, Nat.zero_add]
  have hbefore : (m.writeBytes a bytes).readBytes 0 a = m.readBytes 0 a :=
    Memory.readBytes_congr fun j hj => m.read_writeBytes_outside a bytes (0 + j) (.inl (by omega))
  have hafter : (m.writeBytes a bytes).readBytes a bytes.length = bytes :=
    (Memory.readBytes_eq_iff _ a bytes).mpr (m.read_writeBytes_inside a bytes)
  rw [hbefore, hafter]

/-! ### The encoder's stream (R201) -/

/-- The stream so far: the bytes of `ENC.OUT` below `OUTLEN`. -/
def Enc.stream (e : Enc) : List Byte := e.out.readBytes 0 e.outlen.toNat

theorem Enc.accept_stream (e : Enc) :
    e.accept.stream = writeHeader e.accept.cfg.w e.accept.cfg.h e.accept.cfg.c e.accept.cfg.s :=
  (Memory.holds_iff _ _ _).mp e.accept_header

/-- A pixel step appends the chunks of the big-step form to the stream. -/
theorem Enc.encodePixel_stream {e : Enc} (hinv : e.Inv) (hp : e.pixelEnabled) :
    e.encodePixel.stream = e.stream ++ chunkBytes e.pixelStep.1 := by
  obtain ⟨houtlen, _, hout⟩ := Enc.encodePixel_counters hinv hp
  rw [Enc.stream, houtlen, hout, Enc.emit_out, Memory.readBytes_writeBytes_end]
  rfl

theorem Enc.Running.finish_stream {e : Enc} (h : e.Running) : e.finish.stream = e.stream ++ Config.endMarker := by
  rw [Enc.stream, h.finish_outlen, Enc.finish_out]
  exact Memory.readBytes_writeBytes_end _ _ _

/-- After the finish HOST reads the stream (R45). -/
theorem Enc.finish_view (e : Enc) : e.finish.view = ⟨.done, none, some e.finish.stream⟩ := rfl

/-- A pixel step begins the scan of the pixels from `POS` on. -/
theorem Enc.scan_pixelsFrom {e : Enc} {m : Nat} (hm : e.pos.toNat + (m + 1) = e.n.toNat) :
    scan e.rolling (pixelsFrom e.pix e.cfg.c e.pos.toNat (m + 1)) =
      e.pixelStep.1 ++ scan e.pixelStep.2 (pixelsFrom e.pix e.cfg.c (e.pos.toNat + 1) m) := by
  have hlast : (pixelsFrom e.pix e.cfg.c (e.pos.toNat + 1) m).isEmpty = decide (e.pos.toNat + 1 = e.n.toNat) := by
    cases m with
    | zero => exact (decide_eq_true hm).symm
    | succ m => exact (decide_eq_false (by omega)).symm
  rw [pixelsFrom, scan, hlast]
  rfl

/-- The pixel steps append the scan of the pixels that remain. -/
theorem Enc.iterate_step_stream {m : Nat} {e : Enc} (hinv : e.Inv) (hb : e.ctl.status = .busy)
    (hm : e.pos.toNat + m = e.n.toNat) : (Enc.step^[m] e).Inv ∧
    (Enc.step^[m] e).stream = e.stream ++ chunkBytes (scan e.rolling (pixelsFrom e.pix e.cfg.c e.pos.toNat m)) := by
  induction m generalizing e with
  | zero => exact ⟨hinv, (List.append_nil _).symm⟩
  | succ m ih =>
    have hp : e.pixelEnabled := ⟨hb, BitVec.lt_def.mpr (by omega)⟩
    obtain ⟨⟨_, hcfg, hn, hpix, hctl⟩, hpos⟩ := e.encodePixel_frame
    obtain ⟨_, hrolling, _⟩ := Enc.encodePixel_counters hinv hp
    have hpos' : e.encodePixel.pos.toNat = e.pos.toNat + 1 := by rw [hpos, add_one_toNat hp.2]
    have h := ih (e := e.encodePixel) (Enc.encodePixel_inv hinv hp) (hctl ▸ hb) (by rw [hpos', hn]; omega)
    rw [Function.iterate_succ_apply, Enc.step_pixel hp, Enc.scan_pixelsFrom hm, chunkBytes_append]
    rwa [hrolling, hpix, hcfg, hpos', Enc.encodePixel_stream hinv hp, List.append_assoc] at h

/-- A good request's START is accepted, and leaves the encoder alone. -/
theorem State.GoodEncodeRequest.started {s : State} (h : s.GoodEncodeRequest) :
    step s = .next { s.afterCommand with enc := s.enc.accept } ∧
    State.EncAlone { s.afterCommand with enc := s.enc.accept } := by
  obtain ⟨hs, hc, he, hd, hw, hh, hch, hcs, hlen, hcap⟩ := h
  have hn : s.HostNext .startEnc := ⟨mover_host s hs hd he, by rw [hc]; rfl⟩
  refine ⟨?_, congrArg List.tail hs, congrArg List.tail hc, hd⟩
  rw [step_startEnc hn he]
  exact encStart_accepted (s := s.afterCommand) (EncReq.failure_good ⟨hw, hh, hch, hcs, hlen⟩) hcap

/-- Settles O56: START writes the header, the pixel steps append the scan, the finish the end marker. -/
theorem encoderRefinesBigStep : Obligations.EncoderRefinesBigStep := by
  intro s hgood
  obtain ⟨hstart, halone⟩ := hgood.started
  obtain ⟨_, _, _, _, hw, hh, hch, hcs, hlen, _⟩ := hgood
  have hinv : s.enc.accept.Inv := Enc.accept_inv ⟨hw, hh, hch, hcs, hlen⟩
  have hn : s.enc.accept.n.toNat = s.enc.req.width.toNat * s.enc.req.height.toNat :=
    (pixelCount_toNat _ _).trans (congrArg₂ _ (setWidth_toNat_of_lt hw) (setWidth_toNat_of_lt hh))
  have hm : s.enc.accept.pos.toNat + s.enc.req.width.toNat * s.enc.req.height.toNat = s.enc.accept.n.toNat :=
    hn ▸ Nat.zero_add _
  obtain ⟨hinv', hstream⟩ := Enc.iterate_step_stream hinv rfl hm
  have hf := Enc.iterate_step_finishEnabled (e := s.enc.accept) rfl hm
  obtain ⟨_, _, hbusy, _⟩ := hinv'
  refine ⟨_, (run_succ _ _ _ hstart).trans (run_encAlone _ halone), ?_⟩
  dsimp only
  rw [Function.iterate_succ_apply', Enc.step_finish hf, Enc.finish_view, (hbusy hf.1).finish_stream, hstream,
    Enc.accept_stream]
  rfl

end Sys2Proof.Machine
end

section
/-! The pixels of the decoder (R240), a run's pixels (R169), and the round-trip property of the machine (R241). -/

namespace Sys2Proof.Machine

/-! ### Output bytes -/

/-- The output so far: the bytes of `DEC.OUT` below `WC`. -/
def Dec.written (d : Dec) : List Byte := d.out.readBytes 0 d.wc.toNat

/-- A legal output channel count is the number of bytes of a pixel (R234). -/
theorem outputBytes_length_of_legal {oc : BitVec 8} (h : oc = 3 ∨ oc = 4) (hc : BitVec 8) (p : Pixel) :
    (outputBytes oc hc p).length = oc.toNat := by
  rw [outputBytes_length]
  obtain rfl | rfl := h <;> rfl

theorem pixelBytes_cons (oc hc : BitVec 8) (p : Pixel) (ps : List Pixel) :
    pixelBytes oc hc (p :: ps) = outputBytes oc hc p ++ pixelBytes oc hc ps := List.flatMap_cons

theorem pixelBytes_append (oc hc : BitVec 8) (ps qs : List Pixel) :
    pixelBytes oc hc (ps ++ qs) = pixelBytes oc hc ps ++ pixelBytes oc hc qs := List.flatMap_append

theorem pixelBytes_length {oc : BitVec 8} (h : oc = 3 ∨ oc = 4) (hc : BitVec 8) (ps : List Pixel) :
    (pixelBytes oc hc ps).length = ps.length * oc.toNat := by
  induction ps with
  | nil => exact (Nat.zero_mul _).symm
  | cons p ps ih =>
    rw [pixelBytes_cons, List.length_append, ih, outputBytes_length_of_legal h, List.length_cons, Nat.succ_mul, Nat.add_comm]

/-! ### Pixels put out by several steps -/

/-- `d'` is `d` after it has put out the pixels `ps`, its setup untouched. -/
def Dec.Yields (d d' : Dec) (ps : List Pixel) : Prop :=
  d.SameSetup d' ∧ d'.k.toNat = d.k.toNat + ps.length ∧
  d'.written = d.written ++ pixelBytes d.oc d.hdr.channels ps

theorem Dec.Yields.nil (d : Dec) : d.Yields d [] := ⟨⟨rfl, rfl, rfl, rfl, rfl, rfl, rfl⟩, rfl, (List.append_nil _).symm⟩

theorem Dec.SameSetup.trans {d d1 d2 : Dec} (h : d.SameSetup d1) (h' : d1.SameSetup d2) : d.SameSetup d2 := by
  obtain ⟨hctl, hreq, hinlen, hhdr, hoc, hn, hinput⟩ := h
  obtain ⟨hctl', hreq', hinlen', hhdr', hoc', hn', hinput'⟩ := h'
  exact ⟨hctl'.trans hctl, hreq'.trans hreq, hinlen'.trans hinlen, hhdr'.trans hhdr, hoc'.trans hoc, hn'.trans hn,
    hinput'.trans hinput⟩

theorem Dec.Yields.trans {d d1 d2 : Dec} {ps qs : List Pixel} (h : d.Yields d1 ps) (h' : d1.Yields d2 qs) :
    d.Yields d2 (ps ++ qs) := by
  obtain ⟨hset, hk, hout⟩ := h
  obtain ⟨hset', hk', hout'⟩ := h'
  have ⟨_, _, _, hhdr, hoc, _, _⟩ := hset
  refine ⟨hset.trans hset', ?_, ?_⟩
  · rw [hk', hk, List.length_append, Nat.add_assoc]
  · rw [hout', hout, hhdr, hoc, pixelBytes_append, List.append_assoc]

/-- A step that produces one pixel by writing its bytes at the cursor yields it; the invariant keeps the cursor from
wrapping. -/
theorem Dec.Inv.yields {d d' : Dec} {p : Pixel} (hinv : d.Inv) (hinv' : d'.Inv) (hp : d.pixelEnabled)
    (hset : d.SameSetup d') (hk : d'.k = d.k + 1)
    (hout : d'.out = d.out.writeBytes d.wc.toNat (outputBytes d.oc d.hdr.channels p)) : d.Yields d' [p] := by
  obtain ⟨_, _, hbusy, _⟩ := hinv
  obtain ⟨_, _, hbusy', _⟩ := hinv'
  obtain ⟨⟨_, _, hoc, _⟩, _, _, _, hwc⟩ := hbusy hp.1
  have ⟨hctl', _, _, _, hoc', _⟩ := hset
  obtain ⟨_, _, _, _, hwc'⟩ := hbusy' (hctl' ▸ hp.1)
  have hk' : d'.k.toNat = d.k.toNat + 1 := by rw [hk, add_one_toNat hp.2]
  have hend : d'.wc.toNat = d.wc.toNat + (outputBytes d.oc d.hdr.channels p).length := by
    rw [hwc', hwc, hk', hoc', outputBytes_length_of_legal hoc, Nat.succ_mul]
  refine ⟨hset, hk', ?_⟩
  rw [Dec.written, hend, hout, Memory.readBytes_writeBytes_end, pixelBytes_cons, show pixelBytes _ _ [] = [] from rfl,
    List.append_nil]
  rfl

/-- A replay yields the current pixel. -/
theorem Dec.replay_yields {d : Dec} (hinv : d.Inv) (hp : d.pixelEnabled) (hr : 0 < d.run) : d.Yields d.replay [d.cur] :=
  hinv.yields (Dec.stepped_replay hp hr ▸ Dec.stepped_inv hinv) hp d.replay_sameSetup rfl rfl

/-- An opcode yields its pixel. -/
theorem Dec.executed_yields {d : Dec} {i : Instr} (hinv : d.Inv) (hp : d.pixelEnabled)
    (hs : d.stepped = (d.executed i).producePixel) :
    d.Yields (d.executed i).producePixel [(d.executed i).producePixel.cur] := by
  obtain ⟨_, _, _, _, hk⟩ := d.executed_produced i
  exact hinv.yields (hs ▸ Dec.stepped_inv hinv) hp (d.executed_sameSetup i) hk (d.executed_producePixel_out i)

/-! ### The decoder's pixels (R240) -/

/-- The bytes unread after an opcode are those after its chunk. -/
theorem Dec.executed_unread {d : Dec} {i : Instr} (hroom : d.rp.toNat + i.length ≤ d.inlen.toNat) :
    (d.executed i).producePixel.unread =
      d.input.readBytes (d.rp.toNat + i.length) (d.inlen.toNat - (d.rp.toNat + i.length)) := by
  obtain ⟨_, _, hinlen, _, _, _, hinput⟩ := d.executed_sameSetup i
  rw [Dec.unread, Dec.executed_rp hroom, hinlen, hinput]

/-- The pixel steps yield what the big-step form gives for the unread bytes, and where it fails they end in
TRUNCATED_STREAM. -/
theorem Dec.iterate_stepped_decodePixels {m : Nat} {d : Dec} (hinv : d.Inv) (hb : d.ctl.status = .busy)
    (hm : d.k.toNat + m = d.n.toNat) :
    (∃ pixels, decodePixels d.rolling d.unread m = .ok pixels ∧ (Dec.stepped^[m] d).Inv ∧
      d.Yields (Dec.stepped^[m] d) pixels ∧ pixels.length = m) ∨
    (decodePixels d.rolling d.unread m = .error .truncatedStream ∧
      (Dec.stepped^[m] d).ctl = ⟨.fault, ⟨.format, .truncatedStream⟩⟩) := by
  induction m generalizing d with
  | zero => exact .inl ⟨[], rfl, hinv, .nil d, rfl⟩
  | succ m ih =>
    have hp : d.pixelEnabled := ⟨hb, BitVec.lt_def.mpr (by omega)⟩
    have hinv' := Dec.stepped_inv hinv
    have hgoes {p : Pixel} (hy : d.Yields d.stepped [p])
        (hd : decodePixels d.rolling d.unread (m + 1) = (decodePixels d.stepped.rolling d.stepped.unread m).map (p :: ·)) :
        (∃ pixels, decodePixels d.rolling d.unread (m + 1) = .ok pixels ∧ (Dec.stepped^[m] d.stepped).Inv ∧
          d.Yields (Dec.stepped^[m] d.stepped) pixels ∧ pixels.length = m + 1) ∨
        (decodePixels d.rolling d.unread (m + 1) = .error .truncatedStream ∧
          (Dec.stepped^[m] d.stepped).ctl = ⟨.fault, ⟨.format, .truncatedStream⟩⟩) := by
      have ⟨⟨hctl, _, _, _, _, hn, _⟩, hk, _⟩ := hy
      rw [hd]
      obtain ⟨pixels, hok, hinv2, hy2, hlen⟩ | ⟨herr, hctl2⟩ :=
        ih hinv' (hctl ▸ hb) (by rw [hk, hn, List.length_singleton]; omega)
      · exact .inl ⟨p :: pixels, by rw [hok]; rfl, hinv2, hy.trans hy2, congrArg (· + 1) hlen⟩
      · exact .inr ⟨by rw [herr]; rfl, hctl2⟩
    rw [Function.iterate_succ_apply]
    obtain ⟨_, hr, hs⟩ | ⟨_, hz, i, hwf, hroom, hd, hs⟩ | ⟨_, hz, hd, hs⟩ | ⟨hf, _⟩ | ⟨hno, _⟩ := d.stepped_unread_cases
    · refine hgoes (p := d.cur) (hs ▸ Dec.replay_yields hinv hp hr) ?_
      have hrolling : d.replay.rolling = { d.rolling with run := d.rolling.run - 1 } :=
        congrArg (Rolling.mk d.cur · d.cache) (Dec.replay_run_toNat hr)
      rw [hs, hrolling, decodePixels_replay (r := d.rolling) (BitVec.lt_def.mp hr)]
      rfl
    · refine hgoes (hs ▸ Dec.executed_yields hinv hp hs) ?_
      have hrun : d.rolling.run = 0 := congrArg BitVec.toNat hz
      rw [hs, Dec.executed_unread hroom, decodePixels_opcode hrun hd, ← Dec.rolling_executed hwf]
      rfl
    · have hrun : d.rolling.run = 0 := congrArg BitVec.toNat hz
      rw [hs, Dec.iterate_stepped_atRest (d := d.truncated) nofun]
      exact .inr ⟨decodePixels_truncated hrun hd, rfl⟩
    · exact absurd hp (Dec.not_pixelEnabled_of_finishEnabled hf)
    · exact absurd (.inl hp) hno

/-- A good request's START is accepted, and leaves the decoder alone. -/
theorem State.GoodDecodeRequest.started {s : State} {hdr : Header} (h : s.GoodDecodeRequest hdr) :
    step s = .next { s.afterCommand with dec := s.dec.accept hdr } ∧
    State.DecAlone { s.afterCommand with dec := s.dec.accept hdr } ∧ (s.dec.accept hdr).Inv := by
  obtain ⟨hs, hc, he, hd, hread, hoc, hcap⟩ := h
  have hn : s.HostNext .startDec := ⟨mover_host s hs hd he, by rw [hc]; rfl⟩
  have hok := Dec.checkRequest_good hread hoc
  refine ⟨?_, ⟨congrArg List.tail hs, congrArg List.tail hc, he⟩, Dec.accept_inv hok⟩
  rw [step_startDec hn hd]
  exact decStart_accepted (s := s.afterCommand) hok hcap

/-- A decoder that has yielded all its pixels finishes, and HOST reads the header and their bytes. -/
theorem Dec.finish_view {d : Dec} (hinv : d.Inv) (hf : d.finishEnabled) :
    d.finish.view.status = .done ∧ d.finish.view.hdr = some d.hdr ∧ d.finish.view.out = some d.written := by
  obtain ⟨_, _, hbusy, _⟩ := hinv
  obtain ⟨_, _, _, _, hwc⟩ := hbusy hf.1
  refine ⟨rfl, rfl, ?_⟩
  rw [Dec.written, hwc, hf.2]
  rfl

/-- The transaction of a good request, by what the big-step form gives for the bytes from offset 14: START leaves them unread
and nothing written, the pixel steps yield the pixels or fail, and the finish shows them to HOST. -/
theorem State.GoodDecodeRequest.run {s : State} {hdr : Header} (h : s.GoodDecodeRequest hdr) :
    ∃ t, Sys2Proof.core.run (hdr.width.toNat * hdr.height.toNat + 2) s = .next t ∧
      ((∃ pixels, decodePixels Rolling.init (s.dec.input.readBytes 14 (s.dec.req.inlen.toNat - 14))
          (hdr.width.toNat * hdr.height.toNat) = .ok pixels ∧
        t.dec.view.status = .done ∧ t.dec.view.hdr = some hdr ∧
        t.dec.view.out = some (pixelBytes (s.dec.accept hdr).oc hdr.channels pixels)) ∨
      (decodePixels Rolling.init (s.dec.input.readBytes 14 (s.dec.req.inlen.toNat - 14))
          (hdr.width.toNat * hdr.height.toNat) = .error .truncatedStream ∧
        t.dec.ctl = ⟨.fault, ⟨.format, .truncatedStream⟩⟩)) := by
  obtain ⟨hstart, halone, hinv⟩ := h.started
  have hn : (s.dec.accept hdr).n.toNat = hdr.width.toNat * hdr.height.toNat := pixelCount_toNat _ _
  refine ⟨_, (run_succ _ _ _ hstart).trans (run_decAlone _ halone), ?_⟩
  dsimp only
  rw [Function.iterate_succ_apply']
  obtain ⟨pixels, hok, hinv', ⟨⟨hctl, _, _, hhdr, _, hn', _⟩, hk, hout⟩, hlen⟩ | ⟨herr, hctl⟩ :=
    Dec.iterate_stepped_decodePixels hinv rfl (m := hdr.width.toNat * hdr.height.toNat) (hn ▸ Nat.zero_add _)
  · generalize Dec.stepped^[hdr.width.toNat * hdr.height.toNat] (s.dec.accept hdr) = d at hinv' hctl hhdr hn' hk hout
    have hf : d.finishEnabled :=
      ⟨congrArg Ctl.status hctl, BitVec.eq_of_toNat_eq (by rw [hk, hlen, hn', hn]; exact Nat.zero_add _)⟩
    obtain ⟨hstatus, hviewHdr, hviewOut⟩ := Dec.finish_view hinv' hf
    rw [Dec.stepped_finish hf]
    exact .inl ⟨pixels, hok, hstatus, hviewHdr.trans (congrArg some hhdr), hviewOut.trans (congrArg some hout)⟩
  · generalize Dec.stepped^[hdr.width.toNat * hdr.height.toNat] (s.dec.accept hdr) = d at hctl
    have hrest : d.ctl.status ≠ .busy := by rw [hctl]; exact nofun
    rw [Dec.stepped_disabled (fun hp => hrest hp.1) (fun hf => hrest hf.1)]
    exact .inr ⟨herr, hctl⟩

/-- Settles O57: the two outcomes of the transaction are those of the big-step form. -/
theorem decoderRefinesBigStep : Obligations.DecoderRefinesBigStep := by
  intro s hdr hgood
  obtain ⟨t, hrun, ⟨pixels, hok, hview⟩ | ⟨herr, hctl⟩⟩ := hgood.run
  · refine ⟨t, hrun, ?_⟩
    rw [hok]
    exact hview
  · refine ⟨t, hrun, ?_⟩
    rw [herr]
    have hstatus : t.dec.ctl.status = .fault := congrArg Ctl.status hctl
    exact ⟨rfl, hstatus, (visibleIn_same hstatus _).trans (congrArg (some ∘ Ctl.err) hctl)⟩

/-! ### A run's pixels (R169) -/

/-- The replays owed yield the current pixel each, and leave everything else but the run counter. -/
theorem Dec.iterate_stepped_replays {q : Nat} {d : Dec} (hinv : d.Inv) (hb : d.ctl.status = .busy)
    (hq : d.run.toNat = q) (hroom : d.k.toNat + q ≤ d.n.toNat) :
    d.Yields (Dec.stepped^[q] d) (List.replicate q d.cur) ∧ (Dec.stepped^[q] d).run = 0 ∧
    (Dec.stepped^[q] d).cur = d.cur ∧ (Dec.stepped^[q] d).rp = d.rp := by
  induction q generalizing d with
  | zero => exact ⟨.nil d, BitVec.eq_of_toNat_eq hq, rfl, rfl⟩
  | succ q ih =>
    have hp : d.pixelEnabled := ⟨hb, BitVec.lt_def.mpr (by omega)⟩
    have hr : 0 < d.run := BitVec.lt_def.mpr (hq ▸ Nat.succ_pos q)
    have hy := Dec.replay_yields hinv hp hr
    have hinv' := Dec.stepped_inv hinv
    rw [Dec.stepped_replay hp hr] at hinv'
    have ⟨⟨_, _, _, _, _, hn, _⟩, hk, _⟩ := hy
    rw [Function.iterate_succ_apply, Dec.stepped_replay hp hr, List.replicate_succ]
    obtain ⟨hy', hrun, hcur, hrp⟩ := ih hinv' hb (by rw [Dec.replay_run_toNat hr, hq]; rfl)
      (by rw [hk, hn, List.length_singleton]; omega)
    exact ⟨hy.trans hy', hrun, hcur, hrp⟩

/-- Each of the copies of a pixel that were yielded stands in its place. -/
theorem Dec.Yields.holds_copy {d d' : Dec} {p : Pixel} {n : Nat} (h : d.Yields d' (List.replicate n p))
    (hoc : d.oc = 3 ∨ d.oc = 4) {j : Nat} (hj : j < n) :
    d'.out.Holds (d.wc.toNat + j * d.oc.toNat) (outputBytes d.oc d.hdr.channels p) := by
  obtain ⟨_, _, hout⟩ := h
  have hsplit : List.replicate n p = List.replicate j p ++ p :: List.replicate (n - (j + 1)) p := by
    rw [← List.replicate_succ, ← List.replicate_add]
    congr 1
    omega
  have hholds : d'.out.Holds 0 d'.written := by rw [Memory.holds_iff, Dec.written, Memory.length_readBytes]
  rw [hout, hsplit, pixelBytes_append, pixelBytes_cons, Memory.holds_append_iff, Memory.holds_append_iff,
    Memory.holds_append_iff, pixelBytes_length hoc, List.length_replicate, Dec.written, Memory.length_readBytes,
    Nat.zero_add] at hholds
  obtain ⟨_, _, hcopy, _⟩ := hholds
  exact hcopy

/-- What RUN does to the decoder's own registers: the replays are loaded, one byte is read, the pixel stays (R167). -/
theorem Dec.executed_run_registers (d : Dec) (n : Nat) : (d.executed (.run n)).producePixel.run = replaysOwed n ∧
    (d.executed (.run n)).producePixel.cur = d.cur ∧ (d.executed (.run n)).producePixel.rp = d.rp + 1 := ⟨rfl, rfl, rfl⟩

/-- Settles O19: the RUN byte yields the first copy, its replays the others. -/
theorem runByteYieldsFieldPlusOnePixels : Obligations.RunByteYieldsFieldPlusOnePixels := by
  intro s n halone hn hf hinv hroom
  have ⟨⟨_, hp, _⟩, _⟩ := hf
  have hs : s.dec.stepped = (s.dec.executed (.run (n + 1))).producePixel := by
    have hexec := stepRunsTheDecodedInstruction (.run (n + 1)) s (wellFormed_run_iff.mpr (by omega))
      (by rwa [encode_run (by omega) (by omega), Nat.add_sub_cancel])
    rw [exec_eq, step_decAlone halone] at hexec
    exact congrArg State.dec (Host.Outcome.next.inj hexec)
  have hfirst := Dec.executed_yields hinv hp hs
  have hinv' := Dec.stepped_inv hinv
  obtain ⟨hrun1, hcur1, hrp1⟩ := s.dec.executed_run_registers (n + 1)
  rw [← hs] at hfirst hrun1 hcur1 hrp1
  rw [hcur1] at hfirst
  have ⟨⟨hctl, _, _, _, _, hn', _⟩, hk, _⟩ := hfirst
  obtain ⟨hothers, hrun, hcur, hrp⟩ := Dec.iterate_stepped_replays hinv' (hctl ▸ hp.1)
    (q := n) (by rw [hrun1, replaysOwed_toNat (by omega), Nat.add_sub_cancel])
    (by rw [hk, hn', List.length_singleton]; omega)
  rw [hcur1] at hothers
  have hall := hfirst.trans hothers
  rw [← Function.iterate_succ_apply] at hrun hcur hrp hall
  have ⟨⟨hctl', _⟩, hk', _⟩ := hall
  obtain ⟨_, _, hbusy, _⟩ := hinv
  obtain ⟨⟨_, _, hoc, _⟩, _⟩ := hbusy hp.1
  exact ⟨_, run_decAlone (n + 1) halone, hk'.trans (congrArg (s.dec.k.toNat + ·) (List.length_replicate (n := n + 1))), hrun,
    hcur.trans hcur1, hrp.trans hrp1, hctl', fun j hj => hall.holds_copy hoc (Nat.lt_succ_of_le hj)⟩

/-! ### The round trip of the machine (R241) -/

/-- With as many output channels as the image has, its pixels are put out as the bytes they were taken from. -/
theorem pixelBytes_pixelsFrom {c : BitVec 8} (hc : c = 3 ∨ c = 4) (m : Memory) (i n : Nat) :
    pixelBytes c c (pixelsFrom m c i n) = m.readBytes (i * c.toNat) (n * c.toNat) := by
  induction n generalizing i with
  | zero => rw [Nat.zero_mul]; rfl
  | succ n ih =>
    have hpixel : outputBytes c c (pixelAt m c i) = m.readBytes (i * c.toNat) c.toNat := by
      obtain rfl | rfl := hc <;> rfl
    rw [pixelsFrom, pixelBytes_cons, ih, hpixel, Nat.succ_mul, Nat.succ_mul, Nat.add_comm (n * _), Memory.readBytes_append]

theorem pixelsFrom_length (m : Memory) (c : BitVec 8) (i n : Nat) : (pixelsFrom m c i n).length = n := by
  induction n generalizing i with
  | zero => rfl
  | succ n ih => exact congrArg (· + 1) (ih (i + 1))

/-- A buffer that holds an encoded image holds its header, and behind it chunks that decode to its pixels. -/
theorem decode_encodeImage {m : Memory} {inlen : BitVec 64} {w h : BitVec 32} {c cs : BitVec 8} {pixels : List Pixel}
    (hc : c = 3 ∨ c = 4) (hcs : cs.toNat ≤ 1) (hlen : inlen.toNat = (encodeImage w h c cs pixels).length)
    (hm : m.Holds 0 (encodeImage w h c cs pixels)) :
    readHeader m inlen = .ok ⟨w, h, c, cs⟩ ∧
      decodePixels Rolling.init (m.readBytes 14 (inlen.toNat - 14)) pixels.length = .ok pixels := by
  have himage : encodeImage w h c cs pixels =
      writeHeader w h c cs ++ (chunkBytes (scan Rolling.init pixels) ++ Config.endMarker) := List.append_assoc _ _ _
  have hheader : (writeHeader w h c cs).length = 14 := rfl
  rw [himage, List.length_append, hheader] at hlen
  rw [himage, Memory.holds_append_iff, hheader, Nat.zero_add] at hm
  have hbytes := (Memory.holds_iff _ _ _).mp hm.2
  refine ⟨headerRoundTrip.1 m inlen w h c cs (by omega) hc hcs hm.1, ?_⟩
  rw [hlen, Nat.add_sub_cancel_left, hbytes]
  exact scanRoundTrip pixels Config.endMarker

/-- Settles O59: the stream is the big-step form's, which the decoder's big-step form turns back into the pixels. -/
theorem machineRoundTrip : Obligations.MachineRoundTrip := by
  intro s hgood
  obtain ⟨t, hrun, hview⟩ := encoderRefinesBigStep s hgood
  obtain ⟨_, _, _, _, hw, hh, hc, hcs, hpixlen, hcap⟩ := hgood
  refine ⟨t, _, hrun, hview, fun s' hsched hcmds he hd hoc hlen hholds => ?_⟩
  obtain ⟨hread, hpixels⟩ := decode_encodeImage hc hcs hlen hholds
  rw [pixelsFrom_length] at hpixels
  have hcount : (s.enc.req.width.setWidth 32).toNat * (s.enc.req.height.setWidth 32).toNat =
      s.enc.req.width.toNat * s.enc.req.height.toNat := by rw [setWidth_toNat_of_lt hw, setWidth_toNat_of_lt hh]
  obtain ⟨u, hrun', hends⟩ :=
    State.GoodDecodeRequest.run (s := s') ⟨hsched, hcmds, he, hd, hread, .inl hoc, hcount ▸ hcap⟩
  dsimp only at hrun' hends
  rw [hcount] at hrun' hends
  rw [hpixels] at hends
  obtain ⟨pixels, hok, hstatus, hhdr, hout⟩ | ⟨herr, _⟩ := hends
  · obtain rfl := Except.ok.inj hok
    refine ⟨u, hrun', hstatus, hhdr, ?_⟩
    rw [hout, Dec.accept_oc, if_pos hoc, pixelBytes_pixelsFrom hc, Nat.zero_mul, hpixlen]
  · cases herr

end Sys2Proof.Machine
end
